-- ==== Sys2Proof/Word.lean ====
section
/-! DEFINITION. The words of the port and the fixed-point value type (10_state.md R20 to R23). -/

namespace Sys2Proof

/-- A command word, `cmd_word[31:0]` (20_memory.md R63, R90). -/
abbrev CmdWord := BitVec 32

/-- A data word of the port, 130 bits (R6 `QW`, R63). -/
abbrev DataWord := BitVec 130

/-- The sign of a fixed-point value: three values and no fourth (R22; 93_implementation_defined.md U3). -/
inductive Sign where
  | negative
  | neutral
  | positive
deriving DecidableEq, Repr

/-- `sgn` of R22: -1, 0, +1. -/
def Sign.sgn : Sign → Int
  | .negative => -1
  | .neutral => 0
  | .positive => 1

/-- A fixed-point value `(sign, high, low)` in the format Q8.120 (R20). -/
structure Q where
  sign : Sign
  high : BitVec 64
  low : BitVec 64
deriving DecidableEq, Repr

/-- The magnitude, an unsigned 128-bit integer (R21). -/
def Q.mag (v : Q) : Nat :=
  v.high.toNat * 2 ^ 64 + v.low.toNat

/-- The real value of R10 and R21 counted in units of `2^-120`: `sgn(sign) * mag`. -/
def Q.units (v : Q) : Int :=
  v.sign.sgn * (v.mag : Int)

end Sys2Proof
end

