-- ==== Sys2Proof/Syntax.lean ====
section
/-! DEFINITION. The 18 commands (30_encoding.md R94), one constructor per row of spec/opcode_table.json, and the
names of the 15 control and status registers (10_state.md R29). -/

namespace Sys2Proof

/-- A register number, `q0` .. `q15`: every value is a register (R25, R60). -/
abbrev Reg := Fin 16

/-- A CSR number as the command word carries it, 12 bits; undefined numbers are well-formed words (R92, R96). -/
abbrev CsrNum := BitVec 12

/-- A command: operands in the order destination, first source, second source (R97). -/
inductive Instr where
  | qzero (rd : Reg)
  | qone (rd : Reg)
  | qld (rd : Reg)
  | qst (ra : Reg)
  | qmov (rd ra : Reg)
  | qneg (rd ra : Reg)
  | qadd (rd ra rb : Reg)
  | qsub (rd ra rb : Reg)
  | qmul (rd ra rb : Reg)
  | qcmp (ra rb : Reg)
  | f64toq (rd : Reg)
  | f32toq (rd : Reg)
  | qtof64 (ra : Reg)
  | qtof32 (ra : Reg)
  | qtoi8 (ra : Reg)
  | iter (ra rb : Reg)
  | csrr (csr : CsrNum)
  | csrw (csr : CsrNum)
deriving DecidableEq, Repr

/-- The 15 control and status registers of R29. -/
inductive Csr where
  | status
  | errCmd
  | maxIter
  | itStat
  | itI
  | itIsw
  | itRes
  | itXf
  | itYf
  | itCxf
  | itCyf
  | itXq
  | itYq
  | itCxq
  | itCyq
deriving DecidableEq, Repr

end Sys2Proof
end

