-- ==== Sys2Proof/WellFormed.lean ====
section
/-! DEFINITION. The checks on raw data. Every term of `Instr` is well formed by its types (register numbers are
`Fin 16`, CSR numbers 12 bits: log 12), so the checks are on command words (R94) and on fixed-point values (R23). -/

namespace Sys2Proof

/-- A value is canonical when its magnitude is 0 exactly if its sign is Neutral (R23). -/
def Q.canonical (v : Q) : Bool :=
  decide (v.mag = 0) == decide (v.sign = .neutral)

/-- A row of the opcode map: `w` spells the command exactly when `w AND mask = pattern` (R94). -/
structure OpcodeRow where
  mnemonic : String
  pattern : CmdWord
  mask : CmdWord
deriving DecidableEq, Repr

/-- `(w AND mask) = match` (R94). -/
def OpcodeRow.spells (r : OpcodeRow) (w : CmdWord) : Bool :=
  w &&& r.mask == r.pattern

/-- The opcode map of R94, row by row as the spec prints it. -/
def opcodeTable : List OpcodeRow :=
  [ ⟨"QZERO",  0x01000000#32, 0xFF0FFFFF#32⟩,
    ⟨"QONE",   0x02000000#32, 0xFF0FFFFF#32⟩,
    ⟨"QLD",    0x03000000#32, 0xFF0FFFFF#32⟩,
    ⟨"QST",    0x04000000#32, 0xFFF0FFFF#32⟩,
    ⟨"QMOV",   0x05000000#32, 0xFF00FFFF#32⟩,
    ⟨"QNEG",   0x10000000#32, 0xFF00FFFF#32⟩,
    ⟨"QADD",   0x11000000#32, 0xFF000FFF#32⟩,
    ⟨"QSUB",   0x12000000#32, 0xFF000FFF#32⟩,
    ⟨"QMUL",   0x13000000#32, 0xFF000FFF#32⟩ ] ++
  [ ⟨"QCMP",   0x14000000#32, 0xFFF00FFF#32⟩,
    ⟨"F64TOQ", 0x20000000#32, 0xFF0FFFFF#32⟩,
    ⟨"F32TOQ", 0x21000000#32, 0xFF0FFFFF#32⟩,
    ⟨"QTOF64", 0x22000000#32, 0xFFF0FFFF#32⟩,
    ⟨"QTOF32", 0x23000000#32, 0xFFF0FFFF#32⟩,
    ⟨"QTOI8",  0x24000000#32, 0xFFF0FFFF#32⟩,
    ⟨"ITER",   0x30000000#32, 0xFFF00FFF#32⟩,
    ⟨"CSRR",   0x40000000#32, 0xFFFFF000#32⟩,
    ⟨"CSRW",   0x41000000#32, 0xFFFFF000#32⟩ ]

/-- A command word is legal when some row of the opcode map spells it (R94, R96). -/
def legalWord (w : CmdWord) : Bool :=
  opcodeTable.any fun r => r.spells w

/-- The mnemonic a command has in the opcode map (R94). -/
def Instr.mnemonic : Instr → String
  | .qzero _ => "QZERO"
  | .qone _ => "QONE"
  | .qld _ => "QLD"
  | .qst _ => "QST"
  | .qmov _ _ => "QMOV"
  | .qneg _ _ => "QNEG"
  | .qadd _ _ _ => "QADD"
  | .qsub _ _ _ => "QSUB"
  | .qmul _ _ _ => "QMUL"
  | .qcmp _ _ => "QCMP"
  | .f64toq _ => "F64TOQ"
  | .f32toq _ => "F32TOQ"
  | .qtof64 _ => "QTOF64"
  | .qtof32 _ => "QTOF32"
  | .qtoi8 _ => "QTOI8"
  | .iter _ _ => "ITER"
  | .csrr _ => "CSRR"
  | .csrw _ => "CSRW"

end Sys2Proof
end

