-- ==== Sys2Proof/Decode.lean ====
section
/-! DEFINITION. Decoding a command word, total on all 2^32 words (30_encoding.md R91, R92, R95), the encoder beside
it, and decoding as spec/opcode_table.json numbers the bits. -/

namespace Sys2Proof

/-- Why a word is illegal (R96). -/
inductive Illegal where
  /-- `w[31:24]` is none of the 18 opcodes of R94. -/
  | undefinedOpcode
  /-- A bit of a `zero` field, or of a register field the command does not use, is set (R91, R92). -/
  | mustBeZero
deriving DecidableEq, Repr

/-- What a word decodes to: a command, or `Illegal` with its reason. -/
inductive Decoded where
  | instr (i : Instr)
  | illegal (why : Illegal)
deriving DecidableEq, Repr

/-- The opcode `w[31:24]` (R90). -/
def opField (w : CmdWord) : BitVec 8 := w.extractLsb' 24 8

/-- `w[23:20]` (R91). -/
def rdField (w : CmdWord) : Reg := (w.extractLsb' 20 4).toFin

/-- `w[19:16]` (R91). -/
def raField (w : CmdWord) : Reg := (w.extractLsb' 16 4).toFin

/-- `w[15:12]` (R91). -/
def rbField (w : CmdWord) : Reg := (w.extractLsb' 12 4).toFin

/-- The `zero` field of format R and the `csr` field of format C, `w[11:0]` (R91, R92). -/
def lowField (w : CmdWord) : BitVec 12 := w.extractLsb' 0 12

/-- The `zero` field of format C, `w[23:12]` (R92). -/
def midField (w : CmdWord) : BitVec 12 := w.extractLsb' 12 12

/-- A command if the must-be-zero fields are zero, else illegal. -/
def ifZero (zero : Bool) (i : Instr) : Decoded :=
  if zero then .instr i else .illegal .mustBeZero

/-- `decode` of R95, one line per opcode. -/
def decode (w : CmdWord) : Decoded :=
  let rd := rdField w
  let ra := raField w
  let rb := rbField w
  let z := lowField w
  match opField w with
  | 0x01#8 => ifZero (ra == 0 && rb == 0 && z == 0) (.qzero rd)
  | 0x02#8 => ifZero (ra == 0 && rb == 0 && z == 0) (.qone rd)
  | 0x03#8 => ifZero (ra == 0 && rb == 0 && z == 0) (.qld rd)
  | 0x04#8 => ifZero (rd == 0 && rb == 0 && z == 0) (.qst ra)
  | 0x05#8 => ifZero (rb == 0 && z == 0) (.qmov rd ra)
  | 0x10#8 => ifZero (rb == 0 && z == 0) (.qneg rd ra)
  | 0x11#8 => ifZero (z == 0) (.qadd rd ra rb)
  | 0x12#8 => ifZero (z == 0) (.qsub rd ra rb)
  | 0x13#8 => ifZero (z == 0) (.qmul rd ra rb)
  | 0x14#8 => ifZero (rd == 0 && z == 0) (.qcmp ra rb)
  | 0x20#8 => ifZero (ra == 0 && rb == 0 && z == 0) (.f64toq rd)
  | 0x21#8 => ifZero (ra == 0 && rb == 0 && z == 0) (.f32toq rd)
  | 0x22#8 => ifZero (rd == 0 && rb == 0 && z == 0) (.qtof64 ra)
  | 0x23#8 => ifZero (rd == 0 && rb == 0 && z == 0) (.qtof32 ra)
  | 0x24#8 => ifZero (rd == 0 && rb == 0 && z == 0) (.qtoi8 ra)
  | 0x30#8 => ifZero (rd == 0 && z == 0) (.iter ra rb)
  | 0x40#8 => ifZero (midField w == 0) (.csrr z)
  | 0x41#8 => ifZero (midField w == 0) (.csrw z)
  | _ => .illegal .undefinedOpcode

/-- A word of format R: `op * 2^24 + rd * 2^20 + ra * 2^16 + rb * 2^12` (R95). -/
def encodeR (op : Nat) (rd ra rb : Reg) : CmdWord :=
  BitVec.ofNat 32 (op * 2 ^ 24 + rd.val * 2 ^ 20 + ra.val * 2 ^ 16 + rb.val * 2 ^ 12)

/-- A word of format C: `op * 2^24 + csr` (R95). -/
def encodeC (op : Nat) (csr : CsrNum) : CmdWord :=
  BitVec.ofNat 32 (op * 2 ^ 24 + csr.toNat)

/-- `encode` of R95: unused fields are 0. -/
def encode : Instr → CmdWord
  | .qzero rd => encodeR 0x01 rd 0 0
  | .qone rd => encodeR 0x02 rd 0 0
  | .qld rd => encodeR 0x03 rd 0 0
  | .qst ra => encodeR 0x04 0 ra 0
  | .qmov rd ra => encodeR 0x05 rd ra 0
  | .qneg rd ra => encodeR 0x10 rd ra 0
  | .qadd rd ra rb => encodeR 0x11 rd ra rb
  | .qsub rd ra rb => encodeR 0x12 rd ra rb
  | .qmul rd ra rb => encodeR 0x13 rd ra rb
  | .qcmp ra rb => encodeR 0x14 0 ra rb
  | .f64toq rd => encodeR 0x20 rd 0 0
  | .f32toq rd => encodeR 0x21 rd 0 0
  | .qtof64 ra => encodeR 0x22 0 ra 0
  | .qtof32 ra => encodeR 0x23 0 ra 0
  | .qtoi8 ra => encodeR 0x24 0 ra 0
  | .iter ra rb => encodeR 0x30 0 ra rb
  | .csrr csr => encodeC 0x40 csr
  | .csrw csr => encodeC 0x41 csr

/-- The command word made of the `nbits` low bits of `w`, the bits above them 0 (spec/opcode_table.json: bit 0 is
the least significant bit, as in R7). -/
def tableWord (nbits w : Nat) : CmdWord :=
  BitVec.ofNat 32 (w % 2 ^ nbits)

/-- The command `decode` reads from the opcode table's word `w`, none where it is illegal. -/
def decodeTableWord (nbits w : Nat) : Option Instr :=
  match decode (tableWord nbits w) with
  | .instr i => some i
  | .illegal _ => none

end Sys2Proof
end

