-- ==== Sys2Proof/Config.lean ====
section
/-! DEFINITION. What is fixed for the machine and what the spec leaves open (00_scope.md R6;
92_eei_decisions.md; 93_implementation_defined.md part 1). An open value is an uninterpreted constant:
it has no body, so a claim that is proved holds whatever its value. -/

namespace Sys2Proof.Config

/-- The binary operations that can produce a NaN (R9). -/
inductive FloatOp where
  | add
  | sub
  | mul
  | div
deriving DecidableEq, Repr

/-- OPEN parameter `LN64`, binary64 patterns to binary64 patterns: a total function of its operand's bit pattern and
nothing else is assumed of it (42_iterator.md R196, D17, U2). Log 7. -/
opaque ln64 : BitVec 64 → BitVec 64

/-- Free value: what picks the sign and the payload of a NaN that a float operation produces from the operand
patterns; `Machine.nanPattern` forces the result to be a NaN pattern (D15, U6). Log 8. -/
opaque nanRaw : FloatOp → Nat → Nat → Nat

/-- Reset value of `MAXITER`: "100 in the reference configuration" (R32, R40). -/
def maxIterReset : BitVec 32 := 100#32

end Sys2Proof.Config
end

