-- ==== Sys2Proof/Machine/State.lean ====
section
/-! DEFINITION. The state of the unit (10_state.md R20 to R41), the port it is driven through (20_memory.md R63 to
R67) and the state after reset (R40, R290). -/

namespace Sys2Proof.Machine

/-- `IT_STAT.PHASE` (R33). -/
inductive Phase where
  | idle
  | fixed
  | float
  | done
deriving DecidableEq, Repr

/-- The complete state of the iterator (R38); binary64 values are held as their bit patterns. -/
structure Eti where
  cxq : Q
  cyq : Q
  xq : Q
  yq : Q
  xf : BitVec 64
  yf : BitVec 64
  cxf : BitVec 64
  cyf : BitVec 64
  res : BitVec 64
  i : BitVec 32
  isw : BitVec 32
  phase : Phase
  capped : Bool
deriving DecidableEq, Repr

/-- The error codes of R250; codes 4 to 15 are never produced. -/
inductive ErrCode where
  | ok
  | illegalCommand
  | illegalCsr
  | invalidLiteral
deriving DecidableEq, Repr

/-- A response `(err, rdata)` (R63). -/
structure Response where
  err : ErrCode
  rdata : DataWord
deriving DecidableEq, Repr

/-- The command being executed and its write-data word, as sampled when the unit took them (R64). -/
structure Port where
  cmd : CmdWord
  wdata : DataWord
deriving DecidableEq, Repr

/-- What the host can do to the unit (R64, R67). A host that breaks the handshake has no move (R294). Log 1, 14. -/
inductive HostMove where
  /-- Offer a command word with its data word until the unit takes it. -/
  | command (cmd : CmdWord) (wdata : DataWord)
  /-- Raise `rsp_ready` and take the response, if one is offered. -/
  | takeResponse
  /-- Assert `rst` (R290). -/
  | reset
deriving DecidableEq, Repr

/-- The state. `q` to `eti` are the spec's registers; `port` to `answered` are the port of R63 and R64, which the
spec gives to a step as its input and output (log 1, 3, 4). -/
structure State where
  /-- `q0` .. `q15` (R25). -/
  q : Vector Q 16
  /-- `STATUS.ERR` (R30). -/
  err : Bool
  /-- `STATUS.ERRCODE` (R30). -/
  errCode : ErrCode
  /-- `ERRCMD` (R31). -/
  errCmd : CmdWord
  /-- `MAXITER` (R32). -/
  maxIter : BitVec 32
  /-- The `IT_*` registers (R33 to R38). -/
  eti : Eti
  /-- The command in progress (R64). -/
  port : Port
  /-- The response offered, `none` while `rsp_valid = 0` (R64). -/
  rsp : Option Response
  /-- The host's pending moves, the next one first. -/
  host : List HostMove
  /-- The responses the host has taken, oldest first. -/
  answered : List Response
deriving DecidableEq, Repr

/-- Reasons to stop with a fault: none. Every fault of the spec is answered and recorded, and the unit goes on
(R12, R253, R254), so it is a next state here; nothing raises a fault of the model. Safe. -/
inductive Fault where
deriving DecidableEq, Repr

/-- Reasons to refuse. -/
inductive Refusal where
  /-- Raised by an arm of `exec` whose instruction has no meaning yet; no arm raises it now. Safe: the run stops. -/
  | notModelled (mnemonic : String)
deriving DecidableEq, Repr

/-- Canonical zero `(Neutral, 0, 0)` (R120), the reset value of every register of type `Q` (R40). -/
def canonicalZero : Q := ⟨.neutral, 0#64, 0#64⟩

/-- The iterator after reset (R40). -/
def Eti.reset : Eti :=
  { cxq := canonicalZero, cyq := canonicalZero, xq := canonicalZero, yq := canonicalZero,
    xf := 0#64, yf := 0#64, cxf := 0#64, cyf := 0#64, res := 0#64, i := 0#32, isw := 0#32,
    phase := .idle, capped := false }

/-- The state right after reset (R40, R290); the host's lists are empty and the port holds zeros (log 1, 3, 4). -/
def State.reset : State :=
  { q := Vector.replicate 16 canonicalZero, err := false, errCode := .ok, errCmd := 0#32,
    maxIter := Config.maxIterReset, eti := Eti.reset, port := ⟨0#32, 0#130⟩, rsp := none,
    host := [], answered := [] }

end Sys2Proof.Machine
end

