-- ==== Sys2Proof/Machine/Operands.lean ====
section
/-! DEFINITION. Operand forms: sign codes, packing of a fixed-point value, the literal check of `QLD`, the parts of
`wdata` a command reads, and CSR numbers (10_state.md R22, R24, R29; 20_memory.md R65). -/

namespace Sys2Proof.Machine

/-- The 2-bit code of a sign, two's complement of its value (R22). -/
def signCode : Sign → BitVec 2
  | .negative => 0b11#2
  | .neutral => 0b00#2
  | .positive => 0b01#2

/-- The sign a 2-bit code stands for; `0b10` is reserved (R22). -/
def signOfCode (c : BitVec 2) : Option Sign :=
  match c with
  | 0b11#2 => some .negative
  | 0b00#2 => some .neutral
  | 0b01#2 => some .positive
  | _ => none

/-- `pack(v)`: bits 129:128 the sign code, 127:64 `high`, 63:0 `low` (R24). -/
def pack (v : Q) : DataWord :=
  signCode v.sign ++ v.high ++ v.low

/-- The literal in a data word if it packs a canonical value, none where `QLD` raises `INVALID_LITERAL`
(the three tests of R124, in its order). -/
def literal (w : DataWord) : Option Q :=
  let s := w.extractLsb' 128 2
  let h := w.extractLsb' 64 64
  let l := w.extractLsb' 0 64
  match signOfCode s with
  | none => none
  | some sign =>
    if h = 0 ∧ l = 0 ∧ s ≠ 0b00#2 then none
    else if (h ≠ 0 ∨ l ≠ 0) ∧ s = 0b00#2 then none
    else some ⟨sign, h, l⟩

/-- `wdata[63:0]`, the binary64 operand of `F64TOQ` (R164). -/
def wdata64 (w : DataWord) : BitVec 64 := w.extractLsb' 0 64

/-- `wdata[31:0]`, the binary32 operand of `F32TOQ` and the value `CSRW` writes (R165, R231). -/
def wdata32 (w : DataWord) : BitVec 32 := w.extractLsb' 0 32

/-- The register a CSR number names (the table of R29); every other number is undefined. -/
def csrOfNumber (n : CsrNum) : Option Csr :=
  match n with
  | 0x000#12 => some .status
  | 0x001#12 => some .errCmd
  | 0x002#12 => some .maxIter
  | 0x010#12 => some .itStat
  | 0x011#12 => some .itI
  | 0x012#12 => some .itIsw
  | 0x013#12 => some .itRes
  | 0x014#12 => some .itXf
  | 0x015#12 => some .itYf
  | 0x016#12 => some .itCxf
  | 0x017#12 => some .itCyf
  | 0x018#12 => some .itXq
  | 0x019#12 => some .itYq
  | 0x01A#12 => some .itCxq
  | 0x01B#12 => some .itCyq
  | _ => none

end Sys2Proof.Machine
end

