-- ==== Sys2Proof/Machine/Flags.lean ====
section
/-! DEFINITION. Status words and result codes. The unit has no condition codes and no arithmetic flags (10_state.md
R28); its only status bits are the error record and `IT_STAT`, and `QCMP` answers its result as data. -/

namespace Sys2Proof.Machine

/-- The 4-bit code of an outcome (R250). -/
def ErrCode.code : ErrCode → BitVec 4
  | .ok => 0#4
  | .illegalCommand => 1#4
  | .illegalCsr => 2#4
  | .invalidLiteral => 3#4

/-- `STATUS`: bit 0 `ERR`, bits 3:1 zero, bits 7:4 `ERRCODE` (R30). -/
def statusWord (err : Bool) (code : ErrCode) : BitVec 8 :=
  code.code ++ 0#3 ++ BitVec.ofBool err

/-- `PHASE` in two bits (R33). -/
def Phase.code : Phase → BitVec 2
  | .idle => 0b00#2
  | .fixed => 0b01#2
  | .float => 0b10#2
  | .done => 0b11#2

/-- `IT_STAT`: bits 1:0 `PHASE`, bit 2 `CAPPED` (R33). -/
def itStatWord (phase : Phase) (capped : Bool) : BitVec 3 :=
  BitVec.ofBool capped ++ phase.code

/-- The 2-bit code of a comparison: Less `0b11`, Equal `0b00`, Greater `0b01` (R139). -/
def orderCode : Ordering → BitVec 2
  | .lt => 0b11#2
  | .eq => 0b00#2
  | .gt => 0b01#2

end Sys2Proof.Machine
end

