-- ==== Sys2Proof/Machine/Ops.lean ====
section
/-! DEFINITION. The named operations over the state: reading and writing a `q` register and a CSR, completing a
command, raising a fault (R253), and the host's moves (R64, R66, R67, R290). There is no memory (R60), and there is no
return from a fault, because a fault enters no handler (R232, R254). -/

namespace Sys2Proof.Machine

/-- `q[r]` (R8). -/
def State.readQ (s : State) (r : Reg) : Q :=
  s.q[r]

/-- `q[r] <- v`: the whole value is replaced (R8, R25). -/
def State.writeQ (s : State) (r : Reg) (v : Q) : State :=
  { s with q := s.q.set r v }

/-- The iterator's registers are replaced (R191, R200). -/
def State.setEti (s : State) (e : Eti) : State :=
  { s with eti := e }

/-- `csr.MAXITER <- v` (R32, R231). -/
def State.setMaxIter (s : State) (v : BitVec 32) : State :=
  { s with maxIter := v }

/-- The command completes: `err = 0`, `rdata` as its rule says (R12, R63). -/
def State.complete (s : State) (rdata : DataWord) : State :=
  { s with rsp := some ⟨.ok, rdata⟩ }

/-- `raise code`: the one way to take a fault. It answers the code with `rdata = 0`; the error record takes the code
and the command word if it holds no fault yet; nothing else changes (R253, R30, R31). -/
def State.raise (s : State) (code : ErrCode) : State :=
  { s with
    err := true
    errCode := if s.err then s.errCode else code
    errCmd := if s.err then s.errCmd else s.port.cmd
    rsp := some ⟨code, 0#130⟩ }

/-- The value of a CSR, zero-extended to 130 bits; a read changes nothing (R29, R230). -/
def State.readCsr (s : State) : Csr → DataWord
  | .status => (statusWord s.err s.errCode).setWidth 130
  | .errCmd => s.errCmd.setWidth 130
  | .maxIter => s.maxIter.setWidth 130
  | .itStat => (itStatWord s.eti.phase s.eti.capped).setWidth 130
  | .itI => s.eti.i.setWidth 130
  | .itIsw => s.eti.isw.setWidth 130
  | .itRes => s.eti.res.setWidth 130
  | .itXf => s.eti.xf.setWidth 130
  | .itYf => s.eti.yf.setWidth 130
  | .itCxf => s.eti.cxf.setWidth 130
  | .itCyf => s.eti.cyf.setWidth 130
  | .itXq => pack s.eti.xq
  | .itYq => pack s.eti.yq
  | .itCxq => pack s.eti.cxq
  | .itCyq => pack s.eti.cyq

/-- `csr.NAME <- wdata`, none for a read-only register: `MAXITER` is the only writable one (R29, R231). -/
def State.writeCsr (s : State) (c : Csr) (wdata : DataWord) : Option State :=
  match c with
  | .maxIter => some (s.setMaxIter (wdata32 wdata))
  | _ => none

/-- The response handshake: the host takes the response offered, if any (R64). `rest` is what the host does next. -/
def State.giveResponse (s : State) (rest : List HostMove) : State :=
  { s with rsp := none, answered := s.answered ++ s.rsp.toList, host := rest }

/-- The command handshake: the unit samples the command and its data. A response still outstanding is taken by the
host first, since only then is `cmd_ready = 1` (R64, R66). -/
def State.accept (s : State) (cmd : CmdWord) (wdata : DataWord) (rest : List HostMove) : State :=
  { s.giveResponse rest with port := ⟨cmd, wdata⟩ }

/-- `rst` is asserted and released: the state is the reset state and a response not yet taken is lost (R67, R290,
R291). The host keeps its own list of moves and of responses taken. -/
def State.assertReset (s : State) (rest : List HostMove) : State :=
  { State.reset with host := rest, answered := s.answered }

end Sys2Proof.Machine
end

