-- ==== Sys2Proof/Machine/Fixed.lean ====
section
/-! DEFINITION. The value-level functions of the fixed-point unit (40_fixed_arith.md R120, R121, R131, R133, R135,
R137, R139). Magnitudes are computed as exact integers and reduced modulo `2^128` by `canon`. -/

namespace Sys2Proof.Machine

/-- `QZERO_V` (R120). -/
def qzeroV : Q := ⟨.neutral, 0#64, 0#64⟩

/-- `QONE_V`, the value 1 (R120). -/
def qoneV : Q := ⟨.positive, 0x0100000000000000#64, 0#64⟩

/-- `canon(s, m)`: magnitude `m mod 2^128`, sign Neutral if that is 0 (R121). -/
def canon (s : Sign) (m : Nat) : Q :=
  let m' := m % 2 ^ 128
  if m' = 0 then qzeroV else ⟨s, BitVec.ofNat 64 (m' / 2 ^ 64), BitVec.ofNat 64 m'⟩

/-- Negation of a sign (R22). -/
def negSign : Sign → Sign
  | .negative => .positive
  | .neutral => .neutral
  | .positive => .negative

/-- `qneg(a)` (R131). -/
def qneg (a : Q) : Q :=
  { a with sign := negSign a.sign }

/-- `qadd(a, b)` (R133). The two differences lie between 1 and `2^128 - 1`, where `canon` changes nothing. -/
def qadd (a b : Q) : Q :=
  if a = qzeroV then b
  else if b = qzeroV then a
  else if a.sign = b.sign then canon a.sign (a.mag + b.mag)
  else if a.mag = b.mag then qzeroV
  else if a.mag > b.mag then canon a.sign (a.mag - b.mag)
  else canon b.sign (b.mag - a.mag)

/-- `qsub(a, b)` (R135). -/
def qsub (a b : Q) : Q :=
  qadd a (qneg b)

/-- `qmul(a, b)`: bits 247:120 of the exact 256-bit product (R137). -/
def qmul (a b : Q) : Q :=
  if a = qzeroV ∨ b = qzeroV then qzeroV
  else canon (if a.sign = b.sign then .positive else .negative) (a.mag * b.mag / 2 ^ 120)

/-- `qcmp(a, b)` (R139). -/
def qcmp (a b : Q) : Ordering :=
  if a.sign.sgn < b.sign.sgn then .lt
  else if b.sign.sgn < a.sign.sgn then .gt
  else if a.sign = .neutral then .eq
  else if a.mag = b.mag then .eq
  else if a.sign = .positive then (if a.mag < b.mag then .lt else .gt)
  else (if a.mag < b.mag then .gt else .lt)

end Sys2Proof.Machine
end

