-- ==== Sys2Proof/Machine/FixedArith.lean ====
section
/-! DEFINITION. The meanings of the fixed-point commands (40_fixed_arith.md): constants, move, load, store, negate,
add, subtract, multiply, compare. Sources are read before the destination is written (R26). -/

namespace Sys2Proof.Machine

/-- What every step of the unit answers. -/
abbrev Result := Host.Outcome State Fault Refusal

/-- `QZERO rd` (R122). -/
def execQzero (rd : Reg) (s : State) : Result :=
  .next ((s.writeQ rd qzeroV).complete 0#130)

/-- `QONE rd` (R123). -/
def execQone (rd : Reg) (s : State) : Result :=
  .next ((s.writeQ rd qoneV).complete 0#130)

/-- `QLD rd`: a non-canonical literal raises `INVALID_LITERAL` and writes nothing (R124, R252). -/
def execQld (rd : Reg) (s : State) : Result :=
  match literal s.port.wdata with
  | some v => .next ((s.writeQ rd v).complete 0#130)
  | none => .next (s.raise .invalidLiteral)

/-- `QST ra` (R125). -/
def execQst (ra : Reg) (s : State) : Result :=
  .next (s.complete (pack (s.readQ ra)))

/-- `QMOV rd, ra` (R126). -/
def execQmov (rd ra : Reg) (s : State) : Result :=
  .next ((s.writeQ rd (s.readQ ra)).complete 0#130)

/-- `QNEG rd, ra` (R132). -/
def execQneg (rd ra : Reg) (s : State) : Result :=
  .next ((s.writeQ rd (qneg (s.readQ ra))).complete 0#130)

/-- `QADD rd, ra, rb` (R134). -/
def execQadd (rd ra rb : Reg) (s : State) : Result :=
  .next ((s.writeQ rd (qadd (s.readQ ra) (s.readQ rb))).complete 0#130)

/-- `QSUB rd, ra, rb` (R136). -/
def execQsub (rd ra rb : Reg) (s : State) : Result :=
  .next ((s.writeQ rd (qsub (s.readQ ra) (s.readQ rb))).complete 0#130)

/-- `QMUL rd, ra, rb` (R138). -/
def execQmul (rd ra rb : Reg) (s : State) : Result :=
  .next ((s.writeQ rd (qmul (s.readQ ra) (s.readQ rb))).complete 0#130)

/-- `QCMP ra, rb`: the result is in `rdata[1:0]` (R140). -/
def execQcmp (ra rb : Reg) (s : State) : Result :=
  .next (s.complete ((orderCode (qcmp (s.readQ ra) (s.readQ rb))).setWidth 130))

end Sys2Proof.Machine
end

