-- ==== Sys2Proof/Machine/Float.lean ====
section
/-! DEFINITION. IEEE 754 binary64 and binary32 arithmetic on bit patterns, rounded to nearest, ties to even
(41_convert.md R160, R161; 00_scope.md R9). A pattern is a natural number; every operation computes the exact result
and rounds it once. What the spec leaves to "IEEE 754" is PRESUMED from the standard (log 9). -/

namespace Sys2Proof.Machine

/-- A float format: `p` fraction bits and `w` exponent bits (R160). -/
structure FloatFmt where
  p : Nat
  w : Nat
deriving DecidableEq, Repr

/-- binary64: `p = 52`, `w = 11` (R160). -/
def binary64 : FloatFmt := ⟨52, 11⟩

/-- binary32: `p = 23`, `w = 8` (R160). -/
def binary32 : FloatFmt := ⟨23, 8⟩

/-- The bias `B`: 1023 and 127 (R160). -/
def FloatFmt.bias (f : FloatFmt) : Nat := 2 ^ (f.w - 1) - 1

/-- The exponent of the last place of a subnormal, `1 - B - p` (R160, R161). -/
def FloatFmt.eMin (f : FloatFmt) : Int := 1 - (f.bias : Int) - (f.p : Int)

/-- The pattern of +infinity: exponent all ones, fraction 0 (R160). -/
def FloatFmt.infPattern (f : FloatFmt) : Nat := (2 ^ f.w - 1) * 2 ^ f.p

/-- The weight of the sign bit. -/
def FloatFmt.signWeight (f : FloatFmt) : Nat := 2 ^ (f.w + f.p)

/-- The fraction field `F` (R161). -/
def FloatFmt.fracField (f : FloatFmt) (bits : Nat) : Nat := bits % 2 ^ f.p

/-- The exponent field `E` (R161). -/
def FloatFmt.expField (f : FloatFmt) (bits : Nat) : Nat := bits / 2 ^ f.p % 2 ^ f.w

/-- The sign bit `S` (R161). -/
def FloatFmt.signBit (f : FloatFmt) (bits : Nat) : Bool := bits / 2 ^ (f.p + f.w) % 2 == 1

/-- `decomp(bits) = (S, m, e)`; the all-ones exponent is not singled out (R161). -/
def decomp (f : FloatFmt) (bits : Nat) : Bool × Nat × Int :=
  let frac := f.fracField bits
  let expo := f.expField bits
  if expo = 0 then (f.signBit bits, frac, f.eMin)
  else (f.signBit bits, frac + 2 ^ f.p, (expo : Int) - (f.bias : Int) - (f.p : Int))

/-- What a pattern stands for; `finite neg m e` is `(-1)^neg * m * 2^e` (R160). -/
inductive FloatVal where
  | nan
  | infinite (neg : Bool)
  | finite (neg : Bool) (m : Nat) (e : Int)
deriving DecidableEq, Repr

/-- The value of a bit pattern (R160). -/
def floatVal (f : FloatFmt) (bits : Nat) : FloatVal :=
  if f.expField bits = 2 ^ f.w - 1 then
    if f.fracField bits = 0 then .infinite (f.signBit bits) else .nan
  else
    let (s, m, e) := decomp f bits
    .finite s m e

/-- A pattern is a NaN (R160). -/
def isNan (f : FloatFmt) (bits : Nat) : Bool :=
  floatVal f bits == .nan

/-- The sign bit of a pattern, in place. -/
def withSign (f : FloatFmt) (neg : Bool) (pattern : Nat) : Nat :=
  if neg then f.signWeight + pattern else pattern

/-- `m / 2^k` rounded to the nearest integer, ties to even (D15). -/
def roundShift (m k : Nat) : Nat :=
  let q := m / 2 ^ k
  let r := m % 2 ^ k
  if 2 * r > 2 ^ k ∨ (2 * r = 2 ^ k ∧ q % 2 = 1) then q + 1 else q

/-- The pattern nearest to `m * 2^e`, ties to even (R160, D15). `lsb` is the exponent of the result's last place; a
significand that rounds up to `2^(p+1)` carries into the exponent field, and what lies beyond the largest finite value
becomes infinity. -/
def roundPattern (f : FloatFmt) (m : Nat) (e : Int) : Nat :=
  if m = 0 then 0
  else
    let lsb := max (e + (Nat.log2 m : Int) - (f.p : Int)) f.eMin
    let significand :=
      if lsb ≤ e then m * 2 ^ (e - lsb).toNat else roundShift m (lsb - e).toNat
    min ((lsb - f.eMin).toNat * 2 ^ f.p + significand) f.infPattern

/-- Some NaN pattern: its sign and payload are free, and it is a NaN (D15, U6). Log 8. -/
def nanPattern (f : FloatFmt) (raw : Nat) : Nat :=
  let payload := f.fracField raw
  withSign f (f.signBit raw) (f.infPattern + (if payload = 0 then 1 else payload))

/-- The negation of a float value (for `a - b = a + (-b)`). -/
def FloatVal.neg : FloatVal → FloatVal
  | .nan => .nan
  | .infinite s => .infinite (!s)
  | .finite s m e => .finite (!s) m e

/-- A signed significand. -/
def signedInt (neg : Bool) (m : Nat) : Int :=
  if neg then -(m : Int) else (m : Int)

/-- The exact sum of two finite values, over the smaller exponent. -/
def exactSum (s1 : Bool) (m1 : Nat) (e1 : Int) (s2 : Bool) (m2 : Nat) (e2 : Int) : Int × Int :=
  let e := min e1 e2
  (signedInt s1 (m1 * 2 ^ (e1 - e).toNat) + signedInt s2 (m2 * 2 ^ (e2 - e).toNat), e)

/-- The sum of two values as a pattern, none where it is a NaN. An exact zero sum is `-0` only when both operands are
negative zeros. -/
def addVal (f : FloatFmt) (a b : FloatVal) : Option Nat :=
  match a, b with
  | .nan, _ => none
  | _, .nan => none
  | .infinite s1, .infinite s2 => if s1 = s2 then some (withSign f s1 f.infPattern) else none
  | .infinite s, .finite _ _ _ => some (withSign f s f.infPattern)
  | .finite _ _ _, .infinite s => some (withSign f s f.infPattern)
  | .finite s1 m1 e1, .finite s2 m2 e2 =>
    let (sum, e) := exactSum s1 m1 e1 s2 m2 e2
    if sum = 0 then some (withSign f (m1 == 0 && s1 && s2) 0)
    else some (withSign f (decide (sum < 0)) (roundPattern f sum.natAbs e))

/-- The product of two values as a pattern, none where it is a NaN. -/
def mulVal (f : FloatFmt) (a b : FloatVal) : Option Nat :=
  match a, b with
  | .nan, _ => none
  | _, .nan => none
  | .infinite s1, .infinite s2 => some (withSign f (s1 != s2) f.infPattern)
  | .infinite s1, .finite s2 m _ => if m = 0 then none else some (withSign f (s1 != s2) f.infPattern)
  | .finite s1 m _, .infinite s2 => if m = 0 then none else some (withSign f (s1 != s2) f.infPattern)
  | .finite s1 m1 e1, .finite s2 m2 e2 =>
    some (withSign f (s1 != s2) (roundPattern f (m1 * m2) (e1 + e2)))

/-- The quotient of two positive significands with `k` extra bits, its last bit set if the division is inexact: enough
bits for one correct rounding. -/
def quotientWithSticky (m1 m2 k : Nat) : Nat :=
  2 * (m1 * 2 ^ k / m2) + (if m1 * 2 ^ k % m2 = 0 then 0 else 1)

/-- The quotient of two values as a pattern, none where it is a NaN. -/
def divVal (f : FloatFmt) (a b : FloatVal) : Option Nat :=
  match a, b with
  | .nan, _ => none
  | _, .nan => none
  | .infinite _, .infinite _ => none
  | .infinite s1, .finite s2 _ _ => some (withSign f (s1 != s2) f.infPattern)
  | .finite s1 _ _, .infinite s2 => some (withSign f (s1 != s2) 0)
  | .finite s1 m1 e1, .finite s2 m2 e2 =>
    if m2 = 0 then
      if m1 = 0 then none else some (withSign f (s1 != s2) f.infPattern)
    else
      let k := f.p + 3 + Nat.log2 m2
      some (withSign f (s1 != s2) (roundPattern f (quotientWithSticky m1 m2 k) (e1 - e2 - (k : Int) - 1)))

/-- `fadd` in a format (R9). -/
def faddIn (f : FloatFmt) (a b : Nat) : Nat :=
  (addVal f (floatVal f a) (floatVal f b)).getD (nanPattern f (Config.nanRaw .add a b))

/-- `fsub` in a format (R9). -/
def fsubIn (f : FloatFmt) (a b : Nat) : Nat :=
  (addVal f (floatVal f a) (floatVal f b).neg).getD (nanPattern f (Config.nanRaw .sub a b))

/-- `fmul` in a format (R9). -/
def fmulIn (f : FloatFmt) (a b : Nat) : Nat :=
  (mulVal f (floatVal f a) (floatVal f b)).getD (nanPattern f (Config.nanRaw .mul a b))

/-- `fdiv` in a format (R9). -/
def fdivIn (f : FloatFmt) (a b : Nat) : Nat :=
  (divVal f (floatVal f a) (floatVal f b)).getD (nanPattern f (Config.nanRaw .div a b))

/-- `u2f` in a format: an unsigned integer, rounded to nearest even (R9, R166). -/
def u2fIn (f : FloatFmt) (n : Nat) : Nat :=
  roundPattern f n 0

/-- The order `a <= b` of two values, false if either is a NaN; `-0 = +0` (R9 `fle`). -/
def leVal (a b : FloatVal) : Bool :=
  match a, b with
  | .nan, _ => false
  | _, .nan => false
  | .infinite s1, .infinite s2 => s1 || !s2
  | .infinite s1, .finite _ _ _ => s1
  | .finite _ _ _, .infinite s2 => !s2
  | .finite s1 m1 e1, .finite s2 m2 e2 => decide ((exactSum s1 m1 e1 (!s2) m2 e2).1 ≤ 0)

/-- `fadd` of R9. -/
def fadd (a b : BitVec 64) : BitVec 64 := BitVec.ofNat 64 (faddIn binary64 a.toNat b.toNat)

/-- `fsub` of R9. -/
def fsub (a b : BitVec 64) : BitVec 64 := BitVec.ofNat 64 (fsubIn binary64 a.toNat b.toNat)

/-- `fmul` of R9. -/
def fmul (a b : BitVec 64) : BitVec 64 := BitVec.ofNat 64 (fmulIn binary64 a.toNat b.toNat)

/-- `fdiv` of R9. -/
def fdiv (a b : BitVec 64) : BitVec 64 := BitVec.ofNat 64 (fdivIn binary64 a.toNat b.toNat)

/-- `fle` of R9. -/
def fle (a b : BitVec 64) : Bool := leVal (floatVal binary64 a.toNat) (floatVal binary64 b.toNat)

/-- `u2f64` of R9. -/
def u2f64 (n : Nat) : BitVec 64 := BitVec.ofNat 64 (u2fIn binary64 n)

end Sys2Proof.Machine
end

