-- ==== Sys2Proof/Machine/Convert.lean ====
section
/-! DEFINITION. The conversions and the meanings of the conversion commands (41_convert.md). None of them faults
(R172, R257). -/

namespace Sys2Proof.Machine

/-- `word(m, sh)`: a right shift by `sh`, a left shift if `sh` is negative, in a 64-bit register; 0 when the amount
is 64 or more in magnitude (R162; 90_conflicts.md C4). -/
def shiftWord (m : Nat) (sh : Int) : Nat :=
  if sh ≥ 64 ∨ sh ≤ -64 then 0
  else if sh ≥ 0 then m / 2 ^ sh.toNat
  else m * 2 ^ (-sh).toNat % 2 ^ 64

/-- `ftoq(bits)` for a float format (R163). -/
def ftoq (f : FloatFmt) (bits : Nat) : Q :=
  let (neg, m, e) := decomp f bits
  let high := shiftWord m (8 - 64 - e)
  let low := shiftWord m (8 - 128 - e)
  if high = 0 ∧ low = 0 then qzeroV
  else ⟨if neg then .negative else .positive, BitVec.ofNat 64 high, BitVec.ofNat 64 low⟩

/-- The pattern of `2^k`, a normal number of the format. -/
def pow2Pattern (f : FloatFmt) (k : Int) : Nat :=
  ((f.bias : Int) + k).toNat * 2 ^ f.p

/-- `sg` of R166: -1.0, +0.0, +1.0. -/
def signPattern (f : FloatFmt) : Sign → Nat
  | .negative => withSign f true (pow2Pattern f 0)
  | .neutral => 0
  | .positive => pow2Pattern f 0

/-- `qtof_T(a)`: both words converted, scaled, added and multiplied by the sign, each step rounded (R166, D16). -/
def qtof (f : FloatFmt) (a : Q) : Nat :=
  let th := fmulIn f (u2fIn f a.high.toNat) (pow2Pattern f (-56))
  let tl := fmulIn f (u2fIn f a.low.toNat) (pow2Pattern f (-120))
  fmulIn f (signPattern f a.sign) (faddIn f th tl)

/-- `qtof_binary64(a)` as a pattern (R166). -/
def qtof64 (a : Q) : BitVec 64 := BitVec.ofNat 64 (qtof binary64 a)

/-- `qtof_binary32(a)` as a pattern, all steps in binary32 (R166, R168). -/
def qtof32 (a : Q) : BitVec 32 := BitVec.ofNat 32 (qtof binary32 a)

/-- `qtoi8(a)`: the integer part, negated in 8 bits for a Negative value (R169). -/
def qtoi8 (a : Q) : BitVec 8 :=
  let t := a.high.extractLsb' 56 8
  if a.sign = .negative then -t else t

/-- `F64TOQ rd` (R164). -/
def execF64toq (rd : Reg) (s : State) : Result :=
  .next ((s.writeQ rd (ftoq binary64 (wdata64 s.port.wdata).toNat)).complete 0#130)

/-- `F32TOQ rd` (R165). -/
def execF32toq (rd : Reg) (s : State) : Result :=
  .next ((s.writeQ rd (ftoq binary32 (wdata32 s.port.wdata).toNat)).complete 0#130)

/-- `QTOF64 ra`: the result is in `rdata[63:0]` (R167). -/
def execQtof64 (ra : Reg) (s : State) : Result :=
  .next (s.complete ((qtof64 (s.readQ ra)).setWidth 130))

/-- `QTOF32 ra`: the result is in `rdata[31:0]` (R168). -/
def execQtof32 (ra : Reg) (s : State) : Result :=
  .next (s.complete ((qtof32 (s.readQ ra)).setWidth 130))

/-- `QTOI8 ra`: the result is in `rdata[7:0]`, not sign-extended (R170). -/
def execQtoi8 (ra : Reg) (s : State) : Result :=
  .next (s.complete ((qtoi8 (s.readQ ra)).setWidth 130))

end Sys2Proof.Machine
end

