-- ==== Sys2Proof/Machine/Iterator.lean ====
section
/-! DEFINITION. The escape-time iterator and the meaning of `ITER` (42_iterator.md). -/

namespace Sys2Proof.Machine

/-- `65536.0` (R197). -/
def f65536 : BitVec 64 := 0x40F0000000000000#64

/-- `2.0` (R197). -/
def fTwo : BitVec 64 := 0x4000000000000000#64

/-- `1.0` (R197). -/
def fOne : BitVec 64 := 0x3FF0000000000000#64

/-- `LN2`, the binary64 nearest to ln 2; a constant, not `LN64(2.0)` (R197). -/
def fLn2 : BitVec 64 := 0x3FE62E42FEFA39EF#64

/-- Start: the orbit begins at `z0 = 0` with `i = 0` (R192). -/
def etiStart (e : Eti) (cx cy : Q) : Eti :=
  { e with cxq := cx, cyq := cy, xq := qzeroV, yq := qzeroV, i := 0#32, phase := .fixed }

/-- The fixed phase goes on: below the cap and `|z|^2 <= 1` (R193). -/
def fixedContinues (cap : BitVec 32) (e : Eti) : Bool :=
  decide (e.i < cap) && qcmp (qadd (qmul e.xq e.xq) (qmul e.yq e.yq)) qoneV != .gt

/-- One fixed-phase update: `x' = (xx - yy) + cx`, `y' = (xy + xy) + cy`, both from the old pair (R193). -/
def fixedStep (e : Eti) : Eti :=
  let xx := qmul e.xq e.xq
  let yy := qmul e.yq e.yq
  let xy := qmul e.xq e.yq
  { e with xq := qadd (qsub xx yy) e.cxq, yq := qadd (qadd xy xy) e.cyq, i := e.i + 1#32 }

/-- Phase switch: `x`, `y` and `c` are converted to binary64; `xq`, `yq` and `i` stay (R194). -/
def etiSwitch (e : Eti) : Eti :=
  { e with
    isw := e.i, xf := qtof64 e.xq, yf := qtof64 e.yq, cxf := qtof64 e.cxq, cyf := qtof64 e.cyq
    phase := .float }

/-- `xf*xf + yf*yf` as the float phase computes it (R195, R198). -/
def floatNorm (e : Eti) : BitVec 64 :=
  fadd (fmul e.xf e.xf) (fmul e.yf e.yf)

/-- The float phase goes on: below the cap and `x^2 + y^2 <= 65536`; a NaN leaves (R195). -/
def floatContinues (cap : BitVec 32) (e : Eti) : Bool :=
  decide (e.i < cap) && fle (floatNorm e) f65536

/-- One float-phase update: `x' = (x*x - y*y) + cx`, `y' = ((2*x)*y) + cy`, from the old pair (R195). -/
def floatStep (e : Eti) : Eti :=
  { e with
    xf := fadd (fsub (fmul e.xf e.xf) (fmul e.yf e.yf)) e.cxf
    yf := fadd (fmul (fmul fTwo e.xf) e.yf) e.cyf
    i := e.i + 1#32 }

/-- Smooth colouring `i + 1 - nu` (R198); `Config.ln64` is the open logarithm. -/
def smooth (e : Eti) : BitVec 64 :=
  let logZn := fdiv (Config.ln64 (floatNorm e)) fTwo
  let nu := fdiv (Config.ln64 (fdiv logZn fLn2)) fLn2
  fsub (fadd (u2f64 e.i.toNat) fOne) nu

/-- Finish: the cap wins over the escape (R199). -/
def etiFinish (cap : BitVec 32) (e : Eti) : Eti :=
  if e.i ≥ cap then { e with res := u2f64 cap.toNat, capped := true, phase := .done }
  else { e with res := smooth e, capped := false, phase := .done }

/-- Updates repeated while `continues` holds, at most `fuel` of them; `fuel` bounds the recursion and `MAXITER` of it is
enough, since each update counts `i` up to the cap (R204). -/
def repeatWhile (continues : Eti → Bool) (update : Eti → Eti) : Nat → Eti → Eti
  | 0, e => e
  | fuel + 1, e => if continues e then repeatWhile continues update fuel (update e) else e

/-- The fixed phase, run until it leaves (R193). -/
def fixedPhase (cap : BitVec 32) (e : Eti) : Eti :=
  repeatWhile (fixedContinues cap) fixedStep cap.toNat e

/-- The float phase, run until it leaves (R195). -/
def floatPhase (cap : BitVec 32) (e : Eti) : Eti :=
  repeatWhile (floatContinues cap) floatStep cap.toNat e

/-- The whole bounded loop: R192, R193 until it leaves, R194, R195 until it leaves, R199 (R200). -/
def iterate (cap : BitVec 32) (e : Eti) (cx cy : Q) : Eti :=
  etiFinish cap (floatPhase cap (etiSwitch (fixedPhase cap (etiStart e cx cy))))

/-- One transition of the iterator as a state machine (R201). `ITER` runs the loops above; that they are the closure of
these transitions is a statement about the model. -/
def etiTransition (cap : BitVec 32) (e : Eti) : Eti :=
  match e.phase with
  | .idle => e
  | .fixed => if fixedContinues cap e then fixedStep e else etiSwitch e
  | .float => if floatContinues cap e then floatStep e else etiFinish cap e
  | .done => e

/-- What `ITER` answers: `rdata[63:0]` the result, `rdata[64]` `CAPPED` (R200). -/
def iterData (e : Eti) : DataWord :=
  (BitVec.ofBool e.capped ++ e.res).setWidth 130

/-- `ITER ra, rb` (R200): one step, atomic to the host (R191); it writes no `q` register. -/
def execIter (ra rb : Reg) (s : State) : Result :=
  let e := iterate s.maxIter s.eti (s.readQ ra) (s.readQ rb)
  .next ((s.setEti e).complete (iterData e))

end Sys2Proof.Machine
end

