-- ==== Sys2Proof/Machine/System.lean ====
section
/-! DEFINITION. The meanings of the system commands (43_system.md). There are no others (R232), one privilege level and
no mode to check (60_exceptions.md R259). -/

namespace Sys2Proof.Machine

/-- `CSRR csr`: an undefined number raises `ILLEGAL_CSR` (R230, R251). -/
def execCsrr (csr : CsrNum) (s : State) : Result :=
  match csrOfNumber csr with
  | some c => .next (s.complete (s.readCsr c))
  | none => .next (s.raise .illegalCsr)

/-- `CSRW csr`: an undefined number and a read-only register raise `ILLEGAL_CSR` (R231, R251). -/
def execCsrw (csr : CsrNum) (s : State) : Result :=
  match csrOfNumber csr with
  | some c =>
    match s.writeCsr c s.port.wdata with
    | some t => .next (t.complete 0#130)
    | none => .next (s.raise .illegalCsr)
  | none => .next (s.raise .illegalCsr)

end Sys2Proof.Machine
end

