-- ==== Sys2Proof/Machine/Dispatch.lean ====
section
/-! DEFINITION. One arm per command: a direct call of its meaning. -/

namespace Sys2Proof.Machine

def exec (i : Instr) (s : State) : Host.Outcome State Fault Refusal :=
  match i with
  | .qzero rd => Sys2Proof.Machine.execQzero rd s
  | .qone rd => Sys2Proof.Machine.execQone rd s
  | .qld rd => Sys2Proof.Machine.execQld rd s
  | .qst ra => Sys2Proof.Machine.execQst ra s
  | .qmov rd ra => Sys2Proof.Machine.execQmov rd ra s
  | .qneg rd ra => Sys2Proof.Machine.execQneg rd ra s
  | .qadd rd ra rb => Sys2Proof.Machine.execQadd rd ra rb s
  | .qsub rd ra rb => Sys2Proof.Machine.execQsub rd ra rb s
  | .qmul rd ra rb => Sys2Proof.Machine.execQmul rd ra rb s
  | .qcmp ra rb => Sys2Proof.Machine.execQcmp ra rb s
  | .f64toq rd => Sys2Proof.Machine.execF64toq rd s
  | .f32toq rd => Sys2Proof.Machine.execF32toq rd s
  | .qtof64 ra => Sys2Proof.Machine.execQtof64 ra s
  | .qtof32 ra => Sys2Proof.Machine.execQtof32 ra s
  | .qtoi8 ra => Sys2Proof.Machine.execQtoi8 ra s
  | .iter ra rb => Sys2Proof.Machine.execIter ra rb s
  | .csrr csr => Sys2Proof.Machine.execCsrr csr s
  | .csrw csr => Sys2Proof.Machine.execCsrw csr s

end Sys2Proof.Machine
end

