-- ==== Sys2Proof/Machine/Step.lean ====
section
/-! DEFINITION. One step of the unit: the host's next move (00_scope.md R11; 20_memory.md R63 to R67). -/

namespace Sys2Proof.Machine

/-- A step. With no move pending the unit does nothing (R11; log 2). A command is taken, decoded and run to its
response; a word that does not decode raises `ILLEGAL_COMMAND` (R96, R255). -/
def step (s : State) : Host.Outcome State Fault Refusal :=
  match s.host with
  | [] => .next s
  | .reset :: rest => .next (s.assertReset rest)
  | .takeResponse :: rest => .next (s.giveResponse rest)
  | .command cmd wdata :: rest =>
    match decode cmd with
    | .instr i => exec i (s.accept cmd wdata rest)
    | .illegal _ => .next ((s.accept cmd wdata rest).raise .illegalCommand)

/-- The opcode table's word `w` placed as the host's next command; the data word offered with it is the one the port
holds (0 after reset). Log 5. -/
def State.withFetchWord (s : State) (nbits w : Nat) : State :=
  { s with host := .command (tableWord nbits w) s.port.wdata :: s.host }

end Sys2Proof.Machine
end

