-- ==== Sys2Proof/Safety.lean ====
section
/-! DEFINITION. What a state in good order is, in the terms claims use. -/

namespace Sys2Proof.Machine

/-- Every register of type `Q` holds a canonical value (R23). -/
def State.CanonicalRegs (s : State) : Prop :=
  (∀ r : Reg, (s.readQ r).canonical = true) ∧
  s.eti.cxq.canonical = true ∧ s.eti.cyq.canonical = true ∧
  s.eti.xq.canonical = true ∧ s.eti.yq.canonical = true

/-- The error record agrees with itself: no code and no command word without a fault, a code with one (R30, R31). -/
def State.ErrorRecordOk (s : State) : Prop :=
  (s.err = false → s.errCode = .ok ∧ s.errCmd = 0#32) ∧ (s.err = true → s.errCode ≠ .ok)

/-- Between commands the iterator is IDLE or DONE (R33), and the switch came no later than the end (R34). -/
def State.EtiSettled (s : State) : Prop :=
  (s.eti.phase = .idle ∨ s.eti.phase = .done) ∧ s.eti.isw ≤ s.eti.i

/-- The invariant of every reachable state. -/
def State.Inv (s : State) : Prop :=
  s.CanonicalRegs ∧ s.ErrorRecordOk ∧ s.EtiSettled

end Sys2Proof.Machine
end

