-- ==== Sys2Proof/Certificates/Slice0/Obligations.lean ====
section
/-! DEFINITION. The statements about the model, from the numbered rules of the spec. There is no memory (20_memory.md R60),
no program counter (10_state.md R27) and no flag (R28), so a frame speaks of the `q` registers, the error record,
`MAXITER`, the iterator's registers and the port. -/

namespace Sys2Proof.Claims

open Sys2Proof.Machine

/-- The command answers the next state `t`, with `err = 0` and the read data `d`. -/
def CompletesWith (i : Instr) (s t : State) (d : DataWord) : Prop :=
  exec i s = .next t ∧ t.rsp = some ⟨.ok, d⟩

/-- Of all the state only the register `rd` and the response may differ. -/
def ChangesOnlyRegister (s t : State) (rd : Reg) : Prop :=
  (∀ r : Reg, r ≠ rd → t.readQ r = s.readQ r) ∧ t = { s with q := t.q, rsp := t.rsp }

/-- Of all the state only the response may differ. -/
def ChangesOnlyResponse (s t : State) : Prop :=
  t = { s with rsp := t.rsp }

/-- Of all the state only the iterator's registers and the response may differ. -/
def ChangesOnlyIterator (s t : State) : Prop :=
  t = { s with eti := t.eti, rsp := t.rsp }

/-- Canonical zero, written out (R120). -/
def zeroQ : Q := ⟨.neutral, 0#64, 0#64⟩

/-- The canonical value of `z` units of `2^-120` with its magnitude reduced modulo `2^128` (R10, R121). -/
def wrapUnits (z : Int) : Q :=
  let m := z.natAbs % 2 ^ 128
  if m = 0 then zeroQ
  else ⟨if z < 0 then .negative else .positive, BitVec.ofNat 64 (m / 2 ^ 64), BitVec.ofNat 64 m⟩

/-- The rational value a triple stands for, `sgn * (high * 2^-56 + low * 2^-120)` (R10). -/
def val (v : Q) : ℚ :=
  v.sign.sgn * (v.high.toNat / 2 ^ 56 + v.low.toNat / 2 ^ 120)

/-- Rounded toward zero to a multiple of `2^-120` (R142 `trunc_120`). -/
def truncToGrid (x : ℚ) : ℚ :=
  (if 0 ≤ x then ⌊x * 2 ^ 120⌋ else ⌈x * 2 ^ 120⌉ : Int) / 2 ^ 120

/-- `floor(m * 2^k)`. -/
def floorScale (m : Nat) (k : Int) : Nat :=
  if 0 ≤ k then m * 2 ^ k.toNat else m / 2 ^ (-k).toNat

/-- The significand and exponent of a pattern with `p` fraction bits and `w` exponent bits (R161). -/
def significand (p w bits : Nat) : Nat × Int :=
  let frac := bits % 2 ^ p
  let expo := bits / 2 ^ p % 2 ^ w
  let bias : Int := 2 ^ (w - 1) - 1
  if expo = 0 then (frac, 1 - bias - p) else (frac + 2 ^ p, expo - bias - p)

/-- The closed form of R163: magnitude `floor(m * 2^(e + 120)) mod 2^128` under the pattern's sign. -/
def fixedOfFloat (p w bits : Nat) : Q :=
  let units : Int := floorScale (significand p w bits).1 ((significand p w bits).2 + 120)
  wrapUnits (if bits / 2 ^ (p + w) % 2 = 1 then -units else units)

/-- `n` rounded to `prec` significant bits, to nearest, ties to even. -/
def roundBits (prec n : Nat) : Nat :=
  let k := Nat.log2 n + 1 - prec
  let q := n / 2 ^ k
  let r := n % 2 ^ k
  (if r * 2 < 2 ^ k ∨ (r * 2 = 2 ^ k ∧ q % 2 = 0) then q else q + 1) * 2 ^ k

/-- The units of `2^-120` a value becomes when its two words and their sum are each rounded to `prec` bits (R166). -/
def threeRoundings (prec : Nat) (a : Q) : Nat :=
  roundBits prec (roundBits prec a.high.toNat * 2 ^ 64 + roundBits prec a.low.toNat)

/-- The pattern is the normal number `(-1)^neg * units * 2^-120`, or `+0` if `units = 0`. -/
def PatternIsUnits (p w bits : Nat) (neg : Bool) (units : Nat) : Prop :=
  if units = 0 then bits = 0
  else
    let expo := bits / 2 ^ p % 2 ^ w
    bits / 2 ^ (p + w) = (if neg then 1 else 0) ∧ 0 < expo ∧ expo < 2 ^ w - 1 ∧
      (bits % 2 ^ p + 2 ^ p) * 2 ^ expo = units * 2 ^ (2 ^ (w - 1) - 1 + p - 120)

/-- The rational value of a finite non-negative pattern of a format (R160). -/
def patternValue (f : FloatFmt) (bits : Nat) : ℚ :=
  (significand f.p f.w bits).1 * (2 : ℚ) ^ (significand f.p f.w bits).2

/-- `bits` is `x >= 0` rounded to nearest, ties to even: infinity from half a unit in the last place above the
largest finite value on, else the nearest finite pattern, the even one of two that are equally near (R160). -/
def RoundedTo (f : FloatFmt) (x : ℚ) (bits : Nat) : Prop :=
  let limit : ℚ := (2 ^ (f.p + 2) - 1) * (2 : ℚ) ^ ((f.bias : Int) - f.p - 1)
  (limit ≤ x → bits = f.infPattern) ∧
  (x < limit → bits < f.infPattern ∧ ∀ b < f.infPattern,
    |x - patternValue f bits| ≤ |x - patternValue f b| ∧
    (b ≠ bits → |x - patternValue f bits| = |x - patternValue f b| → bits % 2 = 0))

/-- A binary64 pattern that is neither an infinity nor a NaN (R160). -/
def Finite64 (a : BitVec 64) : Prop :=
  a.toNat / 2 ^ 52 % 2 ^ 11 ≠ 2 ^ 11 - 1

/-- The value of a finite binary64 pattern. -/
def value64 (a : BitVec 64) : ℚ :=
  (if a.toNat / 2 ^ 63 = 1 then -1 else 1) * patternValue binary64 (a.toNat % 2 ^ 63)

/-- `+0` or `-0` as a binary64 pattern (R160). -/
def signedZero (neg : Bool) : BitVec 64 :=
  if neg then 0x8000000000000000#64 else 0#64

/-- An infinity as a binary64 pattern (R160). -/
def signedInf (neg : Bool) : BitVec 64 :=
  if neg then 0xFFF0000000000000#64 else 0x7FF0000000000000#64

/-- The float registers of the iterator are finite and within the bounds of R205. -/
def FloatOrbitFinite (e : Eti) : Prop :=
  (∀ c, c = e.cxf ∨ c = e.cyf → Finite64 c ∧ |value64 c| ≤ 256) ∧
  (∀ z, z = e.xf ∨ z = e.yf → Finite64 z ∧ |value64 z| < 2 ^ 17 + 2 ^ 9)

/-- The non-zero value `x` correctly rounded is the binary64 pattern `r`, sign and magnitude. -/
def Rounds64 (x : ℚ) (r : BitVec 64) : Prop :=
  (r.toNat / 2 ^ 63 = if x < 0 then 1 else 0) ∧ RoundedTo binary64 |x| (r.toNat % 2 ^ 63)

/-- The literal in a data word packs a canonical value (the three tests of R124 and R252). -/
def CanonicalLiteral (w : DataWord) : Prop :=
  w.extractLsb' 128 2 ≠ 0b10#2 ∧ (w.extractLsb' 0 128 = 0#128 ↔ w.extractLsb' 128 2 = 0b00#2)

/-- The 15 defined CSR numbers of R29. -/
def definedCsrs : List CsrNum :=
  [0x000#12, 0x001#12, 0x002#12, 0x010#12, 0x011#12, 0x012#12, 0x013#12, 0x014#12, 0x015#12, 0x016#12, 0x017#12,
    0x018#12, 0x019#12, 0x01A#12, 0x01B#12]

/-- The register a command names as its destination (R25). -/
def dest : Instr → Option Reg
  | .qzero rd => some rd
  | .qone rd => some rd
  | .qld rd => some rd
  | .qst _ => none
  | .qmov rd _ => some rd
  | .qneg rd _ => some rd
  | .qadd rd _ _ => some rd
  | .qsub rd _ _ => some rd
  | .qmul rd _ _ => some rd
  | .qcmp _ _ => none
  | .f64toq rd => some rd
  | .f32toq rd => some rd
  | .qtof64 _ => none
  | .qtof32 _ => none
  | .qtoi8 _ => none
  | .iter _ _ => none
  | .csrr _ => none
  | .csrw _ => none

/-- The registers a command names as its sources (R25). -/
def sources : Instr → List Reg
  | .qzero _ => []
  | .qone _ => []
  | .qld _ => []
  | .qst ra => [ra]
  | .qmov _ ra => [ra]
  | .qneg _ ra => [ra]
  | .qadd _ ra rb => [ra, rb]
  | .qsub _ ra rb => [ra, rb]
  | .qmul _ ra rb => [ra, rb]
  | .qcmp ra rb => [ra, rb]
  | .f64toq _ => []
  | .f32toq _ => []
  | .qtof64 ra => [ra]
  | .qtof32 ra => [ra]
  | .qtoi8 ra => [ra]
  | .iter ra rb => [ra, rb]
  | .csrr _ => []
  | .csrw _ => []

/-- How many low bits of `wdata` a command reads (the table of R94; `CSRW` reads 31:0, R231). -/
def wdataBits : Instr → Nat
  | .qld _ => 130
  | .f64toq _ => 64
  | .f32toq _ => 32
  | .csrw _ => 32
  | _ => 0

/-- The commands that complete whatever the operands (R257). -/
def NeverFaults : Instr → Bool
  | .qld _ => false
  | .csrr _ => false
  | .csrw _ => false
  | _ => true

end Sys2Proof.Claims

open Sys2Proof Sys2Proof.Machine Sys2Proof.Claims

/-! ## Encoding -/

/-- Words written out from the formats of R91, R92 and the opcodes of R94 decode to what 95_test_vectors.md 5.1 says. -/
def Obligations.SampleWordsDecode : Prop :=
  decode 0x01500000#32 = .instr (.qzero 5) ∧
  decode 0x11312000#32 = .instr (.qadd 3 1 2) ∧
  decode 0x1407F000#32 = .instr (.qcmp 7 15) ∧
  decode 0x24010000#32 = .instr (.qtoi8 1) ∧
  decode 0x30012000#32 = .instr (.iter 1 2) ∧
  decode 0x41000002#32 = .instr (.csrw 0x002#12) ∧
  decode 0x40000FFF#32 = .instr (.csrr 0xFFF#12) ∧
  decode 0x00000000#32 = .illegal .undefinedOpcode ∧
  decode 0x11312001#32 = .illegal .mustBeZero ∧
  decode 0x40001002#32 = .illegal .mustBeZero

/-- Decoding an encoded command gives it back, every operand at every value (R95). -/
def Obligations.DecodeOfEncode : Prop :=
  ∀ i : Instr, decode (encode i) = .instr i

/-- A word that decodes to a command is the encoding of that command (R95). -/
def Obligations.EncodeOfDecode : Prop :=
  ∀ (w : CmdWord) (i : Instr), decode w = .instr i → encode i = w

/-- `decode` and the match and mask columns of R94 agree: a word that decodes is spelled by exactly one row, the one
with the command's mnemonic, and a word that does not decode is spelled by none. -/
def Obligations.DecodeAgreesWithOpcodeMap : Prop :=
  ∀ w : CmdWord,
    (∀ i : Instr, decode w = .instr i →
      ∀ r ∈ opcodeTable, (r.spells w = true ↔ r.mnemonic = i.mnemonic)) ∧
    (∀ why : Illegal, decode w = .illegal why → legalWord w = false)

/-! ## The step and the port -/

/-- A command that decodes is run: the step is `exec` of it in the state where the unit has sampled the word and its
data, a response still outstanding has been taken by the host, and the host's next moves are what follows (R11, R63,
R66). The port fields, the host's moves and the list of responses taken are the model's own (log 1, 3, 4). -/
def Obligations.StepRunsDecodedCommand : Prop :=
  ∀ (s : State) (cmd : CmdWord) (wdata : DataWord) (rest : List HostMove) (i : Instr),
    s.host = .command cmd wdata :: rest → decode cmd = .instr i →
    step s = exec i (s.accept cmd wdata rest) ∧
    s.accept cmd wdata rest =
      { s with port := ⟨cmd, wdata⟩, host := rest, rsp := none, answered := s.answered ++ s.rsp.toList }

/-- Every command gets exactly one response, and it either completes, leaving the error record as it was, or answers an
error code with `rdata = 0` and changes nothing but the error record (R12, R63, R253). That the responses taken so far
are listed is the model's own (log 3). -/
def Obligations.EveryCommandCompletesOrFaults : Prop :=
  ∀ (s : State) (cmd : CmdWord) (wdata : DataWord) (rest : List HostMove),
    s.host = .command cmd wdata :: rest →
    ∃ t, step s = .next t ∧ t.host = rest ∧ t.answered = s.answered ++ s.rsp.toList ∧
      ((∃ d, t.rsp = some ⟨.ok, d⟩ ∧ t.err = s.err ∧ t.errCode = s.errCode ∧ t.errCmd = s.errCmd) ∨
       (∃ c, c ≠ .ok ∧ t.rsp = some ⟨c, 0#130⟩ ∧
          t = { s.accept cmd wdata rest with
                err := t.err, errCode := t.errCode, errCmd := t.errCmd, rsp := t.rsp }))

/-- No state stops the unit (R12). -/
def Obligations.StepAlwaysAnswersNext : Prop :=
  ∀ s : State, ∃ t, step s = .next t

/-- The host's other moves: reset gives the reset state and no response, a response is given once, and without a move
nothing changes (R11, R64, R67, R290; the host's lists are the model's own, log 1, 2, 3). -/
def Obligations.OtherHostMoves : Prop :=
  ∀ (s : State) (rest : List HostMove),
    (s.host = .reset :: rest →
      step s = .next { State.reset with host := rest, answered := s.answered }) ∧
    (s.host = .takeResponse :: rest →
      step s = .next { s with host := rest, rsp := none, answered := s.answered ++ s.rsp.toList }) ∧
    (s.host = [] → step s = .next s)

/-- The response to a taken command, if `rst` is asserted before the host has taken it, is never given, and no effect of
the command is kept (R67, R291; log 11). -/
def Obligations.ResetAbandonsCommand : Prop :=
  ∀ (s t : State) (cmd : CmdWord) (wdata : DataWord) (rest : List HostMove),
    s.host = .command cmd wdata :: .reset :: rest → step s = .next t →
    ∃ u, step t = .next u ∧
      u = { State.reset with host := rest, answered := s.answered ++ s.rsp.toList }

/-! ## Reset and invariants -/

/-- The state after reset (R40): the registers, and what the CSRs read. -/
def Obligations.ResetValues : Prop :=
  (∀ r : Reg, State.reset.readQ r = ⟨.neutral, 0#64, 0#64⟩ ∧ pack (State.reset.readQ r) = 0#130) ∧
  State.reset.maxIter = 100#32 ∧ State.reset.errCmd = 0#32 ∧
  State.reset.readCsr .status = 0#130 ∧ State.reset.readCsr .itStat = 0#130 ∧
  State.reset.eti.phase = .idle ∧ State.reset.eti.capped = false ∧
  State.reset.eti.i = 0#32 ∧ State.reset.eti.isw = 0#32 ∧ State.reset.eti.res = 0#64 ∧
  State.reset.eti.xf = 0#64 ∧ State.reset.eti.yf = 0#64 ∧ State.reset.eti.cxf = 0#64 ∧
  State.reset.eti.cyf = 0#64 ∧
  State.reset.eti.xq = zeroQ ∧ State.reset.eti.yq = zeroQ ∧ State.reset.eti.cxq = zeroQ ∧
  State.reset.eti.cyq = zeroQ

/-- The reset state meets the invariant, and the premise of `StepKeepsFloatRegistersFinite`. -/
def Obligations.ResetMeetsInvariant : Prop :=
  State.reset.Inv ∧ FloatOrbitFinite State.reset.eti

/-- Canonicity of every register of type `Q` is kept by every step (R23). -/
def Obligations.StepKeepsRegistersCanonical : Prop :=
  ∀ s t : State, s.CanonicalRegs → step s = .next t → t.CanonicalRegs

/-- The error record stays consistent: no code and no command word before the first fault, a code after it (R30, R31). -/
def Obligations.StepKeepsErrorRecordConsistent : Prop :=
  ∀ s t : State, s.ErrorRecordOk → step s = .next t → t.ErrorRecordOk

/-- Between commands the iterator is IDLE or DONE and `IT_ISW <= IT_I` (R33, R34). -/
def Obligations.StepKeepsIteratorSettled : Prop :=
  ∀ s t : State, s.EtiSettled → step s = .next t → t.EtiSettled

/-- Once a fault is recorded, nothing but reset changes the record (R30, R31, R254). -/
def Obligations.FirstFaultRecordIsKept : Prop :=
  ∀ s t : State, s.err = true → s.host.head? ≠ some .reset → step s = .next t →
    t.err = true ∧ t.errCode = s.errCode ∧ t.errCmd = s.errCmd

/-! ## Faults -/

/-- What a fault does (R253): no `q` register, no iterator register and not `MAXITER` changes, `rdata = 0`, the error
record takes the code and the command word if it held no fault, and beside that record and the response nothing differs
from the state in which the command was taken. -/
def Obligations.FaultEffect : Prop :=
  ∀ (s t : State) (cmd : CmdWord) (wdata : DataWord) (rest : List HostMove) (c : ErrCode) (d : DataWord),
    s.host = .command cmd wdata :: rest → step s = .next t → t.rsp = some ⟨c, d⟩ → c ≠ .ok →
    (∀ r : Reg, t.readQ r = s.readQ r) ∧ t.eti = s.eti ∧ t.maxIter = s.maxIter ∧ d = 0#130 ∧
    (s.err = false → t.err = true ∧ t.errCode = c ∧ t.errCmd = cmd) ∧
    (s.err = true → t.err = s.err ∧ t.errCode = s.errCode ∧ t.errCmd = s.errCmd) ∧
    t = { s.accept cmd wdata rest with err := t.err, errCode := t.errCode, errCmd := t.errCmd, rsp := t.rsp }

/-- A word that does not decode answers `ILLEGAL_COMMAND`, code 1, whatever its data word (R96, R255). -/
def Obligations.IllegalWordAnswersIllegalCommand : Prop :=
  ∀ (s : State) (cmd : CmdWord) (wdata : DataWord) (rest : List HostMove),
    s.host = .command cmd wdata :: rest → legalWord cmd = false →
    ∃ t, step s = .next t ∧ t.rsp = some ⟨.illegalCommand, 0#130⟩ ∧ ErrCode.illegalCommand.code = 1#4 ∧
      (∀ r : Reg, t.readQ r = s.readQ r) ∧ t.eti = s.eti ∧ t.maxIter = s.maxIter ∧ t.err = true

/-- When `CSRR` and `CSRW` raise `ILLEGAL_CSR` (R251). -/
def Obligations.IllegalCsrExactly : Prop :=
  ∀ (n : CsrNum) (s : State),
    (∃ t, exec (.csrr n) s = .next t ∧ (t.rsp = some ⟨.illegalCsr, 0#130⟩ ↔ n ∉ definedCsrs)) ∧
    (∃ t, exec (.csrw n) s = .next t ∧ (t.rsp = some ⟨.illegalCsr, 0#130⟩ ↔ n ≠ 0x002#12)) ∧
    ErrCode.illegalCsr.code = 2#4

/-- `INVALID_LITERAL` is raised by `QLD` only, exactly when the data word does not pack a canonical value, and then the
destination register is not written (R252). -/
def Obligations.InvalidLiteralExactly : Prop :=
  (∀ (rd : Reg) (s : State), ∃ t, exec (.qld rd) s = .next t ∧
    (t.rsp = some ⟨.invalidLiteral, 0#130⟩ ↔ ¬ CanonicalLiteral s.port.wdata) ∧
    (¬ CanonicalLiteral s.port.wdata → t.readQ rd = s.readQ rd)) ∧
  (∀ (i : Instr) (s t : State) (d : DataWord), exec i s = .next t → t.rsp = some ⟨.invalidLiteral, d⟩ →
    ∃ rd, i = .qld rd) ∧
  ErrCode.invalidLiteral.code = 3#4

/-- Each fault has its own set of words: decoding comes first, `ILLEGAL_CSR` arises only from a well-formed `CSRR` or
`CSRW`, `INVALID_LITERAL` only from a well-formed `QLD` (R255). -/
def Obligations.FaultCausesAreDisjoint : Prop :=
  ∀ (s t : State) (cmd : CmdWord) (wdata : DataWord) (rest : List HostMove) (d : DataWord),
    s.host = .command cmd wdata :: rest → step s = .next t →
    (t.rsp = some ⟨.illegalCommand, d⟩ ↔ legalWord cmd = false ∧ d = 0#130) ∧
    (t.rsp = some ⟨.illegalCsr, d⟩ → ∃ n, decode cmd = .instr (.csrr n) ∨ decode cmd = .instr (.csrw n)) ∧
    (t.rsp = some ⟨.invalidLiteral, d⟩ → ∃ rd, decode cmd = .instr (.qld rd))

/-- The 15 other commands complete with `err = 0` for every operand value and every `wdata` (R257). -/
def Obligations.NoOtherCommandFaults : Prop :=
  ∀ (i : Instr) (s : State), NeverFaults i = true → ∃ t d, CompletesWith i s t d

/-! ## Fixed-point commands -/

/-- `QZERO`, `QONE` and `QMOV`: the new value of the destination, and the frame (R120, R122, R123, R126). -/
def Obligations.ConstantsAndMove : Prop :=
  ∀ (s : State) (rd ra : Reg),
    (∃ t, CompletesWith (.qzero rd) s t 0#130 ∧ t.readQ rd = ⟨.neutral, 0#64, 0#64⟩ ∧ ChangesOnlyRegister s t rd) ∧
    (∃ t, CompletesWith (.qone rd) s t 0#130 ∧ t.readQ rd = ⟨.positive, BitVec.ofNat 64 (2 ^ 56), 0#64⟩ ∧
      ChangesOnlyRegister s t rd) ∧
    (∃ t, CompletesWith (.qmov rd ra) s t 0#130 ∧ t.readQ rd = s.readQ ra ∧ ChangesOnlyRegister s t rd)

/-- `QLD` of a canonical literal loads exactly that literal; of another one it faults and writes no register (R124). -/
def Obligations.QldLoadsCanonicalLiteral : Prop :=
  ∀ (s : State) (rd : Reg),
    (CanonicalLiteral s.port.wdata →
      ∃ t, CompletesWith (.qld rd) s t 0#130 ∧ pack (t.readQ rd) = s.port.wdata ∧
        (t.readQ rd).canonical = true ∧ ChangesOnlyRegister s t rd) ∧
    (¬ CanonicalLiteral s.port.wdata →
      ∃ t, exec (.qld rd) s = .next t ∧ t.rsp = some ⟨.invalidLiteral, 0#130⟩ ∧ ∀ r, t.readQ r = s.readQ r)

/-- Packing (R24): the sign code in bits 129:128, `high` in 127:64, `low` in 63:0, so the three slices give the value
back; the all-zero word is canonical zero. -/
def Obligations.PackLayout : Prop :=
  pack zeroQ = 0#130 ∧
  ∀ v : Q,
    (pack v).toNat =
      (match v.sign with | .negative => 3 | .neutral => 0 | .positive => 1) * 2 ^ 128 +
        v.high.toNat * 2 ^ 64 + v.low.toNat ∧
    (pack v).extractLsb' 128 2 =
      (match v.sign with | .negative => 0b11#2 | .neutral => 0b00#2 | .positive => 0b01#2) ∧
    (pack v).extractLsb' 64 64 = v.high ∧ (pack v).extractLsb' 0 64 = v.low

/-- `QST` reads out the packed register and changes nothing (R125, R70). -/
def Obligations.QstReadsOut : Prop :=
  ∀ (s : State) (ra : Reg),
    ∃ t, CompletesWith (.qst ra) s t (pack (s.readQ ra)) ∧ ChangesOnlyResponse s t

/-- Canonicalisation (R121): the magnitude modulo `2^128`, the sign Neutral exactly if that is 0. -/
def Obligations.CanonicalisationRule : Prop :=
  ∀ (sg : Sign) (m : Nat),
    (canon sg m).mag = m % 2 ^ 128 ∧ (canon sg m).sign = if m % 2 ^ 128 = 0 then .neutral else sg

/-- `QNEG` swaps Negative and Positive, fixes Neutral and leaves both words of the magnitude, so the value is negated
(R131, R132). -/
def Obligations.QnegFlipsSign : Prop :=
  ∀ (s : State) (rd ra : Reg),
    ∃ t, CompletesWith (.qneg rd ra) s t 0#130 ∧ ChangesOnlyRegister s t rd ∧
      t.readQ rd =
        ⟨match (s.readQ ra).sign with | .negative => .positive | .neutral => .neutral | .positive => .negative,
          (s.readQ ra).high, (s.readQ ra).low⟩ ∧
      (t.readQ rd).units = -(s.readQ ra).units ∧
      ((s.readQ ra).canonical = true → (t.readQ rd).canonical = true)

/-- `QADD` writes the exact sum with its magnitude reduced modulo `2^128` (R133, R134, R142). -/
def Obligations.QaddWritesWrappedSum : Prop :=
  ∀ (s : State) (rd ra rb : Reg), s.CanonicalRegs →
    ∃ t, CompletesWith (.qadd rd ra rb) s t 0#130 ∧ ChangesOnlyRegister s t rd ∧
      t.readQ rd = wrapUnits ((s.readQ ra).units + (s.readQ rb).units)

/-- `QSUB` writes the exact difference with its magnitude reduced modulo `2^128` (R135, R136, R142). -/
def Obligations.QsubWritesWrappedDifference : Prop :=
  ∀ (s : State) (rd ra rb : Reg), s.CanonicalRegs →
    ∃ t, CompletesWith (.qsub rd ra rb) s t 0#130 ∧ ChangesOnlyRegister s t rd ∧
      t.readQ rd = wrapUnits ((s.readQ ra).units - (s.readQ rb).units)

/-- `QMUL` writes the exact product truncated toward zero to a multiple of `2^-120`, its magnitude reduced modulo
`2^128` (R137, R138, R142). -/
def Obligations.QmulWritesTruncatedProduct : Prop :=
  ∀ (s : State) (rd ra rb : Reg), s.CanonicalRegs →
    ∃ t, CompletesWith (.qmul rd ra rb) s t 0#130 ∧ ChangesOnlyRegister s t rd ∧
      t.readQ rd = wrapUnits (((s.readQ ra).units * (s.readQ rb).units).tdiv (2 ^ 120))

/-- `QCMP` answers the order of the real values: Less `0b11`, Equal `0b00`, Greater `0b01` (R139, R140). -/
def Obligations.QcmpAnswersOrderOfValues : Prop :=
  ∀ (s : State) (ra rb : Reg), s.CanonicalRegs →
    ∃ t, ChangesOnlyResponse s t ∧
      CompletesWith (.qcmp ra rb) s t
        (if (s.readQ ra).units < (s.readQ rb).units then 0b11#130
         else if (s.readQ ra).units = (s.readQ rb).units then 0b00#130 else 0b01#130)

/-- The algebraic laws of R143 on canonical values, and the laws that do not hold. -/
def Obligations.AlgebraicLaws : Prop :=
  (∀ a b : Q, a.canonical = true → b.canonical = true →
    qadd a b = qadd b a ∧ qmul a b = qmul b a ∧ qadd a qzeroV = a ∧ qmul a qoneV = a ∧ qmul a qzeroV = qzeroV ∧
    qsub a a = qzeroV ∧ qadd a (qneg a) = qzeroV ∧ qneg (qadd a b) = qadd (qneg a) (qneg b) ∧
    qneg (qmul a b) = qmul (qneg a) b ∧ (qcmp a b = .eq ↔ a = b) ∧ (qcmp a b = .lt ↔ qcmp b a = .gt)) ∧
  (∃ a b c : Q, a.canonical = true ∧ b.canonical = true ∧ c.canonical = true ∧
    qadd (qadd a b) c ≠ qadd a (qadd b c)) ∧
  (∃ a b c : Q, a.canonical = true ∧ b.canonical = true ∧ c.canonical = true ∧
    qmul (qmul a b) c ≠ qmul a (qmul b c)) ∧
  (∃ a b c : Q, a.canonical = true ∧ b.canonical = true ∧ c.canonical = true ∧
    qmul a (qadd b c) ≠ qadd (qmul a b) (qmul a c))

/-- Exactness (R142): where the result lies inside the range no wrap occurs, and then sum and difference are exact and
the product is truncated toward zero to a multiple of `2^-120`. The ranges here hold whenever R142's do:
`|a| + |b| < 256` bounds both `|a + b|` and `|a - b|`. -/
def Obligations.FixedPointExactness : Prop :=
  ∀ a b : Q, a.canonical = true → b.canonical = true →
    (|val a + val b| < 256 → val (qadd a b) = val a + val b) ∧
    (|val a - val b| < 256 → val (qsub a b) = val a - val b) ∧
    (|val a * val b| < 256 → val (qmul a b) = truncToGrid (val a * val b))

/-! ## Conversions -/

/-- `F64TOQ` and `F32TOQ` write the closed form of R163: the magnitude is `floor(m * 2^(e + 120)) mod 2^128`. -/
def Obligations.FloatToFixedClosedForm : Prop :=
  ∀ (s : State) (rd : Reg),
    (∃ t, CompletesWith (.f64toq rd) s t 0#130 ∧ ChangesOnlyRegister s t rd ∧
      t.readQ rd = fixedOfFloat 52 11 (s.port.wdata.toNat % 2 ^ 64)) ∧
    (∃ t, CompletesWith (.f32toq rd) s t 0#130 ∧ ChangesOnlyRegister s t rd ∧
      t.readQ rd = fixedOfFloat 23 8 (s.port.wdata.toNat % 2 ^ 32))

/-- Zeros, subnormals, infinities, NaNs and every float whose `e` is 8 or more convert to canonical zero (R163, R172). -/
def Obligations.SpecialFloatsConvertToZero : Prop :=
  ∀ (s : State) (rd : Reg),
    (let expo := s.port.wdata.toNat / 2 ^ 52 % 2 ^ 11
     expo = 0 ∨ 1083 ≤ expo →
      ∃ t, CompletesWith (.f64toq rd) s t 0#130 ∧ t.readQ rd = zeroQ) ∧
    (let expo := s.port.wdata.toNat / 2 ^ 23 % 2 ^ 8
     expo = 0 ∨ 158 ≤ expo →
      ∃ t, CompletesWith (.f32toq rd) s t 0#130 ∧ t.readQ rd = zeroQ)

/-- `QTOF64` and `QTOF32` answer the value rounded in three steps, each to nearest even in the target format; the
result is `+0` or a normal number (R166, R167, R168). -/
def Obligations.FixedToFloatRoundsThreeTimes : Prop :=
  ∀ (s : State) (ra : Reg), s.CanonicalRegs →
    (∃ t, ∃ bits : BitVec 64, CompletesWith (.qtof64 ra) s t (bits.setWidth 130) ∧ ChangesOnlyResponse s t ∧
      PatternIsUnits 52 11 bits.toNat (decide ((s.readQ ra).sign = .negative)) (threeRoundings 53 (s.readQ ra))) ∧
    (∃ t, ∃ bits : BitVec 32, CompletesWith (.qtof32 ra) s t (bits.setWidth 130) ∧ ChangesOnlyResponse s t ∧
      PatternIsUnits 23 8 bits.toNat (decide ((s.readQ ra).sign = .negative)) (threeRoundings 24 (s.readQ ra)))

/-- Round trip (R171): a binary64 or binary32 value on the grid and below 256 in magnitude converts to fixed point and
back to itself, `-0.0` to `+0.0`. -/
def Obligations.FloatRoundTrip : Prop :=
  (∀ v : BitVec 64,
    (∃ units < 2 ^ 128, ((significand 52 11 v.toNat).1 : ℚ) * 2 ^ ((significand 52 11 v.toNat).2 + 120) = (units : Nat)) →
    qtof64 (ftoq binary64 v.toNat) = if v = 0x8000000000000000#64 then 0#64 else v) ∧
  (∀ v : BitVec 32,
    (∃ units < 2 ^ 128, ((significand 23 8 v.toNat).1 : ℚ) * 2 ^ ((significand 23 8 v.toNat).2 + 120) = (units : Nat)) →
    qtof32 (ftoq binary32 v.toNat) = if v = 0x80000000#32 then 0#32 else v)

/-- `QTOI8` answers the value truncated toward zero, modulo 256, in `rdata[7:0]` (R169, R170). -/
def Obligations.Qtoi8TruncatesAndWraps : Prop :=
  ∀ (s : State) (ra : Reg), s.CanonicalRegs →
    ∃ t, CompletesWith (.qtoi8 ra) s t ((BitVec.ofInt 8 ((s.readQ ra).units.tdiv (2 ^ 120))).setWidth 130) ∧
      ChangesOnlyResponse s t

/-- Rounding is to nearest, ties to even, in both formats (R160). That values beyond the largest finite one become
infinity and that small ones are rounded among the subnormals is the model's reading of IEEE 754 (log 9). -/
def Obligations.RoundingIsNearestTiesToEven : Prop :=
  ∀ f : FloatFmt, f = binary64 ∨ f = binary32 →
    ∀ (m : Nat) (e : Int), RoundedTo f ((m : ℚ) * (2 : ℚ) ^ e) (roundPattern f m e)

/-- The binary64 operations round the exact result once (R9, R160): sum, difference, product and quotient of finite
operands, wherever the exact result is not 0. Overflow to infinity, subnormal results and `-0 = +0` are the model's
reading of IEEE 754 (log 9); `FloatZeroResults` and `FloatInfiniteOperands` state the other operands and results. -/
def Obligations.FloatOperationsRoundOnce : Prop :=
  ∀ a b : BitVec 64, Finite64 a → Finite64 b →
    (value64 a + value64 b ≠ 0 → Rounds64 (value64 a + value64 b) (fadd a b)) ∧
    (value64 a - value64 b ≠ 0 → Rounds64 (value64 a - value64 b) (fsub a b)) ∧
    (value64 a * value64 b ≠ 0 → Rounds64 (value64 a * value64 b) (fmul a b)) ∧
    (value64 b ≠ 0 → value64 a ≠ 0 → Rounds64 (value64 a / value64 b) (fdiv a b)) ∧
    (fle a b = true ↔ value64 a ≤ value64 b)

/-- Exact zero results of the binary64 operations: a sum or difference is `+0` but for `-0 + -0` and `-0 - +0`, a product
and a quotient have the sign that the operands' signs give. The model's reading of IEEE 754 (log 9). -/
def Obligations.FloatZeroResults : Prop :=
  ∀ a b : BitVec 64, Finite64 a → Finite64 b →
    (value64 a + value64 b = 0 → fadd a b = signedZero (a == signedZero true && b == signedZero true)) ∧
    (value64 a - value64 b = 0 → fsub a b = signedZero (a == signedZero true && b == signedZero false)) ∧
    (value64 a * value64 b = 0 → fmul a b = signedZero (a.msb != b.msb)) ∧
    (value64 a = 0 → value64 b ≠ 0 → fdiv a b = signedZero (a.msb != b.msb))

/-- Infinite operands of the binary64 operations, division by zero and the order of the infinities; `a` is finite, `z` is
a zero. The model's reading of IEEE 754 (log 9), with the NaNs' bits free (log 8). -/
def Obligations.FloatInfiniteOperands : Prop :=
  ∀ (m n : Bool) (a z : BitVec 64), Finite64 a → z = signedZero false ∨ z = signedZero true →
    (fadd (signedInf n) a = signedInf n ∧ fadd a (signedInf n) = signedInf n ∧
      fadd (signedInf n) (signedInf n) = signedInf n ∧
      isNan binary64 (fadd (signedInf n) (signedInf !n)).toNat = true) ∧
    (fsub (signedInf n) a = signedInf n ∧ fsub a (signedInf n) = signedInf !n ∧
      fsub (signedInf n) (signedInf !n) = signedInf n ∧
      isNan binary64 (fsub (signedInf n) (signedInf n)).toNat = true) ∧
    (fmul (signedInf m) (signedInf n) = signedInf (m != n) ∧
      (value64 a ≠ 0 → fmul (signedInf n) a = signedInf (n != a.msb) ∧ fmul a (signedInf n) = signedInf (n != a.msb)) ∧
      isNan binary64 (fmul (signedInf n) z).toNat = true ∧ isNan binary64 (fmul z (signedInf n)).toNat = true) ∧
    (fdiv (signedInf n) a = signedInf (n != a.msb) ∧ fdiv a (signedInf n) = signedZero (n != a.msb) ∧
      (value64 a ≠ 0 → fdiv a z = signedInf (a.msb != z.msb)) ∧
      (value64 a = 0 → isNan binary64 (fdiv a z).toNat = true) ∧
      isNan binary64 (fdiv (signedInf m) (signedInf n)).toNat = true) ∧
    (fle (signedInf m) (signedInf n) = (m || !n) ∧ fle (signedInf n) a = n ∧ fle a (signedInf n) = !n)

/-- A NaN operand gives a NaN, whatever the free value that picks its bits (U6), and no order test with a NaN holds
(R195). That a NaN is passed on is the model's reading of IEEE 754 (log 8, 9). -/
def Obligations.NanOperandsGiveNans : Prop :=
  ∀ a b : BitVec 64, isNan binary64 a.toNat = true ∨ isNan binary64 b.toNat = true →
    isNan binary64 (fadd a b).toNat = true ∧ isNan binary64 (fsub a b).toNat = true ∧
    isNan binary64 (fmul a b).toNat = true ∧ isNan binary64 (fdiv a b).toNat = true ∧ fle a b = false

/-! ## The iterator -/

/-- `ITER` completes on every operand and every cap; it answers its result and `CAPPED`, writes only the iterator's
registers, ends DONE, and `IT_ISW <= IT_I <= MAXITER` with `CAPPED` exactly at the cap (R34, R191, R199, R200, R204). -/
def Obligations.IterCompletes : Prop :=
  ∀ (s : State) (ra rb : Reg),
    ∃ t d, CompletesWith (.iter ra rb) s t d ∧ ChangesOnlyIterator s t ∧
      d.extractLsb' 0 64 = t.eti.res ∧ d.extractLsb' 64 1 = BitVec.ofBool t.eti.capped ∧ d.toNat < 2 ^ 65 ∧
      t.eti.phase = .done ∧ t.eti.cxq = s.readQ ra ∧ t.eti.cyq = s.readQ rb ∧
      t.eti.isw ≤ t.eti.i ∧ t.eti.i ≤ s.maxIter ∧ (t.eti.capped = true ↔ t.eti.i = s.maxIter)

/-- `ITER` runs the state machine of R201: from the start state of R192, exactly `IT_I + 2` transitions lead to its
end state, none of them from DONE, and `IT_I` is at most the cap (R204). -/
def Obligations.IterIsClosureOfTransitions : Prop :=
  ∀ (s : State) (ra rb : Reg),
    ∃ t, exec (.iter ra rb) s = .next t ∧ t.eti.i ≤ s.maxIter ∧
      t.eti = (etiTransition s.maxIter)^[t.eti.i.toNat + 2] (etiStart s.eti (s.readQ ra) (s.readQ rb)) ∧
      ∀ n < t.eti.i.toNat + 2,
        ((etiTransition s.maxIter)^[n] (etiStart s.eti (s.readQ ra) (s.readQ rb))).phase ≠ .done

/-- The transitions of the iterator, row by row, for every iterator state and every cap (the table of R201 with the
actions of R192 to R195, R198 and R199 written out). Start from any phase; FIXED and FLOAT each go on or leave, under
complementary conditions, both coordinates computed from the old pair; in IDLE and DONE nothing moves. -/
def Obligations.TransitionsOfTheIterator : Prop :=
  ∀ (cap : BitVec 32) (e : Eti),
    (∀ cx cy : Q, etiStart e cx cy =
      { e with cxq := cx, cyq := cy, xq := zeroQ, yq := zeroQ, i := 0#32, phase := .fixed }) ∧
    (e.phase = .fixed →
      let xx := qmul e.xq e.xq
      let yy := qmul e.yq e.yq
      let xy := qmul e.xq e.yq
      let one : Q := ⟨.positive, 0x0100000000000000#64, 0#64⟩
      (e.i < cap ∧ qcmp (qadd xx yy) one ≠ .gt →
        etiTransition cap e =
          { e with xq := qadd (qsub xx yy) e.cxq, yq := qadd (qadd xy xy) e.cyq, i := e.i + 1#32 }) ∧
      (cap ≤ e.i ∨ qcmp (qadd xx yy) one = .gt →
        etiTransition cap e =
          { e with
            isw := e.i, xf := qtof64 e.xq, yf := qtof64 e.yq, cxf := qtof64 e.cxq, cyf := qtof64 e.cyq
            phase := .float })) ∧
    (e.phase = .float →
      let xx := fmul e.xf e.xf
      let yy := fmul e.yf e.yf
      let r2 := fadd xx yy
      let logZn := fdiv (Config.ln64 r2) 0x4000000000000000#64
      let nu := fdiv (Config.ln64 (fdiv logZn 0x3FE62E42FEFA39EF#64)) 0x3FE62E42FEFA39EF#64
      (e.i < cap ∧ fle r2 0x40F0000000000000#64 = true →
        etiTransition cap e =
          { e with
            xf := fadd (fsub xx yy) e.cxf
            yf := fadd (fmul (fmul 0x4000000000000000#64 e.xf) e.yf) e.cyf
            i := e.i + 1#32 }) ∧
      (cap ≤ e.i →
        etiTransition cap e = { e with res := u2f64 cap.toNat, capped := true, phase := .done }) ∧
      (e.i < cap ∧ fle r2 0x40F0000000000000#64 = false →
        etiTransition cap e =
          { e with
            res := fsub (fadd (u2f64 e.i.toNat) 0x3FF0000000000000#64) nu, capped := false, phase := .done })) ∧
    (e.phase = .idle ∨ e.phase = .done → etiTransition cap e = e)

/-- No value of the float phase is ever an infinity or a NaN (R205), said of single transitions: leaving the fixed phase
with canonical values gives float registers within the bounds, at most 256; from registers within the bounds every
value that a float transition computes is finite, and it leaves registers within the bounds. -/
def Obligations.FloatTransitionsStayFinite : Prop :=
  ∀ (cap : BitVec 32) (e : Eti),
    (e.phase = .fixed → (etiTransition cap e).phase = .float →
      e.xq.canonical = true → e.yq.canonical = true → e.cxq.canonical = true → e.cyq.canonical = true →
      FloatOrbitFinite (etiTransition cap e) ∧
      |value64 (etiTransition cap e).xf| ≤ 256 ∧ |value64 (etiTransition cap e).yf| ≤ 256) ∧
    (e.phase = .float → FloatOrbitFinite e →
      FloatOrbitFinite (etiTransition cap e) ∧
      Finite64 (fmul e.xf e.xf) ∧ Finite64 (fmul e.yf e.yf) ∧ Finite64 (floatNorm e) ∧
      Finite64 (fsub (fmul e.xf e.xf) (fmul e.yf e.yf)) ∧ Finite64 (fmul 0x4000000000000000#64 e.xf) ∧
      Finite64 (fmul (fmul 0x4000000000000000#64 e.xf) e.yf))

/-- Every step keeps the iterator's float registers finite and within the bounds of R205. -/
def Obligations.StepKeepsFloatRegistersFinite : Prop :=
  ∀ s t : State, s.CanonicalRegs → FloatOrbitFinite s.eti → step s = .next t → FloatOrbitFinite t.eti

/-- The float values that `ITER` leaves are finite (R205): the constant within 256 and the orbit point below
`2^17 + 2^9`, on every canonical operand and every cap. -/
def Obligations.IterOrbitStaysFinite : Prop :=
  ∀ (s : State) (ra rb : Reg), s.CanonicalRegs →
    ∃ t, exec (.iter ra rb) s = .next t ∧
      (∀ c, c = t.eti.cxf ∨ c = t.eti.cyf → Finite64 c ∧ |value64 c| ≤ 256) ∧
      (∀ z, z = t.eti.xf ∨ z = t.eti.yf → Finite64 z ∧ |value64 z| < 2 ^ 17 + 2 ^ 9)

/-- What `ITER` leaves in the iterator and answers depends only on the two source registers, `MAXITER` and the
logarithm (R200). Where `IT_RES` is a NaN its bits agree because the free value is a function of the operation and its
operands, which is the model's deduction from R39 and R200 (log 8); U6 lets a claim say only that it is a NaN. -/
def Obligations.IterDependsOnlyOnOperands : Prop :=
  ∀ (s s' : State) (ra rb ra' rb' : Reg),
    s.readQ ra = s'.readQ ra' → s.readQ rb = s'.readQ rb' → s.maxIter = s'.maxIter →
    ∃ t t', exec (.iter ra rb) s = .next t ∧ exec (.iter ra' rb') s' = .next t' ∧ t.eti = t'.eti ∧ t.rsp = t'.rsp

/-- The result (R198, R199): the cap as a binary64 if the cap was reached, even if the last point escaped; else the
point lies outside the bound 65536 and the result is the smooth index, with the open logarithm `LN64`. -/
def Obligations.IterResult : Prop :=
  ∀ (s : State) (ra rb : Reg),
    ∃ t, exec (.iter ra rb) s = .next t ∧ t.eti.phase = .done ∧
      (s.maxIter ≤ t.eti.i → t.eti.capped = true ∧ t.eti.res = u2f64 s.maxIter.toNat) ∧
      (t.eti.i < s.maxIter →
        let r2 := fadd (fmul t.eti.xf t.eti.xf) (fmul t.eti.yf t.eti.yf)
        let logZn := fdiv (Config.ln64 r2) 0x4000000000000000#64
        let nu := fdiv (Config.ln64 (fdiv logZn 0x3FE62E42FEFA39EF#64)) 0x3FE62E42FEFA39EF#64
        t.eti.capped = false ∧ fle r2 0x40F0000000000000#64 = false ∧
        t.eti.res = fsub (fadd (u2f64 t.eti.i.toNat) 0x3FF0000000000000#64) nu)

/-- `c = 0` reaches every cap with `z = 0` (R203 (b), R207). -/
def Obligations.IterOfZeroReachesCap : Prop :=
  ∀ (s : State) (ra rb : Reg), s.readQ ra = zeroQ → s.readQ rb = zeroQ →
    ∃ t d, CompletesWith (.iter ra rb) s t d ∧ t.eti.capped = true ∧ t.eti.i = s.maxIter ∧ t.eti.isw = s.maxIter ∧
      t.eti.xq = zeroQ ∧ t.eti.yq = zeroQ ∧ t.eti.xf = 0#64 ∧ t.eti.yf = 0#64 ∧
      t.eti.res = u2f64 s.maxIter.toNat ∧ (s.maxIter = 100#32 → t.eti.res = 0x4059000000000000#64)

/-- `MAXITER = 0` answers the cap at once (R203 (a)). -/
def Obligations.IterWithZeroCap : Prop :=
  ∀ (s : State) (ra rb : Reg), s.maxIter = 0#32 →
    ∃ t, CompletesWith (.iter ra rb) s t 0x10000000000000000#130 ∧ t.eti.i = 0#32 ∧ t.eti.isw = 0#32 ∧
      t.eti.xq = zeroQ ∧ t.eti.yq = zeroQ ∧ t.eti.xf = 0#64 ∧ t.eti.yf = 0#64 ∧
      t.eti.cxf = qtof64 (s.readQ ra) ∧ t.eti.cyf = qtof64 (s.readQ rb) ∧
      t.eti.capped = true ∧ t.eti.res = 0#64

/-- The worked example of R200, `c = 2` at the reset cap: switch after one step, escape at `i = 4` with `x = 1446`,
whatever the logarithm. -/
def Obligations.IterOfTwoEscapesAtFour : Prop :=
  ∀ (s : State) (ra rb : Reg), s.maxIter = 100#32 →
    s.readQ ra = ⟨.positive, 0x0200000000000000#64, 0#64⟩ → s.readQ rb = zeroQ →
    ∃ t, exec (.iter ra rb) s = .next t ∧ t.eti.isw = 1#32 ∧ t.eti.i = 4#32 ∧ t.eti.capped = false ∧
      t.eti.xq = ⟨.positive, 0x0200000000000000#64, 0#64⟩ ∧ t.eti.xf = 0x4096980000000000#64 ∧ t.eti.yf = 0#64

/-! ## System commands -/

/-- `CSRR` of each of the 15 registers answers its value, zero-extended, and changes nothing (R29, R30, R33, R230); the
codes of `ERRCODE` (R250) and of `PHASE` (R33) are written out. -/
def Obligations.CsrrReadsEveryRegister : Prop :=
  ∀ s : State,
    let errCode : BitVec 4 :=
      match s.errCode with | .ok => 0#4 | .illegalCommand => 1#4 | .illegalCsr => 2#4 | .invalidLiteral => 3#4
    let phase : BitVec 2 :=
      match s.eti.phase with | .idle => 0b00#2 | .fixed => 0b01#2 | .float => 0b10#2 | .done => 0b11#2
    ∀ nv ∈
      [ (0x000#12, (errCode ++ 0#3 ++ BitVec.ofBool s.err).setWidth 130), (0x001#12, s.errCmd.setWidth 130),
        (0x002#12, s.maxIter.setWidth 130), (0x010#12, (BitVec.ofBool s.eti.capped ++ phase).setWidth 130),
        (0x011#12, s.eti.i.setWidth 130), (0x012#12, s.eti.isw.setWidth 130), (0x013#12, s.eti.res.setWidth 130),
        (0x014#12, s.eti.xf.setWidth 130), (0x015#12, s.eti.yf.setWidth 130), (0x016#12, s.eti.cxf.setWidth 130),
        (0x017#12, s.eti.cyf.setWidth 130), (0x018#12, pack s.eti.xq), (0x019#12, pack s.eti.yq),
        (0x01A#12, pack s.eti.cxq), (0x01B#12, pack s.eti.cyq) ],
      ∃ t, CompletesWith (.csrr nv.1) s t nv.2 ∧ ChangesOnlyResponse s t

/-- `CSRW MAXITER` writes `wdata[31:0]` and nothing else (R32, R231). -/
def Obligations.CsrwWritesMaxIter : Prop :=
  ∀ s : State, ∃ t, CompletesWith (.csrw 0x002#12) s t 0#130 ∧
    t.maxIter = BitVec.ofNat 32 (s.port.wdata.toNat % 2 ^ 32) ∧
    t = { s with maxIter := t.maxIter, rsp := t.rsp }

/-! ## All commands -/

/-- Who writes what (R25, R191, R231, R253): a `q` register only the command that names it as its destination,
`MAXITER` only `CSRW`, the iterator's registers only `ITER`, the error record only a fault; no command moves the port,
the host's moves or the responses already taken. -/
def Obligations.WhoWritesWhat : Prop :=
  ∀ (i : Instr) (s t : State), exec i s = .next t →
    (∀ r : Reg, dest i ≠ some r → t.readQ r = s.readQ r) ∧
    ((∀ n, i ≠ .csrw n) → t.maxIter = s.maxIter) ∧
    ((∀ ra rb, i ≠ .iter ra rb) → t.eti = s.eti) ∧
    (∀ d, t.rsp = some ⟨.ok, d⟩ → t.err = s.err ∧ t.errCode = s.errCode ∧ t.errCmd = s.errCmd) ∧
    t.port = s.port ∧ t.host = s.host ∧ t.answered = s.answered

/-- A register that a command does not name as a source does not matter to it (R25): changing it changes neither the
response nor any other state. -/
def Obligations.UnnamedRegistersAreNotRead : Prop :=
  ∀ (i : Instr) (s t : State) (r : Reg) (v : Q), r ∉ sources i → exec i s = .next t →
    ∃ t', exec i (s.writeQ r v) = .next t' ∧ (∀ r', r' ≠ r → t'.readQ r' = t.readQ r') ∧
      t' = { t with q := t'.q }

/-- Bits of `wdata` that a command's rule does not read are ignored (R65): two data words that agree on the bits it
reads give the same response and the same registers. -/
def Obligations.UnusedWdataIsIgnored : Prop :=
  ∀ (i : Instr) (s t : State) (w : DataWord),
    w.toNat % 2 ^ wdataBits i = s.port.wdata.toNat % 2 ^ wdataBits i → exec i s = .next t →
    exec i { s with port := { s.port with wdata := w } } = .next { t with port := { t.port with wdata := w } }
end

