-- ==== Sys2Proof/Laws/Fixed.lean ====
section
/-! SUPPORT. What the fixed-point functions do: one lemma per function, for callers to cite. -/

namespace Sys2Proof.Machine

theorem Q.mag_lt (v : Q) : v.mag < 2 ^ 128 := by
  have h := v.high.isLt
  have l := v.low.isLt
  unfold Q.mag
  omega

/-- A value is its sign and its magnitude. -/
theorem Q.eq_of_sign_mag {a b : Q} (hs : a.sign = b.sign) (hm : a.mag = b.mag) : a = b := by
  obtain ⟨sa, ha, la⟩ := a
  obtain ⟨sb, hb, lb⟩ := b
  simp only [Q.mag] at hm hs
  subst hs
  have := la.isLt
  have := lb.isLt
  have h1 : ha = hb := BitVec.eq_of_toNat_eq (by omega)
  have h2 : la = lb := BitVec.eq_of_toNat_eq (by omega)
  rw [h1, h2]

theorem Q.canonical_iff (v : Q) : v.canonical = true ↔ (v.mag = 0 ↔ v.sign = .neutral) := by
  simp [Q.canonical]

@[simp] theorem qzeroV_sign : qzeroV.sign = .neutral := rfl
@[simp] theorem qzeroV_mag : qzeroV.mag = 0 := rfl
@[simp] theorem qzeroV_canonical : qzeroV.canonical = true := by decide
@[simp] theorem qoneV_sign : qoneV.sign = .positive := rfl
@[simp] theorem qoneV_mag : qoneV.mag = 2 ^ 120 := by decide +kernel
@[simp] theorem qoneV_canonical : qoneV.canonical = true := by decide +kernel

/-- A canonical value is zero exactly if its magnitude is. -/
theorem Q.eq_qzeroV_iff {v : Q} (h : v.canonical = true) : v = qzeroV ↔ v.mag = 0 := by
  constructor
  · rintro rfl; rfl
  · intro hm
    exact Q.eq_of_sign_mag (((Q.canonical_iff v).1 h).1 hm) hm

theorem canon_mag (s : Sign) (m : Nat) : (canon s m).mag = m % 2 ^ 128 := by
  simp only [canon]
  split
  · simp_all
  · simp only [Q.mag, BitVec.toNat_ofNat]
    omega

theorem canon_sign (s : Sign) (m : Nat) :
    (canon s m).sign = if m % 2 ^ 128 = 0 then .neutral else s := by
  simp only [canon]
  split <;> simp_all

theorem canon_canonical {s : Sign} (m : Nat) (h : s ≠ .neutral) : (canon s m).canonical = true := by
  rw [Q.canonical_iff, canon_mag, canon_sign]
  split <;> simp_all

@[simp] theorem qneg_sign (a : Q) : (qneg a).sign = negSign a.sign := rfl
@[simp] theorem qneg_mag (a : Q) : (qneg a).mag = a.mag := rfl

@[simp] theorem negSign_negSign (s : Sign) : negSign (negSign s) = s := by cases s <;> rfl

@[simp] theorem negSign_eq_neutral (s : Sign) : negSign s = .neutral ↔ s = .neutral := by
  cases s <;> simp [negSign]

theorem qneg_canonical {a : Q} (h : a.canonical = true) : (qneg a).canonical = true := by
  rw [Q.canonical_iff] at *
  simpa using h

theorem qadd_canonical {a b : Q} (ha : a.canonical = true) (hb : b.canonical = true) :
    (qadd a b).canonical = true := by
  have ha' := (Q.canonical_iff a).1 ha
  have hb' := (Q.canonical_iff b).1 hb
  unfold qadd
  split
  · exact hb
  · rename_i hza
    rw [Q.eq_qzeroV_iff ha] at hza
    split
    · exact ha
    · rename_i hzb
      rw [Q.eq_qzeroV_iff hb] at hzb
      have na : a.sign ≠ .neutral := fun h => hza (ha'.2 h)
      have nb : b.sign ≠ .neutral := fun h => hzb (hb'.2 h)
      split
      · exact canon_canonical _ na
      · split
        · exact qzeroV_canonical
        · split
          · exact canon_canonical _ na
          · exact canon_canonical _ nb

theorem qsub_canonical {a b : Q} (ha : a.canonical = true) (hb : b.canonical = true) :
    (qsub a b).canonical = true :=
  qadd_canonical ha (qneg_canonical hb)

/-- A product is canonical whatever the operands. -/
theorem qmul_canonical (a b : Q) : (qmul a b).canonical = true := by
  unfold qmul
  split
  · exact qzeroV_canonical
  · exact canon_canonical _ (by split <;> simp)

/-- The value of a register by the three signs. -/
theorem Q.units_cases (a : Q) :
    a.sign = .negative ∧ a.units = -(a.mag : Int) ∨ a.sign = .neutral ∧ a.units = 0 ∨
      a.sign = .positive ∧ a.units = a.mag := by
  unfold Q.units
  cases a.sign <;> simp [Sign.sgn]

@[simp] theorem qneg_units (a : Q) : (qneg a).units = -a.units := by
  simp only [Q.units, qneg_mag, qneg_sign]
  cases a.sign <;> simp [negSign, Sign.sgn]

/-- A canonical value is determined by the integer it counts. -/
theorem Q.eq_of_units {a b : Q} (ha : a.canonical = true) (hb : b.canonical = true) (h : a.units = b.units) :
    a = b := by
  rw [Q.canonical_iff] at ha hb
  rcases Q.units_cases a with ⟨h1, hu⟩ | ⟨h1, hu⟩ | ⟨h1, hu⟩ <;>
    rcases Q.units_cases b with ⟨h2, hu'⟩ | ⟨h2, hu'⟩ | ⟨h2, hu'⟩ <;>
    rw [hu, hu'] at h <;> rw [h1] at ha <;> rw [h2] at hb <;>
    simp only [reduceCtorEq, iff_false, iff_true] at ha hb <;>
    first | omega | exact Q.eq_of_sign_mag (by rw [h1, h2]) (by omega)

end Sys2Proof.Machine
end

