-- ==== Sys2Proof/Laws/Convert.lean ====
section
/-! SUPPORT. What the conversions do. -/

namespace Sys2Proof.Machine

theorem shiftWord_lt {m : Nat} (hm : m < 2 ^ 64) (sh : Int) : shiftWord m sh < 2 ^ 64 := by
  unfold shiftWord
  split_ifs
  · norm_num
  · exact lt_of_le_of_lt (Nat.div_le_self _ _) hm
  · exact Nat.mod_lt _ (by norm_num)

/-- The significand of a pattern fits in 64 bits. -/
theorem decomp_lt {f : FloatFmt} (hf : f.p ≤ 62) (bits : Nat) : (decomp f bits).2.1 < 2 ^ 64 := by
  have h1 : f.fracField bits < 2 ^ f.p := Nat.mod_lt _ (by positivity)
  have h2 : 2 ^ f.p ≤ 2 ^ 62 := Nat.pow_le_pow_right (by norm_num) hf
  unfold decomp
  simp only
  split <;> simp only <;> omega

/-- A conversion from a float gives a canonical value. -/
theorem ftoq_canonical {f : FloatFmt} (hf : f.p ≤ 62) (bits : Nat) : (ftoq f bits).canonical = true := by
  have hm := decomp_lt hf bits
  unfold ftoq
  generalize decomp f bits = d at *
  obtain ⟨neg, m, e⟩ := d
  simp only at *
  have h1 := shiftWord_lt hm (8 - 64 - e)
  have h2 := shiftWord_lt hm (8 - 128 - e)
  generalize shiftWord m (8 - 64 - e) = a at *
  generalize shiftWord m (8 - 128 - e) = b at *
  split
  · exact qzeroV_canonical
  · rw [Q.canonical_iff]
    simp only [Q.mag, BitVec.toNat_ofNat, Nat.mod_eq_of_lt h1, Nat.mod_eq_of_lt h2]
    constructor
    · intro h; omega
    · intro h; cases neg <;> simp at h

end Sys2Proof.Machine
end

