-- ==== Sys2Proof/Laws/Decode.lean ====
section
/-! SUPPORT. The fields of a word as numbers, the fields of an encoded word, and a word put together from its fields. -/

namespace Sys2Proof

theorem opField_toNat (w : CmdWord) : (opField w).toNat = w.toNat / 2 ^ 24 % 2 ^ 8 := by
  simp [opField, Nat.shiftRight_eq_div_pow]

theorem rdField_val (w : CmdWord) : (rdField w).val = w.toNat / 2 ^ 20 % 2 ^ 4 := by
  simp [rdField, Nat.shiftRight_eq_div_pow]

theorem raField_val (w : CmdWord) : (raField w).val = w.toNat / 2 ^ 16 % 2 ^ 4 := by
  simp [raField, Nat.shiftRight_eq_div_pow]

theorem rbField_val (w : CmdWord) : (rbField w).val = w.toNat / 2 ^ 12 % 2 ^ 4 := by
  simp [rbField, Nat.shiftRight_eq_div_pow]

theorem lowField_toNat (w : CmdWord) : (lowField w).toNat = w.toNat % 2 ^ 12 := by
  simp [lowField]

theorem midField_toNat (w : CmdWord) : (midField w).toNat = w.toNat / 2 ^ 12 % 2 ^ 12 := by
  simp [midField, Nat.shiftRight_eq_div_pow]

/-- The number an encoded word of format R is, for an 8-bit opcode (R95). -/
theorem encodeR_toNat {op : Nat} (h : op < 256) (rd ra rb : Reg) :
    (encodeR op rd ra rb).toNat = op * 2 ^ 24 + rd.val * 2 ^ 20 + ra.val * 2 ^ 16 + rb.val * 2 ^ 12 := by
  have := rd.isLt; have := ra.isLt; have := rb.isLt
  rw [encodeR, BitVec.toNat_ofNat, Nat.mod_eq_of_lt (by omega)]

/-- The number an encoded word of format C is, for an 8-bit opcode (R95). -/
theorem encodeC_toNat {op : Nat} (h : op < 256) (csr : CsrNum) :
    (encodeC op csr).toNat = op * 2 ^ 24 + csr.toNat := by
  have := csr.isLt
  rw [encodeC, BitVec.toNat_ofNat, Nat.mod_eq_of_lt (by omega)]

/-- The six fields of an encoded word of format R. -/
theorem fields_encodeR {op : Nat} (h : op < 256) (rd ra rb : Reg) :
    opField (encodeR op rd ra rb) = BitVec.ofNat 8 op ∧ rdField (encodeR op rd ra rb) = rd ∧
    raField (encodeR op rd ra rb) = ra ∧ rbField (encodeR op rd ra rb) = rb ∧
    lowField (encodeR op rd ra rb) = 0#12 := by
  have e := encodeR_toNat h rd ra rb
  have := rd.isLt; have := ra.isLt; have := rb.isLt
  generalize encodeR op rd ra rb = w at e
  have h1 := opField_toNat w
  have h2 := rdField_val w
  have h3 := raField_val w
  have h4 := rbField_val w
  have h5 := lowField_toNat w
  rw [e] at h1 h2 h3 h4 h5
  refine ⟨BitVec.eq_of_toNat_eq ?_, Fin.ext ?_, Fin.ext ?_, Fin.ext ?_, BitVec.eq_of_toNat_eq ?_⟩
  · rw [h1, BitVec.toNat_ofNat]; omega
  · omega
  · omega
  · omega
  · rw [h5, BitVec.toNat_ofNat]; omega

/-- The fields of an encoded word of format C. -/
theorem fields_encodeC {op : Nat} (h : op < 256) (csr : CsrNum) :
    opField (encodeC op csr) = BitVec.ofNat 8 op ∧ midField (encodeC op csr) = 0#12 ∧
    lowField (encodeC op csr) = csr := by
  have e := encodeC_toNat h csr
  have := csr.isLt
  generalize encodeC op csr = w at e
  have h1 := opField_toNat w
  have h2 := midField_toNat w
  have h3 := lowField_toNat w
  rw [e] at h1 h2 h3
  refine ⟨BitVec.eq_of_toNat_eq ?_, BitVec.eq_of_toNat_eq ?_, BitVec.eq_of_toNat_eq ?_⟩
  · rw [h1, BitVec.toNat_ofNat]; omega
  · rw [h2, BitVec.toNat_ofNat]; omega
  · omega

/-- What `ifZero` answers when it answers a command. -/
theorem ifZero_eq_instr {z : Bool} {i j : Instr} : ifZero z i = .instr j ↔ z = true ∧ i = j := by
  cases z <;> simp [ifZero]

/-- The number a concatenation is: the left part in the more significant bits (R7). -/
theorem append_toNat {n m : Nat} (x : BitVec n) (y : BitVec m) :
    (x ++ y).toNat = x.toNat * 2 ^ m + y.toNat := by
  rw [BitVec.toNat_append, ← Nat.shiftLeft_add_eq_or_of_lt y.isLt, Nat.shiftLeft_eq]

/-- A word from its five fields of format R. -/
def joinFields (a : BitVec 8) (b c d : BitVec 4) (e : BitVec 12) : CmdWord := a ++ b ++ c ++ d ++ e

theorem joinFields_toNat (a : BitVec 8) (b c d : BitVec 4) (e : BitVec 12) :
    (joinFields a b c d e).toNat =
      a.toNat * 2 ^ 24 + b.toNat * 2 ^ 20 + c.toNat * 2 ^ 16 + d.toNat * 2 ^ 12 + e.toNat := by
  simp only [joinFields, append_toNat]
  omega

theorem joinFields_and (a a' : BitVec 8) (b b' c c' d d' : BitVec 4) (e e' : BitVec 12) :
    joinFields a b c d e &&& joinFields a' b' c' d' e' =
      joinFields (a &&& a') (b &&& b') (c &&& c') (d &&& d') (e &&& e') := by
  simp only [joinFields, ← BitVec.and_append]

theorem joinFields_inj {a a' : BitVec 8} {b b' c c' d d' : BitVec 4} {e e' : BitVec 12} :
    joinFields a b c d e = joinFields a' b' c' d' e' ↔ a = a' ∧ b = b' ∧ c = c' ∧ d = d' ∧ e = e' := by
  constructor
  · intro h
    have h := congrArg BitVec.toNat h
    rw [joinFields_toNat, joinFields_toNat] at h
    have := a.isLt; have := a'.isLt; have := b.isLt; have := b'.isLt; have := c.isLt; have := c'.isLt
    have := d.isLt; have := d'.isLt; have := e.isLt; have := e'.isLt
    refine ⟨BitVec.eq_of_toNat_eq ?_, BitVec.eq_of_toNat_eq ?_, BitVec.eq_of_toNat_eq ?_,
      BitVec.eq_of_toNat_eq ?_, BitVec.eq_of_toNat_eq ?_⟩ <;> omega
  · rintro ⟨rfl, rfl, rfl, rfl, rfl⟩; rfl

theorem encodeR_eq_join {op : Nat} (h : op < 256) (rd ra rb : Reg) :
    encodeR op rd ra rb =
      joinFields (BitVec.ofNat 8 op) (BitVec.ofFin rd) (BitVec.ofFin ra) (BitVec.ofFin rb) 0#12 := by
  apply BitVec.eq_of_toNat_eq
  rw [encodeR_toNat h, joinFields_toNat]
  simp only [BitVec.toNat_ofNat, BitVec.toNat_ofFin]
  omega

theorem encodeC_eq_join {op : Nat} (h : op < 256) (csr : CsrNum) :
    encodeC op csr = joinFields (BitVec.ofNat 8 op) 0#4 0#4 0#4 csr := by
  apply BitVec.eq_of_toNat_eq
  rw [encodeC_toNat h, joinFields_toNat]
  simp only [BitVec.toNat_ofNat]
  omega

theorem word_eq_join (w : CmdWord) :
    w = joinFields (opField w) (BitVec.ofFin (rdField w)) (BitVec.ofFin (raField w))
      (BitVec.ofFin (rbField w)) (lowField w) := by
  apply BitVec.eq_of_toNat_eq
  have h1 := opField_toNat w
  have h2 := rdField_val w
  have h3 := raField_val w
  have h4 := rbField_val w
  have h5 := lowField_toNat w
  have := w.isLt
  rw [joinFields_toNat]
  simp only [BitVec.toNat_ofFin]
  omega

end Sys2Proof
end

