-- ==== Sys2Proof/Laws/Float.lean ====
section
/-! SUPPORT. What the float functions do: the three fields of a pattern, the free NaN, and the range of a rounded
pattern. -/

namespace Sys2Proof.Machine

/-- The fraction field of a pattern given by its parts. -/
theorem fracField_parts (f : FloatFmt) (s e m : Nat) (hm : m < 2 ^ f.p) :
    f.fracField (s * 2 ^ (f.w + f.p) + e * 2 ^ f.p + m) = m := by
  unfold FloatFmt.fracField
  rw [pow_add, show s * (2 ^ f.w * 2 ^ f.p) + e * 2 ^ f.p + m = m + 2 ^ f.p * (s * 2 ^ f.w + e) by ring,
    Nat.add_mul_mod_self_left, Nat.mod_eq_of_lt hm]

/-- The exponent field of a pattern given by its parts. -/
theorem expField_parts (f : FloatFmt) (s e m : Nat) (he : e < 2 ^ f.w) (hm : m < 2 ^ f.p) :
    f.expField (s * 2 ^ (f.w + f.p) + e * 2 ^ f.p + m) = e := by
  unfold FloatFmt.expField
  rw [pow_add, show s * (2 ^ f.w * 2 ^ f.p) + e * 2 ^ f.p + m = m + 2 ^ f.p * (e + 2 ^ f.w * s) by ring,
    Nat.add_mul_div_left _ _ (by positivity), Nat.div_eq_of_lt hm, zero_add, Nat.add_mul_mod_self_left,
    Nat.mod_eq_of_lt he]

/-- The free NaN is a NaN, whatever the raw value (D15, U6). -/
theorem nanPattern_isNan (f : FloatFmt) (hp : 0 < f.p) (hw : 0 < f.w) (raw : Nat) :
    isNan f (nanPattern f raw) = true := by
  have hfrac : f.fracField raw < 2 ^ f.p := Nat.mod_lt _ (by positivity)
  have h2p : 2 ≤ 2 ^ f.p := by
    calc 2 = 2 ^ 1 := rfl
      _ ≤ 2 ^ f.p := Nat.pow_le_pow_right (by norm_num) hp
  have h2w : 2 ≤ 2 ^ f.w := by
    calc 2 = 2 ^ 1 := rfl
      _ ≤ 2 ^ f.w := Nat.pow_le_pow_right (by norm_num) hw
  obtain ⟨s, m, hm0, hm, heq⟩ : ∃ s m, m ≠ 0 ∧ m < 2 ^ f.p ∧
      nanPattern f raw = s * 2 ^ (f.w + f.p) + (2 ^ f.w - 1) * 2 ^ f.p + m := by
    refine ⟨if f.signBit raw then 1 else 0, if f.fracField raw = 0 then 1 else f.fracField raw, ?_, ?_, ?_⟩
    · split <;> omega
    · split <;> omega
    · simp only [nanPattern, withSign, FloatFmt.signWeight, FloatFmt.infPattern]
      split <;> ring
  have he := expField_parts f s (2 ^ f.w - 1) m (by omega) hm
  have hf := fracField_parts f s (2 ^ f.w - 1) m hm
  simp [isNan, floatVal, heq, he, hf, hm0]

/-- A rounded pattern is at most infinity. -/
theorem roundPattern_le (f : FloatFmt) (m : Nat) (e : Int) : roundPattern f m e ≤ f.infPattern := by
  unfold roundPattern
  split
  · exact Nat.zero_le _
  · exact Nat.min_le_right _ _

end Sys2Proof.Machine
end

