-- ==== Sys2Proof/Laws/Iterator.lean ====
section
/-! SUPPORT. What a run of the iterator is: how often each phase repeats its update, and what the update, the switch and
the end leave alone. -/

namespace Sys2Proof.Machine

theorem ofNat_add_ofNat (k l : Nat) : BitVec.ofNat 32 k + BitVec.ofNat 32 l = BitVec.ofNat 32 (k + l) := by
  rw [BitVec.ofNat_add]

/-- A loop runs its update some `k` times, each time because it was to go on, and stops at the bound or where it is to
leave. -/
theorem repeatWhile_spec (c : Eti → Bool) (u : Eti → Eti) (n : Nat) (e : Eti) :
    ∃ k ≤ n, repeatWhile c u n e = u^[k] e ∧ (∀ j < k, c (u^[j] e) = true) ∧ (k = n ∨ c (u^[k] e) = false) := by
  induction n generalizing e with
  | zero => exact ⟨0, le_refl _, rfl, by simp, .inl rfl⟩
  | succ n ih =>
    unfold repeatWhile
    split
    · rename_i hc
      obtain ⟨k, hk, h1, h2, h3⟩ := ih (u e)
      refine ⟨k + 1, by omega, by rw [h1]; rfl, ?_, h3.imp (by omega) id⟩
      intro j hj
      cases j with
      | zero => exact hc
      | succ j => exact h2 j (by omega)
    · rename_i hc
      exact ⟨0, by omega, rfl, by simp, .inr (by simpa using hc)⟩

/-- `k` fixed-phase updates count `k` and leave the phase and `c`. -/
theorem fixedStep_iterate (e : Eti) (k : Nat) :
    (fixedStep^[k] e).i = e.i + BitVec.ofNat 32 k ∧ (fixedStep^[k] e).phase = e.phase ∧
      (fixedStep^[k] e).cxq = e.cxq ∧ (fixedStep^[k] e).cyq = e.cyq := by
  induction k with
  | zero => simp
  | succ k ih =>
    rw [Function.iterate_succ_apply']
    simp only [fixedStep, ih]
    simp [BitVec.ofNat_add, BitVec.add_assoc]

/-- `k` float-phase updates count `k` and leave the phase, `c`, the switch index and the fixed-point orbit. -/
theorem floatStep_iterate (e : Eti) (k : Nat) :
    (floatStep^[k] e).i = e.i + BitVec.ofNat 32 k ∧ (floatStep^[k] e).phase = e.phase ∧
      (floatStep^[k] e).cxq = e.cxq ∧ (floatStep^[k] e).cyq = e.cyq ∧ (floatStep^[k] e).isw = e.isw ∧
      (floatStep^[k] e).xq = e.xq ∧ (floatStep^[k] e).yq = e.yq ∧
      (floatStep^[k] e).cxf = e.cxf ∧ (floatStep^[k] e).cyf = e.cyf := by
  induction k with
  | zero => simp
  | succ k ih =>
    rw [Function.iterate_succ_apply']
    simp only [floatStep, ih]
    simp [BitVec.ofNat_add, BitVec.add_assoc]

section
variable (cap : BitVec 32) (e : Eti)

@[simp] theorem etiFinish_phase : (etiFinish cap e).phase = .done := by unfold etiFinish; split <;> rfl
@[simp] theorem etiFinish_i : (etiFinish cap e).i = e.i := by unfold etiFinish; split <;> rfl
@[simp] theorem etiFinish_isw : (etiFinish cap e).isw = e.isw := by unfold etiFinish; split <;> rfl
@[simp] theorem etiFinish_xq : (etiFinish cap e).xq = e.xq := by unfold etiFinish; split <;> rfl
@[simp] theorem etiFinish_yq : (etiFinish cap e).yq = e.yq := by unfold etiFinish; split <;> rfl
@[simp] theorem etiFinish_cxq : (etiFinish cap e).cxq = e.cxq := by unfold etiFinish; split <;> rfl
@[simp] theorem etiFinish_cyq : (etiFinish cap e).cyq = e.cyq := by unfold etiFinish; split <;> rfl
@[simp] theorem etiFinish_xf : (etiFinish cap e).xf = e.xf := by unfold etiFinish; split <;> rfl
@[simp] theorem etiFinish_yf : (etiFinish cap e).yf = e.yf := by unfold etiFinish; split <;> rfl
@[simp] theorem etiFinish_cxf : (etiFinish cap e).cxf = e.cxf := by unfold etiFinish; split <;> rfl
@[simp] theorem etiFinish_cyf : (etiFinish cap e).cyf = e.cyf := by unfold etiFinish; split <;> rfl

theorem etiFinish_capped : (etiFinish cap e).capped = decide (cap ≤ e.i) := by
  unfold etiFinish
  split <;> simp_all

end

/-- A run: `k` fixed-phase updates, the switch, `l` float-phase updates, the end. Each update was to be made, each phase
was to be left, and the two counts together stay within the cap. -/
theorem iterate_spec (cap : BitVec 32) (e : Eti) (cx cy : Q) :
    ∃ k l : Nat,
      let start := etiStart e cx cy
      let atSwitch := etiSwitch (fixedStep^[k] start)
      iterate cap e cx cy = etiFinish cap (floatStep^[l] atSwitch) ∧ k + l ≤ cap.toNat ∧
      (∀ j < k, fixedContinues cap (fixedStep^[j] start) = true) ∧
      fixedContinues cap (fixedStep^[k] start) = false ∧
      (∀ j < l, floatContinues cap (floatStep^[j] atSwitch) = true) ∧
      floatContinues cap (floatStep^[l] atSwitch) = false := by
  have hcap := cap.isLt
  obtain ⟨k, hk, h1, h2, h3⟩ := repeatWhile_spec (fixedContinues cap) fixedStep cap.toNat (etiStart e cx cy)
  obtain ⟨l, hl, g1, g2, g3⟩ :=
    repeatWhile_spec (floatContinues cap) floatStep cap.toNat (etiSwitch (fixedStep^[k] (etiStart e cx cy)))
  have hi0 : (etiStart e cx cy).i = 0#32 := rfl
  have hik : (fixedStep^[k] (etiStart e cx cy)).i = BitVec.ofNat 32 k := by
    rw [(fixedStep_iterate _ _).1, hi0, BitVec.zero_add]
  have hiw : (etiSwitch (fixedStep^[k] (etiStart e cx cy))).i = BitVec.ofNat 32 k := hik
  have hkl : k + l ≤ cap.toNat := by
    by_contra hc
    have hgo := g2 (cap.toNat - k) (by omega)
    simp only [floatContinues, Bool.and_eq_true, decide_eq_true_eq] at hgo
    have hlt := hgo.1
    rw [(floatStep_iterate _ _).1, hiw, ofNat_add_ofNat, BitVec.lt_def, BitVec.toNat_ofNat,
      Nat.mod_eq_of_lt (by omega)] at hlt
    omega
  refine ⟨k, l, by simp only [iterate, fixedPhase, floatPhase, h1, g1], hkl, h2, ?_, g2, ?_⟩
  · rcases h3 with h3 | h3
    · simp only [fixedContinues]
      rw [hik, h3]
      simp
    · exact h3
  · rcases g3 with g3 | g3
    · have hk0 : k = 0 := by omega
      simp only [floatContinues]
      rw [(floatStep_iterate _ _).1, hiw, ofNat_add_ofNat, hk0, g3]
      simp
    · exact g3

theorem iterData_toNat (e : Eti) :
    (iterData e).toNat = (BitVec.ofBool e.capped).toNat * 2 ^ 64 + e.res.toNat := by
  unfold iterData
  rw [BitVec.toNat_setWidth, append_toNat]
  have := e.res.isLt
  have : (BitVec.ofBool e.capped).toNat < 2 := (BitVec.ofBool e.capped).isLt
  omega

end Sys2Proof.Machine
end

