-- ==== Sys2Proof/Laws/State.lean ====
section
/-! SUPPORT. One lemma per field per update of the state, and reading registers through the updates. -/

namespace Sys2Proof.Machine

variable (s : State)

section
variable (r : Reg) (v : Q)

@[simp] theorem State.writeQ_q : (s.writeQ r v).q = s.q.set r v := rfl
@[simp] theorem State.writeQ_err : (s.writeQ r v).err = s.err := rfl
@[simp] theorem State.writeQ_errCode : (s.writeQ r v).errCode = s.errCode := rfl
@[simp] theorem State.writeQ_errCmd : (s.writeQ r v).errCmd = s.errCmd := rfl
@[simp] theorem State.writeQ_maxIter : (s.writeQ r v).maxIter = s.maxIter := rfl
@[simp] theorem State.writeQ_eti : (s.writeQ r v).eti = s.eti := rfl
@[simp] theorem State.writeQ_port : (s.writeQ r v).port = s.port := rfl
@[simp] theorem State.writeQ_rsp : (s.writeQ r v).rsp = s.rsp := rfl
@[simp] theorem State.writeQ_host : (s.writeQ r v).host = s.host := rfl
@[simp] theorem State.writeQ_answered : (s.writeQ r v).answered = s.answered := rfl

end

section
variable (e : Eti)

@[simp] theorem State.setEti_q : (s.setEti e).q = s.q := rfl
@[simp] theorem State.setEti_err : (s.setEti e).err = s.err := rfl
@[simp] theorem State.setEti_errCode : (s.setEti e).errCode = s.errCode := rfl
@[simp] theorem State.setEti_errCmd : (s.setEti e).errCmd = s.errCmd := rfl
@[simp] theorem State.setEti_maxIter : (s.setEti e).maxIter = s.maxIter := rfl
@[simp] theorem State.setEti_eti : (s.setEti e).eti = e := rfl
@[simp] theorem State.setEti_port : (s.setEti e).port = s.port := rfl
@[simp] theorem State.setEti_rsp : (s.setEti e).rsp = s.rsp := rfl
@[simp] theorem State.setEti_host : (s.setEti e).host = s.host := rfl
@[simp] theorem State.setEti_answered : (s.setEti e).answered = s.answered := rfl
@[simp] theorem State.readQ_setEti (i : Reg) : (s.setEti e).readQ i = s.readQ i := rfl

end

section
variable (v : BitVec 32)

@[simp] theorem State.setMaxIter_q : (s.setMaxIter v).q = s.q := rfl
@[simp] theorem State.setMaxIter_err : (s.setMaxIter v).err = s.err := rfl
@[simp] theorem State.setMaxIter_errCode : (s.setMaxIter v).errCode = s.errCode := rfl
@[simp] theorem State.setMaxIter_errCmd : (s.setMaxIter v).errCmd = s.errCmd := rfl
@[simp] theorem State.setMaxIter_maxIter : (s.setMaxIter v).maxIter = v := rfl
@[simp] theorem State.setMaxIter_eti : (s.setMaxIter v).eti = s.eti := rfl
@[simp] theorem State.setMaxIter_port : (s.setMaxIter v).port = s.port := rfl
@[simp] theorem State.setMaxIter_rsp : (s.setMaxIter v).rsp = s.rsp := rfl
@[simp] theorem State.setMaxIter_host : (s.setMaxIter v).host = s.host := rfl
@[simp] theorem State.setMaxIter_answered : (s.setMaxIter v).answered = s.answered := rfl
@[simp] theorem State.readQ_setMaxIter (i : Reg) : (s.setMaxIter v).readQ i = s.readQ i := rfl

end

section
variable (d : DataWord)

@[simp] theorem State.complete_q : (s.complete d).q = s.q := rfl
@[simp] theorem State.complete_err : (s.complete d).err = s.err := rfl
@[simp] theorem State.complete_errCode : (s.complete d).errCode = s.errCode := rfl
@[simp] theorem State.complete_errCmd : (s.complete d).errCmd = s.errCmd := rfl
@[simp] theorem State.complete_maxIter : (s.complete d).maxIter = s.maxIter := rfl
@[simp] theorem State.complete_eti : (s.complete d).eti = s.eti := rfl
@[simp] theorem State.complete_port : (s.complete d).port = s.port := rfl
@[simp] theorem State.complete_rsp : (s.complete d).rsp = some ⟨.ok, d⟩ := rfl
@[simp] theorem State.complete_host : (s.complete d).host = s.host := rfl
@[simp] theorem State.complete_answered : (s.complete d).answered = s.answered := rfl
@[simp] theorem State.readQ_complete (i : Reg) : (s.complete d).readQ i = s.readQ i := rfl

end

section
variable (c : ErrCode)

@[simp] theorem State.raise_q : (s.raise c).q = s.q := rfl
@[simp] theorem State.raise_err : (s.raise c).err = true := rfl
@[simp] theorem State.raise_errCode : (s.raise c).errCode = (if s.err then s.errCode else c) := rfl
@[simp] theorem State.raise_errCmd : (s.raise c).errCmd = (if s.err then s.errCmd else s.port.cmd) := rfl
@[simp] theorem State.raise_maxIter : (s.raise c).maxIter = s.maxIter := rfl
@[simp] theorem State.raise_eti : (s.raise c).eti = s.eti := rfl
@[simp] theorem State.raise_port : (s.raise c).port = s.port := rfl
@[simp] theorem State.raise_rsp : (s.raise c).rsp = some ⟨c, 0#130⟩ := rfl
@[simp] theorem State.raise_host : (s.raise c).host = s.host := rfl
@[simp] theorem State.raise_answered : (s.raise c).answered = s.answered := rfl
@[simp] theorem State.readQ_raise (i : Reg) : (s.raise c).readQ i = s.readQ i := rfl

end

section
variable (l : List HostMove)

@[simp] theorem State.giveResponse_q : (s.giveResponse l).q = s.q := rfl
@[simp] theorem State.giveResponse_err : (s.giveResponse l).err = s.err := rfl
@[simp] theorem State.giveResponse_errCode : (s.giveResponse l).errCode = s.errCode := rfl
@[simp] theorem State.giveResponse_errCmd : (s.giveResponse l).errCmd = s.errCmd := rfl
@[simp] theorem State.giveResponse_maxIter : (s.giveResponse l).maxIter = s.maxIter := rfl
@[simp] theorem State.giveResponse_eti : (s.giveResponse l).eti = s.eti := rfl
@[simp] theorem State.giveResponse_port : (s.giveResponse l).port = s.port := rfl
@[simp] theorem State.giveResponse_rsp : (s.giveResponse l).rsp = none := rfl
@[simp] theorem State.giveResponse_host : (s.giveResponse l).host = l := rfl
@[simp] theorem State.giveResponse_answered : (s.giveResponse l).answered = s.answered ++ s.rsp.toList := rfl
@[simp] theorem State.readQ_giveResponse (i : Reg) : (s.giveResponse l).readQ i = s.readQ i := rfl

end

section
variable (c : CmdWord) (w : DataWord) (l : List HostMove)

@[simp] theorem State.accept_q : (s.accept c w l).q = s.q := rfl
@[simp] theorem State.accept_err : (s.accept c w l).err = s.err := rfl
@[simp] theorem State.accept_errCode : (s.accept c w l).errCode = s.errCode := rfl
@[simp] theorem State.accept_errCmd : (s.accept c w l).errCmd = s.errCmd := rfl
@[simp] theorem State.accept_maxIter : (s.accept c w l).maxIter = s.maxIter := rfl
@[simp] theorem State.accept_eti : (s.accept c w l).eti = s.eti := rfl
@[simp] theorem State.accept_port : (s.accept c w l).port = ⟨c, w⟩ := rfl
@[simp] theorem State.accept_rsp : (s.accept c w l).rsp = none := rfl
@[simp] theorem State.accept_host : (s.accept c w l).host = l := rfl
@[simp] theorem State.accept_answered : (s.accept c w l).answered = s.answered ++ s.rsp.toList := rfl
@[simp] theorem State.readQ_accept (i : Reg) : (s.accept c w l).readQ i = s.readQ i := rfl

end

section
variable (l : List HostMove)

@[simp] theorem State.assertReset_q : (s.assertReset l).q = State.reset.q := rfl
@[simp] theorem State.assertReset_err : (s.assertReset l).err = State.reset.err := rfl
@[simp] theorem State.assertReset_errCode : (s.assertReset l).errCode = State.reset.errCode := rfl
@[simp] theorem State.assertReset_errCmd : (s.assertReset l).errCmd = State.reset.errCmd := rfl
@[simp] theorem State.assertReset_maxIter : (s.assertReset l).maxIter = State.reset.maxIter := rfl
@[simp] theorem State.assertReset_eti : (s.assertReset l).eti = State.reset.eti := rfl
@[simp] theorem State.assertReset_port : (s.assertReset l).port = State.reset.port := rfl
@[simp] theorem State.assertReset_rsp : (s.assertReset l).rsp = State.reset.rsp := rfl
@[simp] theorem State.assertReset_host : (s.assertReset l).host = l := rfl
@[simp] theorem State.assertReset_answered : (s.assertReset l).answered = s.answered := rfl

end

theorem State.readQ_writeQ (r i : Reg) (v : Q) :
    (s.writeQ r v).readQ i = if i = r then v else s.readQ i := by
  unfold State.readQ State.writeQ
  by_cases h : i = r
  · subst h; simp
  · have h' : r.val ≠ i.val := fun e => h (Fin.ext e.symm)
    simp [h, h']

@[simp] theorem State.readQ_writeQ_same (r : Reg) (v : Q) : (s.writeQ r v).readQ r = v := by
  simp [State.readQ_writeQ]

theorem State.readQ_writeQ_other {r i : Reg} (h : i ≠ r) (v : Q) :
    (s.writeQ r v).readQ i = s.readQ i := by
  simp [State.readQ_writeQ, h]

@[simp] theorem State.readQ_reset (r : Reg) : State.reset.readQ r = qzeroV := by
  simp [State.readQ, State.reset, canonicalZero, qzeroV]

@[simp] theorem State.readQ_assertReset (l : List HostMove) (r : Reg) :
    (s.assertReset l).readQ r = qzeroV := State.readQ_reset r

end Sys2Proof.Machine
end

