-- ==== Sys2Proof/Laws/Ops.lean ====
section
/-! SUPPORT. What the operand forms do: packing, the literal check, CSR numbers. -/

namespace Sys2Proof.Machine

theorem signCode_toNat (s : Sign) :
    (signCode s).toNat = match s with | .negative => 3 | .neutral => 0 | .positive => 1 := by
  cases s <;> rfl

theorem signOfCode_signCode (s : Sign) : signOfCode (signCode s) = some s := by
  cases s <;> rfl

theorem signCode_of_signOfCode {c : BitVec 2} {s : Sign} (h : signOfCode c = some s) : signCode s = c := by
  revert h
  revert c
  cases s <;> decide

/-- The packed word as a number: sign code, high word, low word. -/
theorem pack_toNat (v : Q) :
    (pack v).toNat = (signCode v.sign).toNat * 2 ^ 128 + v.high.toNat * 2 ^ 64 + v.low.toNat := by
  rw [pack, append_toNat, append_toNat]
  omega

/-- A literal that is accepted is canonical and packs to the data word it came from. -/
theorem literal_spec {w : DataWord} {v : Q} (h : literal w = some v) : pack v = w ∧ v.canonical = true := by
  unfold literal at h
  simp only at h
  split at h
  · cases h
  · rename_i sg hsg
    have hcode := signCode_of_signOfCode hsg
    split at h
    · cases h
    · rename_i hzero
      split at h
      · cases h
      · rename_i hneutral
        cases h
        refine ⟨BitVec.eq_of_toNat_eq ?_, ?_⟩
        · rw [pack_toNat, hcode]
          simp only [BitVec.extractLsb'_toNat, Nat.shiftRight_eq_div_pow]
          have := w.isLt
          omega
        · have hs : sg = .neutral ↔ w.extractLsb' 128 2 = 0b00#2 := by
            rw [← hcode]; cases sg <;> decide
          rw [Q.canonical_iff]
          simp only [hs, Q.mag]
          generalize w.extractLsb' 64 64 = a at *
          generalize w.extractLsb' 0 64 = b at *
          constructor
          · intro hm
            have ha : a = 0#64 := BitVec.eq_of_toNat_eq (by simp; omega)
            have hb : b = 0#64 := BitVec.eq_of_toNat_eq (by simp; omega)
            exact not_not.1 fun hc => hzero ⟨ha, hb, hc⟩
          · intro hc
            by_contra hm
            refine hneutral ⟨?_, hc⟩
            by_contra hx
            push Not at hx
            obtain ⟨rfl, rfl⟩ := hx
            exact hm rfl

theorem csrOfNumber_eq_maxIter (n : CsrNum) : csrOfNumber n = some .maxIter ↔ n = 0x002#12 := by
  constructor
  · unfold csrOfNumber
    split <;> simp_all
  · rintro rfl; rfl

/-- A CSR write either writes `MAXITER` or is none. -/
theorem State.writeCsr_cases (s : State) (c : Csr) (w : DataWord) :
    c = .maxIter ∧ s.writeCsr c w = some (s.setMaxIter (wdata32 w)) ∨ c ≠ .maxIter ∧ s.writeCsr c w = none := by
  cases c <;> simp [State.writeCsr]

end Sys2Proof.Machine
end

