-- ==== Sys2Proof/Laws/PerInstr.lean ====
section
/-! SUPPORT. Family `RowOf`: the encoding of a command is spelled by the row of the opcode map that bears its mnemonic
(30_encoding.md R94, R95). -/

namespace Sys2Proof.Laws.RowOf

/-- Some row of the opcode map has this command's mnemonic and spells its encoding. -/
abbrev Statement (i : Instr) : Prop :=
  ∃ r ∈ opcodeTable, r.mnemonic = i.mnemonic ∧ r.spells (encode i) = true

/-- A row of format R spells an encoded word when its mask keeps the opcode, the low 12 bits and fields that are 0. -/
theorem spells_encodeR {mn : String} {pattern mask : CmdWord} {op : Nat} (h : op < 256) {b c d : BitVec 4}
    (hm : mask = joinFields 0xFF#8 b c d 0xFFF#12) (hp : pattern = joinFields (BitVec.ofNat 8 op) 0#4 0#4 0#4 0#12)
    (rd ra rb : Reg) (hb : BitVec.ofFin rd &&& b = 0#4) (hc : BitVec.ofFin ra &&& c = 0#4)
    (hd : BitVec.ofFin rb &&& d = 0#4) :
    OpcodeRow.spells ⟨mn, pattern, mask⟩ (encodeR op rd ra rb) = true := by
  have ho : BitVec.ofNat 8 op &&& 0xFF#8 = BitVec.ofNat 8 op := BitVec.and_allOnes
  simp only [OpcodeRow.spells, encodeR_eq_join h, hm, hp, joinFields_and, hb, hc, hd, ho]
  simp

/-- A row of format C spells an encoded word when its mask keeps bits 31:12. -/
theorem spells_encodeC {mn : String} {pattern : CmdWord} {op : Nat} (h : op < 256)
    (hp : pattern = joinFields (BitVec.ofNat 8 op) 0#4 0#4 0#4 0#12) (csr : CsrNum) :
    OpcodeRow.spells ⟨mn, pattern, 0xFFFFF000#32⟩ (encodeC op csr) = true := by
  have ho : BitVec.ofNat 8 op &&& 0xFF#8 = BitVec.ofNat 8 op := BitVec.and_allOnes
  have hm : 0xFFFFF000#32 = joinFields 0xFF#8 0xF#4 0xF#4 0xF#4 0#12 := rfl
  simp only [OpcodeRow.spells, encodeC_eq_join h, hm, hp, joinFields_and, ho]
  simp

theorem qzero (rd : Reg) : Statement (.qzero rd) :=
  ⟨opcodeTable[0], by simp [opcodeTable], rfl,
    spells_encodeR (op := 0x01) (b := 0#4) (c := 0xF#4) (d := 0xF#4) (by decide) rfl rfl rd 0 0
      BitVec.and_zero BitVec.zero_and BitVec.zero_and⟩

theorem qone (rd : Reg) : Statement (.qone rd) :=
  ⟨opcodeTable[1], by simp [opcodeTable], rfl,
    spells_encodeR (op := 0x02) (b := 0#4) (c := 0xF#4) (d := 0xF#4) (by decide) rfl rfl rd 0 0
      BitVec.and_zero BitVec.zero_and BitVec.zero_and⟩

theorem qld (rd : Reg) : Statement (.qld rd) :=
  ⟨opcodeTable[2], by simp [opcodeTable], rfl,
    spells_encodeR (op := 0x03) (b := 0#4) (c := 0xF#4) (d := 0xF#4) (by decide) rfl rfl rd 0 0
      BitVec.and_zero BitVec.zero_and BitVec.zero_and⟩

theorem qst (ra : Reg) : Statement (.qst ra) :=
  ⟨opcodeTable[3], by simp [opcodeTable], rfl,
    spells_encodeR (op := 0x04) (b := 0xF#4) (c := 0#4) (d := 0xF#4) (by decide) rfl rfl 0 ra 0
      BitVec.zero_and BitVec.and_zero BitVec.zero_and⟩

theorem qmov (rd ra : Reg) : Statement (.qmov rd ra) :=
  ⟨opcodeTable[4], by simp [opcodeTable], rfl,
    spells_encodeR (op := 0x05) (b := 0#4) (c := 0#4) (d := 0xF#4) (by decide) rfl rfl rd ra 0
      BitVec.and_zero BitVec.and_zero BitVec.zero_and⟩

theorem qneg (rd ra : Reg) : Statement (.qneg rd ra) :=
  ⟨opcodeTable[5], by simp [opcodeTable], rfl,
    spells_encodeR (op := 0x10) (b := 0#4) (c := 0#4) (d := 0xF#4) (by decide) rfl rfl rd ra 0
      BitVec.and_zero BitVec.and_zero BitVec.zero_and⟩

theorem qadd (rd ra rb : Reg) : Statement (.qadd rd ra rb) :=
  ⟨opcodeTable[6], by simp [opcodeTable], rfl,
    spells_encodeR (op := 0x11) (b := 0#4) (c := 0#4) (d := 0#4) (by decide) rfl rfl rd ra rb
      BitVec.and_zero BitVec.and_zero BitVec.and_zero⟩

theorem qsub (rd ra rb : Reg) : Statement (.qsub rd ra rb) :=
  ⟨opcodeTable[7], by simp [opcodeTable], rfl,
    spells_encodeR (op := 0x12) (b := 0#4) (c := 0#4) (d := 0#4) (by decide) rfl rfl rd ra rb
      BitVec.and_zero BitVec.and_zero BitVec.and_zero⟩

theorem qmul (rd ra rb : Reg) : Statement (.qmul rd ra rb) :=
  ⟨opcodeTable[8], by simp [opcodeTable], rfl,
    spells_encodeR (op := 0x13) (b := 0#4) (c := 0#4) (d := 0#4) (by decide) rfl rfl rd ra rb
      BitVec.and_zero BitVec.and_zero BitVec.and_zero⟩

theorem qcmp (ra rb : Reg) : Statement (.qcmp ra rb) :=
  ⟨opcodeTable[9], by simp [opcodeTable], rfl,
    spells_encodeR (op := 0x14) (b := 0xF#4) (c := 0#4) (d := 0#4) (by decide) rfl rfl 0 ra rb
      BitVec.zero_and BitVec.and_zero BitVec.and_zero⟩

theorem f64toq (rd : Reg) : Statement (.f64toq rd) :=
  ⟨opcodeTable[10], by simp [opcodeTable], rfl,
    spells_encodeR (op := 0x20) (b := 0#4) (c := 0xF#4) (d := 0xF#4) (by decide) rfl rfl rd 0 0
      BitVec.and_zero BitVec.zero_and BitVec.zero_and⟩

theorem f32toq (rd : Reg) : Statement (.f32toq rd) :=
  ⟨opcodeTable[11], by simp [opcodeTable], rfl,
    spells_encodeR (op := 0x21) (b := 0#4) (c := 0xF#4) (d := 0xF#4) (by decide) rfl rfl rd 0 0
      BitVec.and_zero BitVec.zero_and BitVec.zero_and⟩

theorem qtof64 (ra : Reg) : Statement (.qtof64 ra) :=
  ⟨opcodeTable[12], by simp [opcodeTable], rfl,
    spells_encodeR (op := 0x22) (b := 0xF#4) (c := 0#4) (d := 0xF#4) (by decide) rfl rfl 0 ra 0
      BitVec.zero_and BitVec.and_zero BitVec.zero_and⟩

theorem qtof32 (ra : Reg) : Statement (.qtof32 ra) :=
  ⟨opcodeTable[13], by simp [opcodeTable], rfl,
    spells_encodeR (op := 0x23) (b := 0xF#4) (c := 0#4) (d := 0xF#4) (by decide) rfl rfl 0 ra 0
      BitVec.zero_and BitVec.and_zero BitVec.zero_and⟩

theorem qtoi8 (ra : Reg) : Statement (.qtoi8 ra) :=
  ⟨opcodeTable[14], by simp [opcodeTable], rfl,
    spells_encodeR (op := 0x24) (b := 0xF#4) (c := 0#4) (d := 0xF#4) (by decide) rfl rfl 0 ra 0
      BitVec.zero_and BitVec.and_zero BitVec.zero_and⟩

theorem iter (ra rb : Reg) : Statement (.iter ra rb) :=
  ⟨opcodeTable[15], by simp [opcodeTable], rfl,
    spells_encodeR (op := 0x30) (b := 0xF#4) (c := 0#4) (d := 0#4) (by decide) rfl rfl 0 ra rb
      BitVec.zero_and BitVec.and_zero BitVec.and_zero⟩

theorem csrr (csr : CsrNum) : Statement (.csrr csr) :=
  ⟨opcodeTable[16], by simp [opcodeTable], rfl, spells_encodeC (op := 0x40) (by decide) rfl csr⟩

theorem csrw (csr : CsrNum) : Statement (.csrw csr) :=
  ⟨opcodeTable[17], by simp [opcodeTable], rfl, spells_encodeC (op := 0x41) (by decide) rfl csr⟩

end Sys2Proof.Laws.RowOf
end

