-- ==== Sys2Proof/Laws/Step.lean ====
section
/-! SUPPORT. Everything a command can do to the parts of the state that are not its own result, and everything a step
that takes a command can be. -/

namespace Sys2Proof.Machine

/-- A command completes and leaves the error record, or faults for one of the two reasons of R251 and R252. -/
theorem exec_cases (i : Instr) (s : State) :
    ∃ t, exec i s = .next t ∧ t.port = s.port ∧ t.host = s.host ∧ t.answered = s.answered ∧
      ((∃ d, t.rsp = some ⟨.ok, d⟩ ∧ t.err = s.err ∧ t.errCode = s.errCode ∧ t.errCmd = s.errCmd) ∨
       ((∃ rd, i = .qld rd) ∧ t = s.raise .invalidLiteral) ∨
       (((∃ n, i = .csrr n) ∨ ∃ n, i = .csrw n) ∧ t = s.raise .illegalCsr)) := by
  cases i
  case qld rd =>
    simp only [exec, execQld]
    split
    · exact ⟨_, rfl, rfl, rfl, rfl, .inl ⟨_, rfl, rfl, rfl, rfl⟩⟩
    · exact ⟨_, rfl, rfl, rfl, rfl, .inr (.inl ⟨⟨_, rfl⟩, rfl⟩)⟩
  case csrr n =>
    simp only [exec, execCsrr]
    split
    · exact ⟨_, rfl, rfl, rfl, rfl, .inl ⟨_, rfl, rfl, rfl, rfl⟩⟩
    · exact ⟨_, rfl, rfl, rfl, rfl, .inr (.inr ⟨.inl ⟨_, rfl⟩, rfl⟩)⟩
  case csrw n =>
    simp only [exec, execCsrw]
    split
    · rename_i c hc
      cases c <;> first
        | exact ⟨_, rfl, rfl, rfl, rfl, .inl ⟨_, rfl, rfl, rfl, rfl⟩⟩
        | exact ⟨_, rfl, rfl, rfl, rfl, .inr (.inr ⟨.inr ⟨_, rfl⟩, rfl⟩)⟩
    · exact ⟨_, rfl, rfl, rfl, rfl, .inr (.inr ⟨.inr ⟨_, rfl⟩, rfl⟩)⟩
  all_goals exact ⟨_, rfl, rfl, rfl, rfl, .inl ⟨_, rfl, rfl, rfl, rfl⟩⟩

/-- A step that takes a command runs the command it decodes to, or raises `ILLEGAL_COMMAND`. -/
theorem step_command_cases {s t : State} {cmd : CmdWord} {wdata : DataWord} {rest : List HostMove}
    (hh : s.host = .command cmd wdata :: rest) (hs : step s = .next t) :
    (∃ i, decode cmd = .instr i ∧ exec i (s.accept cmd wdata rest) = .next t) ∨
    (∃ why, decode cmd = .illegal why) ∧ t = (s.accept cmd wdata rest).raise .illegalCommand := by
  cases hd : decode cmd with
  | instr i =>
    simp only [step, hh, hd] at hs
    exact .inl ⟨i, rfl, hs⟩
  | illegal why =>
    simp only [step, hh, hd, Host.Outcome.next.injEq] at hs
    exact .inr ⟨⟨why, rfl⟩, hs.symm⟩

end Sys2Proof.Machine
end

