-- ==== Sys2Proof/Tests/Slice0.lean ====
section
/-! SUPPORT. The model's own tests. Expected values are the vectors of 95_test_vectors.md, by section, unless a comment
says otherwise; a test is about one step on a small state. The last part shows, for every statement with hypotheses, a
concrete state and operands that meet them together. -/

namespace Sys2Proof.Tests

open Sys2Proof.Machine Sys2Proof.Claims

-- One theorem after another: the tests' kernel evaluations would otherwise each hold a thread of the compiler.
set_option Elab.async false

/-- The reset state with `q1 = a` and `q2 = b`, and one command offered. -/
def given (a b : Q) (cmd : CmdWord) (wdata : DataWord) : State :=
  { State.reset with q := (State.reset.q.set 1 a).set 2 b, host := [.command cmd wdata] }

/-- The next state of a step, none if it stops. -/
def after (s : State) : Option State :=
  match step s with
  | .next t => some t
  | .fault _ => none
  | .refused _ => none

/-- The response of a step. -/
def answer (s : State) : Option Response :=
  (after s).bind State.rsp

/-- A register after a step, and the response. -/
def regAfter (s : State) (r : Reg) : Option (Q × Option Response) :=
  (after s).map fun t => (t.readQ r, t.rsp)

/-- The response of a command that completes. -/
def ok (d : DataWord) : Option Response :=
  some ⟨.ok, d⟩

/-! ## Well-formedness: each check with ill-formed data it refuses -/

theorem test_canonical_refuses_positive_zero : Q.canonical ⟨.positive, 0#64, 0#64⟩ = false := by decide

theorem test_canonical_refuses_negative_zero : Q.canonical ⟨.negative, 0#64, 0#64⟩ = false := by decide

theorem test_canonical_refuses_neutral_magnitude :
    Q.canonical ⟨.neutral, 0#64, 5#64⟩ = false ∧ Q.canonical ⟨.neutral, 5#64, 0#64⟩ = false := by decide +kernel

theorem test_canonical_accepts :
    Q.canonical ⟨.neutral, 0#64, 0#64⟩ = true ∧ Q.canonical ⟨.negative, 0#64, 5#64⟩ = true := by decide +kernel

/-- The illegal words of section 5.1. -/
theorem test_legalWord_refuses :
    ([0x00000000#32, 0xFFFFFFFF#32, 0x11312001#32, 0x11312800#32, 0x01510000#32, 0x01501000#32, 0x04130000#32,
      0x05651000#32, 0x14112000#32, 0x22110000#32, 0x30112000#32, 0x40001002#32, 0x41100002#32, 0x06000000#32,
      0x15000000#32, 0x25000000#32, 0x31000000#32, 0x42000000#32].all fun w => !legalWord w) = true := by
  decide +kernel

/-- The same words are refused by name by the decoder. -/
theorem test_decode_refuses :
    ([0x00000000#32, 0xFFFFFFFF#32, 0x06000000#32, 0x15000000#32, 0x25000000#32, 0x31000000#32, 0x42000000#32].all
      fun w => decode w == .illegal .undefinedOpcode) = true ∧
    ([0x11312001#32, 0x11312800#32, 0x01510000#32, 0x01501000#32, 0x04130000#32, 0x05651000#32, 0x14112000#32,
      0x22110000#32, 0x30112000#32, 0x40001002#32, 0x41100002#32].all
      fun w => decode w == .illegal .mustBeZero) = true := by
  decide +kernel

/-- The three bad literals of section 5.2, and the good one. -/
theorem test_literal_checks :
    literal 0x200000000000000000000000000000005#130 = none ∧ literal 0x100000000000000000000000000000000#130 = none ∧
    literal 0x000000000000000000000000000000005#130 = none ∧
    literal 0x300000000000000000000000000000005#130 = some ⟨.negative, 0#64, 5#64⟩ := by
  decide +kernel

/-! ## Decoding: the words of section 5.1, one for every constructor -/

theorem test_decode_qzero : decode 0x01500000#32 = .instr (.qzero 5) ∧ encode (.qzero 5) = 0x01500000#32 := by
  decide +kernel

theorem test_decode_qone : decode 0x02F00000#32 = .instr (.qone 15) ∧ encode (.qone 15) = 0x02F00000#32 := by
  decide +kernel

theorem test_decode_qld : decode 0x03200000#32 = .instr (.qld 2) ∧ encode (.qld 2) = 0x03200000#32 := by
  decide +kernel

theorem test_decode_qst : decode 0x04030000#32 = .instr (.qst 3) ∧ encode (.qst 3) = 0x04030000#32 := by
  decide +kernel

theorem test_decode_qmov : decode 0x05650000#32 = .instr (.qmov 6 5) ∧ encode (.qmov 6 5) = 0x05650000#32 := by
  decide +kernel

theorem test_decode_qneg : decode 0x10430000#32 = .instr (.qneg 4 3) ∧ encode (.qneg 4 3) = 0x10430000#32 := by
  decide +kernel

theorem test_decode_qadd : decode 0x11312000#32 = .instr (.qadd 3 1 2) ∧ encode (.qadd 3 1 2) = 0x11312000#32 := by
  decide +kernel

theorem test_decode_qsub : decode 0x12321000#32 = .instr (.qsub 3 2 1) ∧ encode (.qsub 3 2 1) = 0x12321000#32 := by
  decide +kernel

theorem test_decode_qmul : decode 0x13533000#32 = .instr (.qmul 5 3 3) ∧ encode (.qmul 5 3 3) = 0x13533000#32 := by
  decide +kernel

theorem test_decode_qcmp : decode 0x1407F000#32 = .instr (.qcmp 7 15) ∧ encode (.qcmp 7 15) = 0x1407F000#32 := by
  decide +kernel

theorem test_decode_f64toq : decode 0x20100000#32 = .instr (.f64toq 1) ∧ encode (.f64toq 1) = 0x20100000#32 := by
  decide +kernel

theorem test_decode_f32toq : decode 0x21200000#32 = .instr (.f32toq 2) ∧ encode (.f32toq 2) = 0x21200000#32 := by
  decide +kernel

theorem test_decode_qtof64 : decode 0x22010000#32 = .instr (.qtof64 1) ∧ encode (.qtof64 1) = 0x22010000#32 := by
  decide +kernel

theorem test_decode_qtof32 : decode 0x23010000#32 = .instr (.qtof32 1) ∧ encode (.qtof32 1) = 0x23010000#32 := by
  decide +kernel

theorem test_decode_qtoi8 : decode 0x24010000#32 = .instr (.qtoi8 1) ∧ encode (.qtoi8 1) = 0x24010000#32 := by
  decide +kernel

theorem test_decode_iter : decode 0x30012000#32 = .instr (.iter 1 2) ∧ encode (.iter 1 2) = 0x30012000#32 := by
  decide +kernel

theorem test_decode_csrr : decode 0x40000002#32 = .instr (.csrr 0x002#12) ∧ encode (.csrr 0x002#12) = 0x40000002#32 := by
  decide +kernel

theorem test_decode_csrw : decode 0x41000002#32 = .instr (.csrw 0x002#12) ∧ encode (.csrw 0x002#12) = 0x41000002#32 := by
  decide +kernel

theorem test_decode_csrr_undefined : decode 0x40000FFF#32 = .instr (.csrr 0xFFF#12) := by decide +kernel

/-- The opcode table's row for `QADD` as the host numbers its bits. -/
theorem test_decodeTableWord : decodeTableWord 32 0x11312000 = some (.qadd 3 1 2) := by decide +kernel

/-! ## One step of each command -/

/-- R122: `QZERO q1`. -/
theorem test_qzero :
    regAfter (given ⟨.positive, 0x0123456789ABCDEF#64, 0xFEDCBA9876543210#64⟩
      canonicalZero
      0x01100000#32 0#130) 1 =
      some (canonicalZero, ok 0#130) := by
  decide +kernel

/-- R123 and section 5.2: `QONE q1`. -/
theorem test_qone :
    regAfter (given canonicalZero
      canonicalZero
      0x02100000#32 0#130) 1 =
      some (⟨.positive, 0x0100000000000000#64, 0#64⟩, ok 0#130) := by
  decide +kernel

/-- Section 5.2: `QLD q2` of the canonical literal. -/
theorem test_qld :
    regAfter (given canonicalZero
      canonicalZero
      0x03200000#32 0x300000000000000000000000000000005#130) 2 =
      some (⟨.negative, 0#64, 0x0000000000000005#64⟩, ok 0#130) := by
  decide +kernel

/-- Section 5.2: the reserved sign code; `STATUS = 0x31`, `ERRCMD = 0x03200000`. -/
theorem test_qld_fault :
    answer (given ⟨.positive, 0x0100000000000000#64, 0#64⟩
      canonicalZero
      0x03200000#32 0x200000000000000000000000000000005#130) = some ⟨.invalidLiteral, 0#130⟩ ∧
    (after (given ⟨.positive, 0x0100000000000000#64, 0#64⟩
      canonicalZero
      0x03200000#32 0x200000000000000000000000000000005#130)).map
      (fun t => (t.readQ 2, t.readCsr .status, t.readCsr .errCmd)) =
      some (canonicalZero, 0x31#130, 0x03200000#130) := by
  decide +kernel

/-- Section 5.2: `QST q2`. -/
theorem test_qst :
    answer (given canonicalZero
      ⟨.positive, 0x0200000000000000#64, 0#64⟩
      0x04020000#32 0#130) =
      ok 0x102000000000000000000000000000000#130 := by
  decide +kernel

/-- R126: `QMOV q6, q1`. -/
theorem test_qmov :
    regAfter (given ⟨.negative, 0x00FFFFFFFFFFFFFF#64, 0xFFFFFFFFFFFFFFFF#64⟩
      canonicalZero
      0x05610000#32 0#130) 6 =
      some (⟨.negative, 0x00FFFFFFFFFFFFFF#64, 0xFFFFFFFFFFFFFFFF#64⟩, ok 0#130) := by
  decide +kernel

/-- Section 2.3. -/
theorem test_qneg :
    regAfter (given ⟨.negative, 0x0180000000000000#64, 0#64⟩
      canonicalZero
      0x10110000#32 0#130) 1 =
      some (⟨.positive, 0x0180000000000000#64, 0#64⟩, ok 0#130) := by
  decide +kernel

/-- Section 2.3. -/
theorem test_qneg_zero :
    regAfter (given canonicalZero
      ⟨.positive, 0x0100000000000000#64, 0#64⟩
      0x10210000#32 0#130) 2 =
      some (canonicalZero, ok 0#130) := by
  decide +kernel

/-- Section 2.1. -/
theorem test_qadd_full_width :
    regAfter (given ⟨.positive, 0x0123456789ABCDEF#64, 0xFEDCBA9876543210#64⟩
      ⟨.negative, 0x00FFFFFFFFFFFFFF#64, 0xFFFFFFFFFFFFFFFF#64⟩
      0x11312000#32 0#130) 3 =
      some (⟨.positive, 0x0023456789ABCDEF#64, 0xFEDCBA9876543211#64⟩, ok 0#130) := by
  decide +kernel

/-- Section 2.1: 128 + 128; the destination is a source. -/
theorem test_qadd_wraps_to_zero :
    regAfter (given ⟨.positive, 0x8000000000000000#64, 0#64⟩
      canonicalZero
      0x11111000#32 0#130) 1 =
      some (canonicalZero, ok 0#130) := by
  decide +kernel

/-- Section 2.2. -/
theorem test_qsub_full_width :
    regAfter (given ⟨.positive, 0x0123456789ABCDEF#64, 0xFEDCBA9876543210#64⟩
      ⟨.negative, 0x00FFFFFFFFFFFFFF#64, 0xFFFFFFFFFFFFFFFF#64⟩
      0x12312000#32 0#130) 3 =
      some (⟨.positive, 0x0223456789ABCDEF#64, 0xFEDCBA987654320F#64⟩, ok 0#130) := by
  decide +kernel

/-- Section 2.2: 0.5 - 2; the destination is a source. -/
theorem test_qsub_order :
    regAfter (given ⟨.positive, 0x0080000000000000#64, 0#64⟩
      ⟨.positive, 0x0200000000000000#64, 0#64⟩
      0x12212000#32 0#130) 2 =
      some (⟨.negative, 0x0180000000000000#64, 0#64⟩, ok 0#130) := by
  decide +kernel

/-- Section 3. -/
theorem test_qmul_full_width :
    regAfter (given ⟨.positive, 0x0123456789ABCDEF#64, 0xFEDCBA9876543210#64⟩
      ⟨.negative, 0x00FFFFFFFFFFFFFF#64, 0xFFFFFFFFFFFFFFFF#64⟩
      0x13312000#32 0#130) 3 =
      some (⟨.negative, 0x0123456789ABCDEF#64, 0xFEDCBA987654320E#64⟩, ok 0#130) := by
  decide +kernel

/-- Section 3: -272 wraps to -16. -/
theorem test_qmul_wraps :
    regAfter (given ⟨.positive, 0x1000000000000000#64, 0#64⟩
      ⟨.negative, 0x1100000000000000#64, 0#64⟩
      0x13312000#32 0#130) 3 =
      some (⟨.negative, 0x1000000000000000#64, 0#64⟩, ok 0#130) := by
  decide +kernel

/-- Section 2.4: both Negative, the order of the magnitudes is reversed. -/
theorem test_qcmp_negatives :
    answer (given ⟨.negative, 0x0000000000000001#64, 0#64⟩
      ⟨.negative, 0#64, 0xFFFFFFFFFFFFFFFF#64⟩
      0x14012000#32 0#130) = ok 0b11#130 := by
  decide +kernel

/-- Section 2.4: `high` words first. -/
theorem test_qcmp_greater :
    answer (given ⟨.positive, 0x0000000000000001#64, 0#64⟩
      ⟨.positive, 0#64, 0xFFFFFFFFFFFFFFFF#64⟩
      0x14012000#32 0#130) = ok 0b01#130 := by
  decide +kernel

/-- Section 4.1: `2^-48 + 2^-100`; bits above 63 of `wdata` are ignored (R65). -/
theorem test_f64toq_straddles :
    regAfter (given canonicalZero
      canonicalZero
      0x20100000#32 0x300000000000000013CF0000000000001#130) 1 =
      some (⟨.positive, 0x0000000000000100#64, 0x0000000000100000#64⟩, ok 0#130) := by
  decide +kernel

/-- Section 4.1: -300.5 wraps to -44.5. -/
theorem test_f64toq_negative_wraps :
    regAfter (given canonicalZero
      canonicalZero
      0x20100000#32 0xC072C80000000000#130) 1 =
      some (⟨.negative, 0x2C80000000000000#64, 0#64⟩, ok 0#130) := by
  decide +kernel

/-- Section 4.2: 0.1; bits above 31 of `wdata` are ignored (R65). -/
theorem test_f32toq :
    regAfter (given canonicalZero
      canonicalZero
      0x21200000#32 0xFFFFFFFF3DCCCCCD#130) 2 =
      some (⟨.positive, 0x00199999A0000000#64, 0#64⟩, ok 0#130) := by
  decide +kernel

/-- Section 4.2: an infinity is not singled out. -/
theorem test_f32toq_infinity :
    regAfter (given canonicalZero
      ⟨.positive, 0x0100000000000000#64, 0#64⟩
      0x21200000#32 0x7F800000#130) 2 =
      some (canonicalZero, ok 0#130) := by
  decide +kernel

/-- Section 4.4, first row. -/
theorem test_qtof64_three_roundings :
    answer (given ⟨.positive, 0x0020000000000001#64, 0x0000000000000001#64⟩
      canonicalZero
      0x22010000#32 0#130) = ok 0x3FC0000000000000#130 := by
  decide +kernel

/-- Section 4.3: the most negative value. -/
theorem test_qtof64_most_negative :
    answer (given ⟨.negative, 0xFFFFFFFFFFFFFFFF#64, 0xFFFFFFFFFFFFFFFF#64⟩
      canonicalZero
      0x22010000#32 0#130) = ok 0xC070000000000000#130 := by
  decide +kernel

/-- Section 4.3. -/
theorem test_qtof32 :
    answer (given ⟨.positive, 0x007F5479558D0CDA#64, 0x33B8F5308C50BE0A#64⟩
      canonicalZero
      0x23010000#32 0#130) = ok 0x3EFEA8F3#130 := by
  decide +kernel

/-- Section 4.3: zero gives `+0.0`. -/
theorem test_qtof32_zero :
    answer (given canonicalZero
      ⟨.positive, 0x0100000000000000#64, 0#64⟩
      0x23010000#32 0#130) = ok 0#130 := by
  decide +kernel

/-- Section 4.3: -127.5 gives -127, not sign-extended. -/
theorem test_qtoi8 :
    answer (given ⟨.negative, 0x7F80000000000000#64, 0#64⟩
      canonicalZero
      0x24010000#32 0#130) = ok 0x81#130 := by
  decide +kernel

/-- Section 4.3: the integer part 255, negated. -/
theorem test_qtoi8_most_negative :
    answer (given ⟨.negative, 0xFFFFFFFFFFFFFFFF#64, 0xFFFFFFFFFFFFFFFF#64⟩
      canonicalZero
      0x24010000#32 0#130) = ok 0x01#130 := by
  decide +kernel

/-- Vector I8 of section 6, `c = 0.5 + 0.5i`, at the reset cap; `IT_RES` depends on the open logarithm. -/
theorem test_iter_escapes :
    (after (given ⟨.positive, 0x0080000000000000#64, 0#64⟩ ⟨.positive, 0x0080000000000000#64, 0#64⟩
      0x30012000#32 0#130)).map
      (fun t => (t.eti.isw, t.eti.i, t.eti.capped, t.eti.xf, t.eti.yf)) =
    some (2#32, 8#32, false, 0xC0DEC141F4AEC32E#64, 0x40933E2AFAA13385#64) := by
  decide +kernel

/-- Vector I5 of section 6, `c = 0.25 + 0.5i`, at the reset cap: 100 fixed-phase steps, the cap as the result. -/
theorem test_iter_capped :
    (after (given ⟨.positive, 0x0040000000000000#64, 0#64⟩ ⟨.positive, 0x0080000000000000#64, 0#64⟩
      0x30012000#32 0#130)).map
      (fun t => (t.eti.xq, t.eti.yq, t.eti.xf, t.eti.yf, t.rsp)) =
    some (⟨.negative, 0x00031277F2309711#64, 0x402B0DD0867826BA#64⟩,
      ⟨.positive, 0x00509898761E8241#64, 0x4A672548A00059E2#64⟩, 0xBF8893BF9184B88A#64, 0x3FD426261D87A090#64,
      ok 0x14059000000000000#130) := by
  decide +kernel

/-- R32, R230: `CSRR MAXITER` after reset. -/
theorem test_csrr : answer (given canonicalZero canonicalZero 0x40000002#32 0#130) = ok 100#130 := by
  decide +kernel

/-- Section 5.2: `CSRR 0x003` as the first fault; `STATUS = 0x21`, `ERRCMD = 0x40000003`. -/
theorem test_csrr_fault :
    (after (given canonicalZero canonicalZero 0x40000003#32 0#130)).map
      (fun t => (t.rsp, t.readCsr .status, t.readCsr .errCmd)) =
    some (some ⟨.illegalCsr, 0#130⟩, 0x21#130, 0x40000003#130) := by
  decide +kernel

/-- R231: `CSRW MAXITER` writes `wdata[31:0]`. -/
theorem test_csrw :
    (after (given canonicalZero canonicalZero 0x41000002#32 0x700000005#130)).map (fun t => (t.rsp, t.maxIter)) =
    some (ok 0#130, 5#32) := by
  decide +kernel

/-- Section 5.2: `CSRW IT_RES` is refused by the unit, since the register is read-only. -/
theorem test_csrw_fault :
    (after (given canonicalZero canonicalZero 0x41000013#32 7#130)).map (fun t => (t.rsp, t.eti)) =
    some (some ⟨.illegalCsr, 0#130⟩, Eti.reset) := by
  decide +kernel

/-- Section 5.2: an illegal word; `STATUS = 0x11`, `ERRCMD = 0x11312001`. -/
theorem test_illegal_word :
    (after (given canonicalZero canonicalZero 0x11312001#32 0#130)).map
      (fun t => (t.rsp, t.readCsr .status, t.readCsr .errCmd)) =
    some (some ⟨.illegalCommand, 0#130⟩, 0x11#130, 0x11312001#130) := by
  decide +kernel

/-! ## Witnesses: the hypotheses of every statement can be met together -/

/-- `q1 = 1.5`, `q2 = -0.25`, a command offered, and then the host resets the unit. -/
def sample (moves : List HostMove) : State :=
  { given ⟨.positive, 0x0180000000000000#64, 0#64⟩ ⟨.negative, 0x0040000000000000#64, 0#64⟩ 0#32 0#130 with
    host := moves }

/-- The sample state after a fault. -/
def faulted (moves : List HostMove) : State :=
  { sample moves with err := true, errCode := .illegalCsr, errCmd := 0x40000003#32 }

theorem sample_canonicalRegs (moves : List HostMove) : (sample moves).CanonicalRegs := by
  show (∀ r : Reg, ((sample []).readQ r).canonical = true) ∧ canonicalZero.canonical = true ∧
    canonicalZero.canonical = true ∧ canonicalZero.canonical = true ∧ canonicalZero.canonical = true
  decide +kernel

/-- For `StepKeepsRegistersCanonical`. -/
theorem witness_canonical_step :
    (sample [.command 0x11312000#32 0#130]).CanonicalRegs ∧
    ∃ t, step (sample [.command 0x11312000#32 0#130]) = .next t ∧
      t.readQ 3 = ⟨.positive, 0x0140000000000000#64, 0#64⟩ :=
  ⟨sample_canonicalRegs _, _, rfl, by decide +kernel⟩

/-- For `StepKeepsErrorRecordConsistent`, before a fault and after one. -/
theorem witness_errorRecord_step :
    (sample [.command 0#32 0#130]).ErrorRecordOk ∧ (faulted [.command 0#32 0#130]).ErrorRecordOk ∧
    (∃ t, step (sample [.command 0#32 0#130]) = .next t ∧ t.err = true) ∧
    (∃ t, step (faulted [.command 0#32 0#130]) = .next t ∧ t.errCode = .illegalCsr) :=
  ⟨⟨fun _ => ⟨rfl, rfl⟩, fun h => absurd (show false = true from h) (by decide)⟩,
    ⟨fun h => absurd (show true = false from h) (by decide), fun _ => by decide⟩, ⟨_, rfl, rfl⟩, _, rfl, rfl⟩

/-- For `StepKeepsIteratorSettled`. -/
theorem witness_iterator_step :
    (sample [.command 0x30012000#32 0#130]).EtiSettled ∧
    ∃ t, step (sample [.command 0x30012000#32 0#130]) = .next t ∧ t.eti.phase = .done :=
  ⟨⟨.inl rfl, by decide⟩, _, rfl, by decide +kernel⟩

/-- For `EncodeOfDecode` and both clauses of `DecodeAgreesWithOpcodeMap`; a set bit 11 is where the two clauses meet. -/
theorem witness_decode :
    decode 0x11312000#32 = .instr (.qadd 3 1 2) ∧ decode 0x11312800#32 = .illegal .mustBeZero ∧
    decode 0x40000FFF#32 = .instr (.csrr 0xFFF#12) ∧ decode 0x40001000#32 = .illegal .mustBeZero := by
  decide +kernel

/-- For `StepRunsDecodedCommand`, `EveryCommandCompletesOrFaults` and `FaultCausesAreDisjoint`: a command that
completes. -/
theorem witness_command :
    (sample [.command 0x11312000#32 0#130, .reset]).host = .command 0x11312000#32 0#130 :: [.reset] ∧
    decode 0x11312000#32 = .instr (.qadd 3 1 2) ∧
    ∃ t, step (sample [.command 0x11312000#32 0#130, .reset]) = .next t ∧ t.rsp = some ⟨.ok, 0#130⟩ :=
  ⟨rfl, by decide +kernel, _, rfl, rfl⟩

/-- For `OtherHostMoves`: each of its three moves. -/
theorem witness_otherMoves :
    (sample [.reset]).host = .reset :: [] ∧ (sample [.takeResponse]).host = .takeResponse :: [] ∧
    (sample []).host = [] :=
  ⟨rfl, rfl, rfl⟩

/-- For `ResetAbandonsCommand`. -/
theorem witness_abandoned :
    (sample [.command 0x02100000#32 0#130, .reset]).host = .command 0x02100000#32 0#130 :: .reset :: [] ∧
    ∃ t, step (sample [.command 0x02100000#32 0#130, .reset]) = .next t ∧ t.rsp = some ⟨.ok, 0#130⟩ :=
  ⟨rfl, _, rfl, rfl⟩

/-- For `FirstFaultRecordIsKept`. -/
theorem witness_secondFault :
    (faulted [.command 0#32 0#130]).err = true ∧ (faulted [.command 0#32 0#130]).host.head? ≠ some .reset ∧
    ∃ t, step (faulted [.command 0#32 0#130]) = .next t ∧ t.rsp = some ⟨.illegalCommand, 0#130⟩ :=
  ⟨rfl, by decide, _, rfl, rfl⟩

/-- For `FaultEffect`, a first fault and a later one, and for the first clause of `FaultCausesAreDisjoint`. -/
theorem witness_faults :
    (∃ t, step (sample [.command 0x11312001#32 0#130]) = .next t ∧ t.rsp = some ⟨.illegalCommand, 0#130⟩ ∧
      (sample [.command 0x11312001#32 0#130]).err = false) ∧
    (∃ t, step (faulted [.command 0x11312001#32 0#130]) = .next t ∧ t.rsp = some ⟨.illegalCommand, 0#130⟩ ∧
      (faulted [.command 0x11312001#32 0#130]).err = true) :=
  ⟨⟨_, rfl, rfl, rfl⟩, _, rfl, rfl, rfl⟩

/-- For `IllegalWordAnswersIllegalCommand`. -/
theorem witness_illegalWord :
    (sample [.command 0x11312001#32 7#130]).host = .command 0x11312001#32 7#130 :: [] ∧
    legalWord 0x11312001#32 = false :=
  ⟨rfl, by decide +kernel⟩

/-- For the two other clauses of `FaultCausesAreDisjoint`, and for the second part of `InvalidLiteralExactly`. -/
theorem witness_otherFaults :
    (∃ t, step (sample [.command 0x4000001C#32 0#130]) = .next t ∧ t.rsp = some ⟨.illegalCsr, 0#130⟩) ∧
    (∃ t, step (sample [.command 0x41000003#32 0#130]) = .next t ∧ t.rsp = some ⟨.illegalCsr, 0#130⟩) ∧
    (∃ t, step (sample [.command 0x03200000#32 5#130]) = .next t ∧ t.rsp = some ⟨.invalidLiteral, 0#130⟩) :=
  ⟨⟨_, rfl, rfl⟩, ⟨_, rfl, rfl⟩, _, rfl, rfl⟩

/-- For `IllegalCsrExactly`: numbers beside the edges of the two ranges, a read-only register and `MAXITER`. -/
theorem witness_csrNumbers :
    0x003#12 ∉ definedCsrs ∧ 0x00F#12 ∉ definedCsrs ∧ 0x01C#12 ∉ definedCsrs ∧ 0x000#12 ∈ definedCsrs ∧
    0x002#12 ∈ definedCsrs ∧ 0x010#12 ∈ definedCsrs ∧ 0x01B#12 ∈ definedCsrs ∧ definedCsrs.length = 15 := by
  decide

/-- For `QldLoadsCanonicalLiteral` and `InvalidLiteralExactly`: literals on both sides, the three tests of R124. -/
theorem witness_literals :
    CanonicalLiteral 0#130 ∧ CanonicalLiteral 0x300000000000000000000000000000001#130 ∧
    ¬ CanonicalLiteral 0x200000000000000000000000000000001#130 ∧
    ¬ CanonicalLiteral 0x300000000000000000000000000000000#130 ∧
    ¬ CanonicalLiteral 0x000000000000000010000000000000000#130 := by
  unfold CanonicalLiteral
  decide +kernel

/-- For `NoOtherCommandFaults`. -/
theorem witness_neverFaults : NeverFaults (.iter 1 2) = true ∧ NeverFaults (.qtof32 1) = true := by decide

/-- For `QaddWritesWrappedSum`, `QsubWritesWrappedDifference`, `QmulWritesTruncatedProduct`,
`QcmpAnswersOrderOfValues`, `FixedToFloatRoundsThreeTimes`, `Qtoi8TruncatesAndWraps` and `IterOrbitStaysFinite`: a state with canonical
registers, and the three orders. -/
theorem witness_canonicalRegs :
    (sample []).CanonicalRegs ∧ ((sample []).readQ 2).units < ((sample []).readQ 1).units ∧
    ((sample []).readQ 2).units = ((sample []).readQ 2).units ∧
    ¬ ((sample []).readQ 1).units < ((sample []).readQ 2).units :=
  ⟨sample_canonicalRegs _, by decide +kernel, rfl, by decide +kernel⟩

/-- For `AlgebraicLaws`. -/
theorem witness_canonicalValues : ((sample []).readQ 1).canonical = true ∧ ((sample []).readQ 2).canonical = true := by
  decide +kernel

/-- For `FixedPointExactness`: canonical values at the edge of the range, `128 - 2^-120` twice. -/
theorem witness_exactness :
    Q.canonical ⟨.positive, 0x7FFFFFFFFFFFFFFF#64, 0xFFFFFFFFFFFFFFFF#64⟩ = true ∧
    |val ⟨.positive, 0x7FFFFFFFFFFFFFFF#64, 0xFFFFFFFFFFFFFFFF#64⟩ +
      val ⟨.positive, 0x7FFFFFFFFFFFFFFF#64, 0xFFFFFFFFFFFFFFFF#64⟩| < 256 ∧
    |val ⟨.positive, 0x7FFFFFFFFFFFFFFF#64, 0xFFFFFFFFFFFFFFFF#64⟩ - val qoneV| < 256 ∧
    |val ⟨.positive, 0x7FFFFFFFFFFFFFFF#64, 0xFFFFFFFFFFFFFFFF#64⟩ * val qoneV| < 256 := by
  refine ⟨by decide +kernel, ?_, ?_, ?_⟩ <;> norm_num [val, Sign.sgn, qoneV, abs_lt]

/-- For `SpecialFloatsConvertToZero`: both formats, exponents 0, the first one too large (R163's `e = 8`), and NaN. -/
theorem witness_specialFloats :
    (BitVec.toNat 0x000FFFFFFFFFFFFF#130) / 2 ^ 52 % 2 ^ 11 = 0 ∧
    (BitVec.toNat 0x43B0000000000000#130) / 2 ^ 52 % 2 ^ 11 = 1083 ∧
    1083 ≤ (BitVec.toNat 0x7FF8000000000000#130) / 2 ^ 52 % 2 ^ 11 ∧
    (BitVec.toNat 0x007FFFFF#130) / 2 ^ 23 % 2 ^ 8 = 0 ∧
    (BitVec.toNat 0x4F000000#130) / 2 ^ 23 % 2 ^ 8 = 158 ∧
    158 ≤ (BitVec.toNat 0x7FC00000#130) / 2 ^ 23 % 2 ^ 8 := by
  decide +kernel

/-- For `FloatRoundTrip`: -1.5 in both formats, the largest binary64 below 256, and the one pattern that does not come
back, `-0.0`. -/
theorem witness_roundTrip :
    (∃ units < 2 ^ 128, ((significand 52 11 (BitVec.toNat 0xBFF8000000000000#64)).1 : ℚ) *
      2 ^ ((significand 52 11 (BitVec.toNat 0xBFF8000000000000#64)).2 + 120) = (units : Nat)) ∧
    (∃ units < 2 ^ 128, ((significand 23 8 (BitVec.toNat 0xBFC00000#32)).1 : ℚ) *
      2 ^ ((significand 23 8 (BitVec.toNat 0xBFC00000#32)).2 + 120) = (units : Nat)) ∧
    (∃ units < 2 ^ 128, ((significand 52 11 (BitVec.toNat 0x8000000000000000#64)).1 : ℚ) *
      2 ^ ((significand 52 11 (BitVec.toNat 0x8000000000000000#64)).2 + 120) = (units : Nat)) ∧
    (∃ units < 2 ^ 128, ((significand 52 11 (BitVec.toNat 0x406FFFFFFFFFFFFF#64)).1 : ℚ) *
      2 ^ ((significand 52 11 (BitVec.toNat 0x406FFFFFFFFFFFFF#64)).2 + 120) = (units : Nat)) := by
  refine ⟨⟨3 * 2 ^ 119, by norm_num, ?_⟩, ⟨3 * 2 ^ 119, by norm_num, ?_⟩, ⟨0, by norm_num, ?_⟩,
    (2 ^ 53 - 1) * 2 ^ 75, by norm_num, ?_⟩ <;>
    norm_num [significand]

/-- For `RoundingIsNearestTiesToEven`: both formats; a value on each side of the overflow limit. -/
theorem witness_rounding :
    (binary64 = binary64 ∨ binary64 = binary32) ∧ (binary32 = binary64 ∨ binary32 = binary32) ∧
    ((2 ^ (binary32.p + 2) - 1) * (2 : ℚ) ^ ((binary32.bias : Int) - binary32.p - 1) ≤ (2 ^ 25 - 1) * 2 ^ (103 : Int)) ∧
    ((1 : ℚ) < (2 ^ (binary32.p + 2) - 1) * (2 : ℚ) ^ ((binary32.bias : Int) - binary32.p - 1)) := by
  refine ⟨.inl rfl, .inr rfl, ?_, ?_⟩ <;> norm_num [binary32, FloatFmt.bias]

theorem value64_samples : value64 0x3FF8000000000000#64 = 3 / 2 ∧ value64 0xC000000000000000#64 = -2 ∧
    value64 0x4000000000000000#64 = 2 ∧ value64 0#64 = 0 ∧ value64 0x8000000000000000#64 = 0 := by
  refine ⟨?_, ?_, ?_, ?_, ?_⟩ <;> norm_num [value64, patternValue, significand, binary64, zpow_neg]

/-- For every clause of `FloatOperationsRoundOnce`: 1.5 and -2. -/
theorem witness_floatOperations :
    Finite64 0x3FF8000000000000#64 ∧ Finite64 0xC000000000000000#64 ∧
    value64 0x3FF8000000000000#64 + value64 0xC000000000000000#64 ≠ 0 ∧
    value64 0x3FF8000000000000#64 - value64 0xC000000000000000#64 ≠ 0 ∧
    value64 0x3FF8000000000000#64 * value64 0xC000000000000000#64 ≠ 0 ∧
    value64 0x3FF8000000000000#64 ≠ 0 ∧ value64 0xC000000000000000#64 ≠ 0 := by
  obtain ⟨ha, hb, -⟩ := value64_samples
  rw [ha, hb]
  refine ⟨by unfold Finite64; decide +kernel, by unfold Finite64; decide +kernel, ?_⟩
  norm_num

/-- For every clause of `FloatZeroResults`: 2 and -2, the two zeros, and 0 over -2. -/
theorem witness_zeroResults :
    (Finite64 0x4000000000000000#64 ∧ Finite64 0xC000000000000000#64 ∧ Finite64 0#64 ∧
      Finite64 0x8000000000000000#64) ∧
    value64 0x4000000000000000#64 + value64 0xC000000000000000#64 = 0 ∧
    value64 0x8000000000000000#64 + value64 0x8000000000000000#64 = 0 ∧
    value64 0x8000000000000000#64 - value64 0#64 = 0 ∧
    value64 0x8000000000000000#64 * value64 0xC000000000000000#64 = 0 ∧
    value64 0#64 = 0 ∧ value64 0xC000000000000000#64 ≠ 0 := by
  obtain ⟨-, hb, hc, hd, he⟩ := value64_samples
  rw [hb, hc, hd, he]
  refine ⟨by unfold Finite64; decide +kernel, ?_⟩
  norm_num

/-- For `FloatInfiniteOperands`: 1.5 and 0 as the finite operand, and both zeros. -/
theorem witness_infiniteOperands :
    Finite64 0x3FF8000000000000#64 ∧ value64 0x3FF8000000000000#64 ≠ 0 ∧ Finite64 0#64 ∧ value64 0#64 = 0 ∧
    0#64 = signedZero false ∧ 0x8000000000000000#64 = signedZero true := by
  obtain ⟨ha, -, -, hd, -⟩ := value64_samples
  rw [ha, hd]
  refine ⟨by unfold Finite64; decide +kernel, by norm_num, by unfold Finite64; decide +kernel, rfl, rfl, rfl⟩

/-- For `NanOperandsGiveNans`: a quiet NaN, and a signalling one with the least payload. -/
theorem witness_nan :
    isNan binary64 (BitVec.toNat 0x7FF8000000000000#64) = true ∧
    isNan binary64 (BitVec.toNat 0xFFF0000000000001#64) = true ∧
    isNan binary64 (BitVec.toNat 0x7FF0000000000000#64) = false := by
  decide +kernel

/-- An iterator in the float phase: `z = 1.5 - 2i`, `c = -2 + 1.5i`, one step made. -/
def floatPoint : Eti :=
  { Eti.reset with
    xf := 0x3FF8000000000000#64, yf := 0xC000000000000000#64, cxf := 0xC000000000000000#64
    cyf := 0x3FF8000000000000#64, i := 1#32, phase := .float }

/-- An iterator in the fixed phase: `z = c = 1.5 - 0.25i`, one step made. -/
def fixedPoint : Eti :=
  { Eti.reset with
    cxq := (sample []).readQ 1, cyq := (sample []).readQ 2, xq := (sample []).readQ 1, yq := (sample []).readQ 2
    i := 1#32, phase := .fixed }

/-- For every clause of `TransitionsOfTheIterator`: both phases go on, leave at the cap (cap 1 and `i = 1`, where the
clauses meet) and leave by the bound; idle and done. -/
theorem witness_transitions :
    fixedPoint.phase = .fixed ∧ floatPoint.phase = .float ∧ Eti.reset.phase = .idle ∧
    fixedPoint.i < 2#32 ∧ (1#32 : BitVec 32) ≤ fixedPoint.i ∧ floatPoint.i < 2#32 ∧ (1#32 : BitVec 32) ≤ floatPoint.i ∧
    qcmp (qadd (qmul fixedPoint.xq fixedPoint.xq) (qmul fixedPoint.yq fixedPoint.yq)) qoneV = .gt ∧
    qcmp (qadd (qmul fixedPoint.yq fixedPoint.yq) (qmul fixedPoint.yq fixedPoint.yq)) qoneV ≠ .gt ∧
    fle (floatNorm floatPoint) 0x40F0000000000000#64 = true ∧
    fle (floatNorm { floatPoint with xf := 0x4096980000000000#64 }) 0x40F0000000000000#64 = false := by
  decide +kernel

/-- For `FloatTransitionsStayFinite`: a fixed phase that is left, and a float phase within the bounds. -/
theorem witness_floatTransitions :
    (fixedPoint.phase = .fixed ∧ (etiTransition 2#32 fixedPoint).phase = .float ∧
      fixedPoint.xq.canonical = true ∧ fixedPoint.yq.canonical = true ∧ fixedPoint.cxq.canonical = true ∧
      fixedPoint.cyq.canonical = true) ∧
    floatPoint.phase = .float ∧ FloatOrbitFinite floatPoint := by
  refine ⟨by decide +kernel, rfl, ?_⟩
  obtain ⟨ha, hb, -⟩ := value64_samples
  have fa : Finite64 0x3FF8000000000000#64 := by unfold Finite64; decide +kernel
  have fb : Finite64 0xC000000000000000#64 := by unfold Finite64; decide +kernel
  constructor <;> rintro _ (rfl | rfl) <;> simp only [floatPoint, ha, hb]
  · exact ⟨fb, by norm_num⟩
  · exact ⟨fa, by norm_num⟩
  · exact ⟨fa, by norm_num⟩
  · exact ⟨fb, by norm_num⟩

/-- For `StepKeepsFloatRegistersFinite`: an `ITER` is the next step. -/
theorem witness_floatStep :
    (sample [.command 0x30012000#32 0#130]).CanonicalRegs ∧
    FloatOrbitFinite (sample [.command 0x30012000#32 0#130]).eti ∧
    ∃ t, step (sample [.command 0x30012000#32 0#130]) = .next t ∧ t.eti.phase = .done := by
  refine ⟨sample_canonicalRegs _, ?_, _, rfl, by decide +kernel⟩
  have h0 : Finite64 0#64 ∧ value64 0#64 = 0 := ⟨by unfold Finite64; decide +kernel, value64_samples.2.2.2.1⟩
  show FloatOrbitFinite Eti.reset
  constructor <;> rintro _ (rfl | rfl) <;> simp only [Eti.reset, h0] <;> norm_num

/-- For `IterDependsOnlyOnOperands`: two states that differ elsewhere. -/
theorem witness_iterOperands :
    (sample []).readQ 1 = (faulted [.reset]).readQ 1 ∧ (sample []).readQ 2 = (faulted [.reset]).readQ 2 ∧
    (sample []).maxIter = (faulted [.reset]).maxIter ∧ sample [] ≠ faulted [.reset] := by
  decide +kernel

/-- For both clauses of `IterResult`: an orbit that escapes before the cap, one that reaches it. -/
theorem witness_iterResult :
    (∃ t, exec (.iter 1 2) (sample []) = .next t ∧ t.eti.i < (sample []).maxIter) ∧
    (∃ t, exec (.iter 3 4) (sample []) = .next t ∧ (sample []).maxIter ≤ t.eti.i) :=
  ⟨⟨_, rfl, by decide +kernel⟩, _, rfl, by decide +kernel⟩

/-- For `IterOfZeroReachesCap`, `IterWithZeroCap` and `IterOfTwoEscapesAtFour`. -/
theorem witness_iterCases :
    ((sample []).readQ 3 = zeroQ ∧ (sample []).readQ 4 = zeroQ ∧ (sample []).maxIter = 100#32) ∧
    ((sample []).setMaxIter 0#32).maxIter = 0#32 ∧
    (((sample []).writeQ 5 ⟨.positive, 0x0200000000000000#64, 0#64⟩).readQ 5 =
        ⟨.positive, 0x0200000000000000#64, 0#64⟩ ∧
      ((sample []).writeQ 5 ⟨.positive, 0x0200000000000000#64, 0#64⟩).readQ 4 = zeroQ ∧
      ((sample []).writeQ 5 ⟨.positive, 0x0200000000000000#64, 0#64⟩).maxIter = 100#32) := by
  decide +kernel

/-- For the clauses of `WhoWritesWhat`: a command with a destination and one that completes without one. -/
theorem witness_frame :
    (∃ t, exec (.qadd 3 1 2) (sample []) = .next t ∧ t.rsp = some ⟨.ok, 0#130⟩ ∧ dest (.qadd 3 1 2) ≠ some 1 ∧
      (∀ n, Instr.qadd 3 1 2 ≠ .csrw n) ∧ ∀ ra rb, Instr.qadd 3 1 2 ≠ .iter ra rb) :=
  ⟨_, rfl, rfl, by decide, fun _ => by simp, fun _ _ => by simp⟩

/-- For `UnnamedRegistersAreNotRead`: the destination is not a source. -/
theorem witness_unnamed :
    (3 : Reg) ∉ sources (.qadd 3 1 2) ∧ ∃ t, exec (.qadd 3 1 2) (sample []) = .next t ∧ t.rsp = some ⟨.ok, 0#130⟩ :=
  ⟨by decide, _, rfl, rfl⟩

/-- For `UnusedWdataIsIgnored`: `F32TOQ` and a data word with bit 32 set. -/
theorem witness_unusedWdata :
    (BitVec.toNat 0x100000000#130) % 2 ^ wdataBits (.f32toq 1) =
      (sample []).port.wdata.toNat % 2 ^ wdataBits (.f32toq 1) ∧
    ∃ t, exec (.f32toq 1) (sample []) = .next t ∧ t.rsp = some ⟨.ok, 0#130⟩ :=
  ⟨by decide +kernel, _, rfl, rfl⟩

/-- For `CsrrReadsEveryRegister`: the list of registers is not empty; its `MAXITER` line after reset. -/
theorem witness_csrr : ∃ t, exec (.csrr 0x002#12) State.reset = .next t ∧ t.rsp = some ⟨.ok, 100#130⟩ :=
  ⟨_, rfl, by decide +kernel⟩


end Sys2Proof.Tests
end

section
/-! The layout of a packed value (R24) and the state after reset (R40). -/

namespace Sys2Proof.Machine
open Sys2Proof.Claims

/-! ### The slices of a packed word -/

/-- Bits 129:128 of a packed word. -/
@[simp] theorem pack_signBits (v : Q) : (pack v).extractLsb' 128 2 = signCode v.sign := by
  rw [pack, BitVec.append_assoc, BitVec.extractLsb'_cast]
  exact BitVec.extractLsb'_append_eq_left

/-- Bits 127:64 of a packed word. -/
@[simp] theorem pack_highBits (v : Q) : (pack v).extractLsb' 64 64 = v.high := by
  rw [pack, BitVec.extractLsb'_append_eq_of_le (by decide)]
  exact BitVec.extractLsb'_append_eq_right

/-- Bits 63:0 of a packed word. -/
@[simp] theorem pack_lowBits (v : Q) : (pack v).extractLsb' 0 64 = v.low :=
  BitVec.extractLsb'_append_eq_right

@[simp] theorem pack_qzeroV : pack qzeroV = 0#130 := by decide

/-- Settles O24: the number is `pack_toNat`, each slice is a field of `pack`, and the sign's code is read off sign by sign. -/
theorem packLayout : Obligations.PackLayout := by
  refine ⟨pack_qzeroV, fun v => ⟨?number, ?signBits, pack_highBits v, pack_lowBits v⟩⟩
  case number => rw [pack_toNat]; cases v.sign <;> rfl
  case signBits => rw [pack_signBits]; cases v.sign <;> rfl

/-! ### The state after reset -/

/-- The iterator's fixed-point registers are canonical zero after reset. -/
theorem Eti.reset_fixedRegisters :
    Eti.reset.xq = zeroQ ∧ Eti.reset.yq = zeroQ ∧ Eti.reset.cxq = zeroQ ∧ Eti.reset.cyq = zeroQ :=
  ⟨rfl, rfl, rfl, rfl⟩

/-- `STATUS` reads 0 after reset: no fault is recorded (R30). -/
theorem State.reset_readCsr_status : State.reset.readCsr .status = 0#130 := by decide

/-- `IT_STAT` reads 0 after reset: the iterator is IDLE and no cap was met (R33). -/
theorem State.reset_readCsr_itStat : State.reset.readCsr .itStat = 0#130 := by decide

/-- Settles O10: `q` registers by `readQ_reset`, the two status words by what `CSRR` reads, and each other register by
its field of the reset state. -/
theorem resetValues : Obligations.ResetValues := by
  have hq (r : Reg) : State.reset.readQ r = zeroQ ∧ pack (State.reset.readQ r) = 0#130 := by
    rw [State.readQ_reset]
    exact ⟨rfl, pack_qzeroV⟩
  exact ⟨hq, rfl, rfl, State.reset_readCsr_status, State.reset_readCsr_itStat,
    rfl, rfl, rfl, rfl, rfl, rfl, rfl, rfl, rfl, Eti.reset_fixedRegisters⟩

end Sys2Proof.Machine
end

section
/-! What the fixed-point functions compute, as exact arithmetic on the units of `2^-120` that a value counts (R10, R142):
each function answers `wrapUnits` of an exact integer result, or the order of two. -/

namespace Sys2Proof.Machine
open Sys2Proof.Claims

/-! ### The wrapped value of an integer -/

theorem wrapUnits_eq_canon (z : Int) :
    wrapUnits z = canon (if z < 0 then .negative else .positive) z.natAbs := rfl

@[simp] theorem wrapUnits_zero : wrapUnits 0 = qzeroV := rfl

@[simp] theorem wrapUnits_canonical (z : Int) : (wrapUnits z).canonical = true := by
  rw [wrapUnits_eq_canon]
  exact canon_canonical _ (by split <;> simp)

/-- `canon(s, m)` is the wrapped value of the integer with sign `s` and magnitude `m`. -/
theorem canon_eq_wrapUnits {s : Sign} (hs : s ≠ .neutral) (m : Nat) : canon s m = wrapUnits (s.sgn * m) := by
  rcases Nat.eq_zero_or_pos m with rfl | hm
  · simp [canon]
  · cases s with
    | neutral => contradiction
    | positive => simp [wrapUnits_eq_canon, Sign.sgn, (Int.natCast_nonneg m).not_gt]
    | negative => simp [wrapUnits_eq_canon, Sign.sgn, hm]

/-- Inside the range of the format nothing wraps. -/
theorem units_wrapUnits {z : Int} (hz : z.natAbs < 2 ^ 128) : (wrapUnits z).units = z := by
  have hm : z.natAbs % 2 ^ 128 = z.natAbs := Nat.mod_eq_of_lt hz
  rw [wrapUnits_eq_canon, Q.units, canon_mag, canon_sign, hm]
  rcases lt_trichotomy z 0 with h | rfl | h
  · simp [h, h.ne, Sign.sgn, abs_of_neg]
  · rfl
  · simp [h.ne', h.not_gt, h.le, Sign.sgn]

theorem Q.natAbs_units_lt (v : Q) : v.units.natAbs < 2 ^ 128 := by
  have hm := Q.mag_lt v
  rcases Q.units_cases v with ⟨-, hu⟩ | ⟨-, hu⟩ | ⟨-, hu⟩ <;> omega

/-- A canonical value is the wrapped value of the units it counts. -/
theorem Q.wrapUnits_units {v : Q} (hv : v.canonical = true) : wrapUnits v.units = v :=
  Q.eq_of_units (wrapUnits_canonical _) hv (units_wrapUnits (Q.natAbs_units_lt v))

/-- Negation commutes with the wrap: the wrap acts on the magnitude alone. -/
theorem qneg_wrapUnits (z : Int) : qneg (wrapUnits z) = wrapUnits (-z) := by
  refine Q.eq_of_sign_mag ?_ ?_
  · rw [qneg_sign, wrapUnits_eq_canon, wrapUnits_eq_canon, canon_sign, canon_sign, Int.natAbs_neg]
    rcases lt_trichotomy z 0 with h | rfl | h
    · simp only [h, Left.neg_neg_iff, h.not_gt]; split <;> rfl
    · rfl
    · simp only [Left.neg_neg_iff, h, h.not_gt]; split <;> rfl
  · rw [qneg_mag, wrapUnits_eq_canon, wrapUnits_eq_canon, canon_mag, canon_mag, Int.natAbs_neg]

/-! ### Signs as factors -/

/-- Two different signs of non-zero values are opposite. -/
theorem Sign.sgn_eq_neg_of_ne {s t : Sign} (hs : s ≠ .neutral) (ht : t ≠ .neutral) (h : s ≠ t) : t.sgn = -s.sgn := by
  cases s <;> cases t <;> simp_all [Sign.sgn]

/-- The sign of a product of non-zero values (R137). -/
theorem Sign.sgn_product {s t : Sign} (hs : s ≠ .neutral) (ht : t ≠ .neutral) :
    (if s = t then Sign.positive else .negative).sgn = s.sgn * t.sgn := by
  cases s <;> cases t <;> simp_all [Sign.sgn]

/-- Division rounding toward zero divides the magnitude and keeps the sign. -/
theorem Sign.sgn_mul_tdiv (s : Sign) (m d : Nat) : (s.sgn * (m : Int)).tdiv d = s.sgn * ((m / d : Nat) : Int) := by
  cases s <;> simp [Sign.sgn, Int.neg_tdiv, Int.tdiv_eq_ediv_of_nonneg]

/-- A canonical non-zero value has a sign. -/
theorem Q.sign_ne_neutral {v : Q} (hv : v.canonical = true) (h : v ≠ qzeroV) : v.sign ≠ .neutral :=
  fun hs => h ((Q.eq_qzeroV_iff hv).2 (((Q.canonical_iff v).1 hv).2 hs))

/-! ### One specification per function -/

theorem qadd_eq_wrapUnits {a b : Q} (ha : a.canonical = true) (hb : b.canonical = true) :
    qadd a b = wrapUnits (a.units + b.units) := by
  unfold qadd
  split
  case isTrue h => rw [h, show qzeroV.units = 0 from rfl, zero_add, Q.wrapUnits_units hb]
  case isFalse hza =>
  split
  case isTrue h => rw [h, show qzeroV.units = 0 from rfl, add_zero, Q.wrapUnits_units ha]
  case isFalse hzb =>
  have na := Q.sign_ne_neutral ha hza
  have nb := Q.sign_ne_neutral hb hzb
  split
  case isTrue hs => rw [canon_eq_wrapUnits na, Q.units, Q.units, ← hs, Nat.cast_add, mul_add]
  case isFalse hs =>
  have hsum : a.units + b.units = a.sign.sgn * ((a.mag : Int) - b.mag) := by
    rw [Q.units, Q.units, Sign.sgn_eq_neg_of_ne na nb hs]; ring
  rw [hsum]
  split
  case isTrue hm => rw [hm, sub_self, mul_zero, wrapUnits_zero]
  case isFalse hm =>
  split
  case isTrue hlt => rw [canon_eq_wrapUnits na, Nat.cast_sub hlt.le]
  case isFalse hle =>
    rw [canon_eq_wrapUnits nb, Nat.cast_sub (by omega), Sign.sgn_eq_neg_of_ne na nb hs]
    congr 1; ring

theorem qsub_eq_wrapUnits {a b : Q} (ha : a.canonical = true) (hb : b.canonical = true) :
    qsub a b = wrapUnits (a.units - b.units) := by
  rw [qsub, qadd_eq_wrapUnits ha (qneg_canonical hb), qneg_units, sub_eq_add_neg]

theorem qmul_eq_wrapUnits {a b : Q} (ha : a.canonical = true) (hb : b.canonical = true) :
    qmul a b = wrapUnits ((a.units * b.units).tdiv (2 ^ 120)) := by
  unfold qmul
  split
  case isTrue h =>
    have h0 : a.units * b.units = 0 := by
      rcases h with rfl | rfl
      · exact zero_mul _
      · exact mul_zero _
    rw [h0, Int.zero_tdiv, wrapUnits_zero]
  case isFalse h =>
    obtain ⟨hza, hzb⟩ := not_or.1 h
    have na := Q.sign_ne_neutral ha hza
    have nb := Q.sign_ne_neutral hb hzb
    have hprod : a.units * b.units = (if a.sign = b.sign then Sign.positive else .negative).sgn *
        ((a.mag * b.mag : Nat) : Int) := by
      rw [Sign.sgn_product na nb, Q.units, Q.units]; push_cast; ring
    rw [hprod, canon_eq_wrapUnits (by split <;> simp)]
    exact congrArg wrapUnits (Sign.sgn_mul_tdiv _ _ (2 ^ 120)).symm

/-- A smaller sign means a smaller value. -/
theorem Q.units_lt_of_sgn_lt {a b : Q} (ha : a.canonical = true) (hb : b.canonical = true)
    (h : a.sign.sgn < b.sign.sgn) : a.units < b.units := by
  rw [Q.canonical_iff] at ha hb
  rcases Q.units_cases a with ⟨h1, hu⟩ | ⟨h1, hu⟩ | ⟨h1, hu⟩ <;>
    rcases Q.units_cases b with ⟨h2, hv⟩ | ⟨h2, hv⟩ | ⟨h2, hv⟩ <;>
    simp only [h1, h2, Sign.sgn, reduceCtorEq, iff_false, iff_true] at h ha hb <;> omega

theorem Sign.sgn_injective : Function.Injective Sign.sgn := by
  intro s t h
  cases s <;> cases t <;> simp_all [Sign.sgn]

theorem qcmp_eq_compare {a b : Q} (ha : a.canonical = true) (hb : b.canonical = true) :
    qcmp a b = compare a.units b.units := by
  unfold qcmp
  split
  case isTrue h => exact (compare_lt_iff_lt.2 (Q.units_lt_of_sgn_lt ha hb h)).symm
  case isFalse hab =>
  split
  case isTrue h => exact (compare_gt_iff_gt.2 (Q.units_lt_of_sgn_lt hb ha h)).symm
  case isFalse hba =>
  have hs : b.sign = a.sign := Sign.sgn_injective (le_antisymm (not_lt.1 hab) (not_lt.1 hba))
  rw [Q.units, Q.units, hs]
  rw [LinearOrder.compare_eq_compareOfLessAndEq, compareOfLessAndEq]
  rcases lt_trichotomy a.mag b.mag with h | h | h
  · cases a.sign <;> simp [Sign.sgn, h, h.ne, h.not_gt]
  · cases a.sign <;> simp [Sign.sgn, h]
  · cases a.sign <;> simp [Sign.sgn, h, h.ne', h.not_gt]

end Sys2Proof.Machine
end

section
/-! The algebraic laws of the fixed-point arithmetic, the laws that fail (R143), and where it is exact (R142). -/

namespace Sys2Proof.Machine
open Sys2Proof.Claims

/-! ### The laws that hold -/

@[simp] theorem qzeroV_units : qzeroV.units = 0 := rfl

@[simp] theorem qoneV_units : qoneV.units = 2 ^ 120 := by
  rw [Q.units, qoneV_sign, qoneV_mag]; rfl

section Laws
variable {a b : Q} (ha : a.canonical = true) (hb : b.canonical = true)
include ha

theorem qadd_qzeroV : qadd a qzeroV = a := by
  rw [qadd_eq_wrapUnits ha qzeroV_canonical, qzeroV_units, add_zero, Q.wrapUnits_units ha]

theorem qmul_qoneV : qmul a qoneV = a := by
  rw [qmul_eq_wrapUnits ha qoneV_canonical, qoneV_units, Int.mul_tdiv_cancel _ (by decide), Q.wrapUnits_units ha]

theorem qmul_qzeroV : qmul a qzeroV = qzeroV := by
  rw [qmul_eq_wrapUnits ha qzeroV_canonical, qzeroV_units, mul_zero, Int.zero_tdiv, wrapUnits_zero]

theorem qsub_self : qsub a a = qzeroV := by
  rw [qsub_eq_wrapUnits ha ha, sub_self, wrapUnits_zero]

include hb

theorem qadd_comm : qadd a b = qadd b a := by
  rw [qadd_eq_wrapUnits ha hb, qadd_eq_wrapUnits hb ha, add_comm]

theorem qmul_comm : qmul a b = qmul b a := by
  rw [qmul_eq_wrapUnits ha hb, qmul_eq_wrapUnits hb ha, mul_comm]

theorem qneg_qadd : qneg (qadd a b) = qadd (qneg a) (qneg b) := by
  rw [qadd_eq_wrapUnits ha hb, qadd_eq_wrapUnits (qneg_canonical ha) (qneg_canonical hb), qneg_wrapUnits,
    qneg_units, qneg_units, neg_add]

theorem qneg_qmul : qneg (qmul a b) = qmul (qneg a) b := by
  rw [qmul_eq_wrapUnits ha hb, qmul_eq_wrapUnits (qneg_canonical ha) hb, qneg_wrapUnits, qneg_units, neg_mul,
    Int.neg_tdiv]

theorem qcmp_eq_iff : qcmp a b = .eq ↔ a = b := by
  rw [qcmp_eq_compare ha hb, compare_eq_iff_eq]
  exact ⟨Q.eq_of_units ha hb, congrArg Q.units⟩

theorem qcmp_lt_iff_gt : qcmp a b = .lt ↔ qcmp b a = .gt := by
  rw [qcmp_eq_compare ha hb, qcmp_eq_compare hb ha, compare_lt_iff_lt, compare_gt_iff_gt]

end Laws

/-! ### The laws that fail -/

/-- `(128 + 128) + (-1) = -1`, since the inner sum wraps to zero, but `128 + (128 + (-1)) = 255` (R143). -/
theorem qadd_not_assoc : ∃ a b c : Q, a.canonical = true ∧ b.canonical = true ∧ c.canonical = true ∧
    qadd (qadd a b) c ≠ qadd a (qadd b c) :=
  ⟨⟨.positive, 0x8000000000000000#64, 0#64⟩, ⟨.positive, 0x8000000000000000#64, 0#64⟩, qneg qoneV,
    by decide +kernel⟩

/-- `(2^-120 * 0.5) * 2 = 0`, since the inner product truncates to zero, but `2^-120 * (0.5 * 2) = 2^-120`. -/
theorem qmul_not_assoc : ∃ a b c : Q, a.canonical = true ∧ b.canonical = true ∧ c.canonical = true ∧
    qmul (qmul a b) c ≠ qmul a (qmul b c) :=
  ⟨⟨.positive, 0#64, 1#64⟩, ⟨.positive, 0x0080000000000000#64, 0#64⟩, ⟨.positive, 0x0200000000000000#64, 0#64⟩,
    by decide +kernel⟩

/-- `2^-120 * (0.5 + 0.5) = 2^-120`, but each of the two products `2^-120 * 0.5` truncates to zero. -/
theorem qmul_not_distrib_qadd : ∃ a b c : Q, a.canonical = true ∧ b.canonical = true ∧ c.canonical = true ∧
    qmul a (qadd b c) ≠ qadd (qmul a b) (qmul a c) :=
  ⟨⟨.positive, 0#64, 1#64⟩, ⟨.positive, 0x0080000000000000#64, 0#64⟩, ⟨.positive, 0x0080000000000000#64, 0#64⟩,
    by decide +kernel⟩

/-- Settles O32: each law is the same law of the integers under `wrapUnits` (`qadd_eq_wrapUnits`, `qmul_eq_wrapUnits`)
or of their order (`qcmp_eq_compare`); each failing law has a triple of values where it fails. -/
theorem algebraicLaws : Obligations.AlgebraicLaws :=
  ⟨fun _ _ ha hb => ⟨qadd_comm ha hb, qmul_comm ha hb, qadd_qzeroV ha, qmul_qoneV ha, qmul_qzeroV ha, qsub_self ha,
      qsub_self ha, qneg_qadd ha hb, qneg_qmul ha hb, qcmp_eq_iff ha hb, qcmp_lt_iff_gt ha hb⟩,
    qadd_not_assoc, qmul_not_assoc, qmul_not_distrib_qadd⟩

/-! ### Exactness -/

/-- The rational value is the number of units times `2^-120` (R10). -/
theorem val_eq_units_div (v : Q) : val v = v.units / 2 ^ 120 := by
  rw [val, Q.units, Q.mag]
  push_cast
  ring

theorem val_wrapUnits {z : Int} (hz : z.natAbs < 2 ^ 128) : val (wrapUnits z) = z / 2 ^ 120 := by
  rw [val_eq_units_div, units_wrapUnits hz]

/-- The range of the format, read on the integer counted in units of `2^-k`. -/
theorem natAbs_lt_of_abs_div_lt {n : Int} {k : Nat} (h : |(n : ℚ) / 2 ^ k| < 256) : n.natAbs < 2 ^ (k + 8) := by
  rw [abs_div, abs_of_pos (by positivity : (0 : ℚ) < 2 ^ k), div_lt_iff₀ (by positivity)] at h
  have hq : ((n.natAbs : Nat) : ℚ) < ((2 ^ (k + 8) : Nat) : ℚ) := by
    rw [Nat.cast_natAbs]
    push_cast
    linarith [pow_add (2 : ℚ) k 8]
  exact_mod_cast hq

/-- Truncation to the grid is integer division rounding toward zero. -/
theorem truncToGrid_div (n : Int) : truncToGrid (n / 2 ^ 240) = (n.tdiv (2 ^ 120) : Int) / 2 ^ 120 := by
  have hx : (n : ℚ) / 2 ^ 240 * 2 ^ 120 = n / ((2 ^ 120 : Nat) : ℚ) := by push_cast; ring
  unfold truncToGrid
  rw [hx, Rat.floor_intCast_div_natCast, Rat.ceil_intCast_div_natCast]
  congr 2
  rcases le_or_gt 0 n with h | h
  · rw [if_pos (by positivity), Int.tdiv_eq_ediv_of_nonneg h]; rfl
  · have hneg : ¬ (0 : ℚ) ≤ n / 2 ^ 240 := not_le.2 (div_neg_of_neg_of_pos (by exact_mod_cast h) (by positivity))
    rw [if_neg hneg, ← Int.tdiv_eq_ediv_of_nonneg (by omega), Int.neg_tdiv, neg_neg]; rfl

/-- Settles O33: inside the range `wrapUnits` keeps the exact integer (`val_wrapUnits`), which for a product is the
quotient rounded toward zero (`truncToGrid_div`). -/
theorem fixedPointExactness : Obligations.FixedPointExactness := by
  intro a b ha hb
  have hadd : val a + val b = ((a.units + b.units : Int) : ℚ) / 2 ^ 120 := by
    rw [val_eq_units_div, val_eq_units_div]; push_cast; ring
  have hsub : val a - val b = ((a.units - b.units : Int) : ℚ) / 2 ^ 120 := by
    rw [val_eq_units_div, val_eq_units_div]; push_cast; ring
  have hmul : val a * val b = ((a.units * b.units : Int) : ℚ) / 2 ^ 240 := by
    rw [val_eq_units_div, val_eq_units_div]; push_cast; ring
  rw [hadd, hsub, hmul, qadd_eq_wrapUnits ha hb, qsub_eq_wrapUnits ha hb, qmul_eq_wrapUnits ha hb]
  refine ⟨fun h => val_wrapUnits (natAbs_lt_of_abs_div_lt h), fun h => val_wrapUnits (natAbs_lt_of_abs_div_lt h),
    fun h => ?_⟩
  rw [truncToGrid_div]
  refine val_wrapUnits ?_
  rw [Int.natAbs_tdiv]
  exact Nat.div_lt_of_lt_mul (natAbs_lt_of_abs_div_lt h)

end Sys2Proof.Machine
end

section
/-! The result that `ITER` leaves: the cap, or the smooth index (R198, R199). -/

namespace Sys2Proof.Machine

/-- What `ITER` does to the machine: the finished iterator is stored and its result is answered (R200). -/
theorem exec_iter (ra rb : Reg) (s : State) :
    exec (.iter ra rb) s = .next ((s.setEti (iterate s.maxIter s.eti (s.readQ ra) (s.readQ rb))).complete
      (iterData (iterate s.maxIter s.eti (s.readQ ra) (s.readQ rb)))) := rfl

/-- At the cap the result is the cap, wherever the last point lies (R199). -/
theorem etiFinish_res_of_le {cap : BitVec 32} {e : Eti} (h : cap ≤ e.i) :
    (etiFinish cap e).res = u2f64 cap.toNat := by
  rw [etiFinish, if_pos h]

/-- Below the cap the result is the smooth index of the last point (R199). -/
theorem etiFinish_res_of_lt {cap : BitVec 32} {e : Eti} (h : e.i < cap) : (etiFinish cap e).res = smooth e := by
  rw [etiFinish, if_neg (BitVec.not_le.2 h)]

/-- Below the cap the float phase is left only by a point outside the bound 65536, or a NaN (R195). -/
theorem fle_floatNorm_of_floatContinues_eq_false {cap : BitVec 32} {e : Eti} (h : floatContinues cap e = false)
    (hi : e.i < cap) : fle (floatNorm e) f65536 = false := by
  simpa [floatContinues, hi] using h

/-- Every run of the loop is the end of R199 applied to a point at which the float phase is left. -/
theorem iterate_eq_etiFinish (cap : BitVec 32) (e : Eti) (cx cy : Q) :
    ∃ last : Eti, iterate cap e cx cy = etiFinish cap last ∧ floatContinues cap last = false := by
  obtain ⟨_, _, hrun, -, -, -, -, hleave⟩ := iterate_spec cap e cx cy
  exact ⟨_, hrun, hleave⟩

/-- Settles O46: the run ends with `etiFinish` at a point where the float phase is left (`iterate_eq_etiFinish`); the
cap is tested first, and below it that point lies outside the bound. -/
theorem iterResult : Obligations.IterResult := by
  intro s ra rb
  obtain ⟨last, hrun, hleave⟩ := iterate_eq_etiFinish s.maxIter s.eti (s.readQ ra) (s.readQ rb)
  refine ⟨_, exec_iter ra rb s, ?_⟩
  simp only [State.complete_eti, State.setEti_eti, hrun, etiFinish_phase, etiFinish_i, etiFinish_xf, etiFinish_yf,
    etiFinish_capped, true_and]
  refine ⟨fun hcap => ⟨decide_eq_true hcap, etiFinish_res_of_le hcap⟩, fun hlt => ⟨?below, ?outside, ?index⟩⟩
  case below => exact decide_eq_false (BitVec.not_le.2 hlt)
  case outside => exact fle_floatNorm_of_floatContinues_eq_false hleave hlt
  case index => exact etiFinish_res_of_lt hlt

end Sys2Proof.Machine
end

section
/-! The words that the opcode map spells are those that decode (R94, R95, R96). -/

namespace Sys2Proof

/-! ### What a row of the opcode map says about the fields of a word -/

/-- The patterns of the opcode map: an opcode and zeros (R94). -/
theorem opcodeTable_pattern : ∀ r ∈ opcodeTable,
    rdField r.pattern = 0 ∧ raField r.pattern = 0 ∧ rbField r.pattern = 0 ∧ lowField r.pattern = 0#12 := by
  decide

/-- The masks of the opcode map: the opcode whole, and of every other field all or nothing (R91, R92, R94). -/
theorem opcodeTable_mask : ∀ r ∈ opcodeTable,
    opField r.mask = BitVec.allOnes 8 ∧
    (BitVec.ofFin (rdField r.mask) = 0#4 ∨ BitVec.ofFin (rdField r.mask) = BitVec.allOnes 4) ∧
    (BitVec.ofFin (raField r.mask) = 0#4 ∨ BitVec.ofFin (raField r.mask) = BitVec.allOnes 4) ∧
    (BitVec.ofFin (rbField r.mask) = 0#4 ∨ BitVec.ofFin (rbField r.mask) = BitVec.allOnes 4) ∧
    (lowField r.mask = 0#12 ∨ lowField r.mask = BitVec.allOnes 12) := by
  decide

/-- No two rows of the opcode map have the same opcode. -/
theorem opcodeTable_opcodes_distinct : ∀ r ∈ opcodeTable, ∀ r' ∈ opcodeTable,
    opField r.pattern = opField r'.pattern → r = r' := by
  decide

/-- What an all-or-nothing mask keeps of a field is zero exactly if it keeps nothing or the field is zero. -/
theorem and_mask_eq_zero_iff {n : Nat} {x m : BitVec n} (hm : m = 0#n ∨ m = BitVec.allOnes n) :
    x &&& m = 0#n ↔ m = 0#n ∨ x = 0#n := by
  constructor
  · intro h
    obtain rfl | rfl := hm
    · exact .inl rfl
    · exact .inr (BitVec.and_allOnes.symm.trans h)
  · rintro (rfl | rfl)
    · exact BitVec.and_zero
    · exact BitVec.zero_and

theorem ofFin_eq_zero_iff (r : Reg) : BitVec.ofFin r = 0#4 ↔ r = 0 :=
  BitVec.toFin_inj.symm

/-- Every field of the word that the row's mask keeps, beside the opcode, is zero. -/
def OpcodeRow.ZeroFields (r : OpcodeRow) (w : CmdWord) : Prop :=
  (rdField r.mask = 0 ∨ rdField w = 0) ∧ (raField r.mask = 0 ∨ raField w = 0) ∧
  (rbField r.mask = 0 ∨ rbField w = 0) ∧ (lowField r.mask = 0#12 ∨ lowField w = 0#12)

/-- A row of the opcode map spells the words that have its opcode and zeros wherever else its mask looks (R94). -/
theorem OpcodeRow.spells_iff {r : OpcodeRow} (hr : r ∈ opcodeTable) (w : CmdWord) :
    r.spells w = true ↔ opField w = opField r.pattern ∧ r.ZeroFields w := by
  obtain ⟨hrdP, hraP, hrbP, hlowP⟩ := opcodeTable_pattern r hr
  obtain ⟨hopM, hrdM, hraM, hrbM, hlowM⟩ := opcodeTable_mask r hr
  rw [OpcodeRow.spells, beq_iff_eq]
  conv_lhs => rw [word_eq_join w, word_eq_join r.mask, word_eq_join r.pattern]
  rw [joinFields_and, joinFields_inj, hopM, hrdP, hraP, hrbP, hlowP, BitVec.and_allOnes]
  simp only [OpcodeRow.ZeroFields, ← ofFin_eq_zero_iff]
  exact and_congr_right' (and_congr (and_mask_eq_zero_iff hrdM) (and_congr (and_mask_eq_zero_iff hraM)
    (and_congr (and_mask_eq_zero_iff hrbM) (and_mask_eq_zero_iff hlowM))))

/-- The row of the opcode map with a given opcode. -/
def rowWithOpcode (op : BitVec 8) : Option OpcodeRow :=
  opcodeTable.find? fun r => opField r.pattern == op

/-- A word whose opcode no row has is illegal. -/
theorem legalWord_eq_false_of_rowWithOpcode {w : CmdWord} (h : rowWithOpcode (opField w) = none) :
    legalWord w = false := by
  rw [legalWord, List.any_eq_false]
  intro r hr hspells
  have hop := ((OpcodeRow.spells_iff hr w).1 hspells).1
  exact List.find?_eq_none.1 h r hr (beq_iff_eq.2 hop.symm)

/-- A word whose opcode some row has is legal exactly if that row's mask finds zeros beside the opcode. -/
theorem legalWord_iff_zeroFields {w : CmdWord} {r : OpcodeRow} (hrow : rowWithOpcode (opField w) = some r) :
    legalWord w = true ↔ r.ZeroFields w := by
  have hr : r ∈ opcodeTable := List.mem_of_find?_eq_some hrow
  have hop : opField r.pattern = opField w := by simpa using List.find?_some hrow
  rw [legalWord, List.any_eq_true]
  constructor
  · rintro ⟨r', hr', hspells⟩
    obtain ⟨hop', hzero⟩ := (OpcodeRow.spells_iff hr' w).1 hspells
    rwa [opcodeTable_opcodes_distinct r hr r' hr' (hop.trans hop')]
  · exact fun hzero => ⟨r, hr, (OpcodeRow.spells_iff hr w).2 ⟨hop.symm, hzero⟩⟩

/-! ### The same words decode -/

theorem midField_eq_zero_iff (w : CmdWord) :
    midField w = 0#12 ↔ rdField w = 0 ∧ raField w = 0 ∧ rbField w = 0 := by
  rw [← BitVec.toNat_inj, Fin.ext_iff, Fin.ext_iff, Fin.ext_iff, midField_toNat, rdField_val, raField_val, rbField_val]
  simp only [BitVec.toNat_ofNat, Fin.val_zero]
  omega

/-- One line of `decode`: it answers a command for the legal words if its zero test is the test of the row. -/
theorem legalWord_iff_ifZero {w : CmdWord} {r : OpcodeRow} {zero : Bool} {j : Instr}
    (hrow : rowWithOpcode (opField w) = some r) (hzero : r.ZeroFields w ↔ zero = true) :
    legalWord w = true ↔ ∃ i, ifZero zero j = .instr i := by
  rw [legalWord_iff_zeroFields hrow, hzero]
  simp [ifZero_eq_instr]

/-- A word is legal exactly if it decodes to a command: line by line of `decode`, the row with that opcode tests the
same fields; for any other opcode there is no row. -/
theorem legalWord_iff_decode_instr (w : CmdWord) : legalWord w = true ↔ ∃ i, decode w = .instr i := by
  unfold decode
  simp only
  split
  case h_19 =>
    have hrow : rowWithOpcode (opField w) = none := by
      generalize opField w = op at *
      simp_all [rowWithOpcode, opcodeTable, opField, @eq_comm _ _ op]
    simp [legalWord_eq_false_of_rowWithOpcode hrow]
  all_goals
    rename_i hop
    refine legalWord_iff_ifZero (by rw [hop]; rfl) ?_
    simp +decide [OpcodeRow.ZeroFields, midField_eq_zero_iff, and_assoc]

theorem legalWord_of_decode_instr {w : CmdWord} {i : Instr} (h : decode w = .instr i) : legalWord w = true :=
  (legalWord_iff_decode_instr w).2 ⟨i, h⟩

theorem legalWord_of_decode_illegal {w : CmdWord} {why : Illegal} (h : decode w = .illegal why) :
    legalWord w = false := by
  rw [← Bool.not_eq_true, legalWord_iff_decode_instr, h]
  simp

end Sys2Proof
end

section
/-! When the two faults of a well-formed command arise (R251, R252). -/

namespace Sys2Proof.Machine
open Sys2Proof.Claims

/-! ### CSR numbers -/

/-- A CSR number names a register exactly if it is one of the 15 of R29. -/
theorem csrOfNumber_eq_none_iff (n : CsrNum) : csrOfNumber n = none ↔ n ∉ definedCsrs := by
  unfold csrOfNumber
  split <;> simp_all [definedCsrs]

theorem exec_csrr_of_some {n : CsrNum} {c : Csr} (h : csrOfNumber n = some c) (s : State) :
    exec (.csrr n) s = .next (s.complete (s.readCsr c)) := by
  simp only [exec, execCsrr, h]

theorem exec_csrr_of_none {n : CsrNum} (h : csrOfNumber n = none) (s : State) :
    exec (.csrr n) s = .next (s.raise .illegalCsr) := by
  simp only [exec, execCsrr, h]

theorem exec_csrw_maxIter (s : State) :
    exec (.csrw 0x002#12) s = .next ((s.setMaxIter (wdata32 s.port.wdata)).complete 0#130) := rfl

/-- Any number but that of `MAXITER` faults: it names no register, or a read-only one (R231). -/
theorem exec_csrw_of_ne {n : CsrNum} (h : n ≠ 0x002#12) (s : State) :
    exec (.csrw n) s = .next (s.raise .illegalCsr) := by
  simp only [exec, execCsrw]
  cases hc : csrOfNumber n with
  | none => rfl
  | some c =>
    obtain ⟨rfl, -⟩ | ⟨-, hwrite⟩ := s.writeCsr_cases c s.port.wdata
    · exact absurd ((csrOfNumber_eq_maxIter n).1 hc) h
    · simp only [hwrite]

/-- Settles O18: `CSRR` by whether its number names a register, `CSRW` by whether it is that of `MAXITER`. -/
theorem illegalCsrExactly : Obligations.IllegalCsrExactly := by
  refine fun n s => ⟨?csrr, ?csrw, rfl⟩
  case csrr =>
    rw [← csrOfNumber_eq_none_iff]
    cases hc : csrOfNumber n with
    | none => exact ⟨_, exec_csrr_of_none hc s, by simp⟩
    | some c => exact ⟨_, exec_csrr_of_some hc s, by simp⟩
  case csrw =>
    by_cases hn : n = 0x002#12
    · subst hn
      exact ⟨_, exec_csrw_maxIter s, by simp⟩
    · exact ⟨_, exec_csrw_of_ne hn s, by simp [hn]⟩

/-! ### Literals -/

theorem signOfCode_eq_none_iff (c : BitVec 2) : signOfCode c = none ↔ c = 0b10#2 := by
  revert c
  decide

/-- The magnitude bits of a data word are zero exactly if both halves are. -/
theorem extractLsb'_magnitude_eq_zero_iff (w : DataWord) :
    w.extractLsb' 0 128 = 0#128 ↔ w.extractLsb' 64 64 = 0#64 ∧ w.extractLsb' 0 64 = 0#64 := by
  simp only [← BitVec.toNat_inj, BitVec.extractLsb'_toNat, Nat.shiftRight_eq_div_pow, BitVec.toNat_ofNat]
  omega

/-- The literal check refuses exactly the words that do not pack a canonical value. -/
theorem literal_eq_none_iff (w : DataWord) : literal w = none ↔ ¬ CanonicalLiteral w := by
  rw [CanonicalLiteral, extractLsb'_magnitude_eq_zero_iff]
  unfold literal
  simp only
  cases hs : signOfCode (w.extractLsb' 128 2) with
  | none => simp [(signOfCode_eq_none_iff _).1 hs]
  | some sign =>
    have hcode : w.extractLsb' 128 2 ≠ 0b10#2 := fun h => by simp [(signOfCode_eq_none_iff _).2 h] at hs
    simp only [ite_eq_left_iff, reduceCtorEq, imp_false, not_not]
    tauto

theorem exec_qld_of_some {s : State} {v : Q} (h : literal s.port.wdata = some v) (rd : Reg) :
    exec (.qld rd) s = .next ((s.writeQ rd v).complete 0#130) := by
  simp only [exec, execQld, h]

theorem exec_qld_of_none {s : State} (h : literal s.port.wdata = none) (rd : Reg) :
    exec (.qld rd) s = .next (s.raise .invalidLiteral) := by
  simp only [exec, execQld, h]

/-- Settles O19: `QLD` by whether the literal check refuses its data word; by `exec_cases` no other command answers
that code. -/
theorem invalidLiteralExactly : Obligations.InvalidLiteralExactly := by
  refine ⟨fun rd s => ?qld, fun i s t d hexec hrsp => ?only, rfl⟩
  case qld =>
    rw [← literal_eq_none_iff]
    cases hl : literal s.port.wdata with
    | none => exact ⟨_, exec_qld_of_none hl rd, by simp, fun _ => rfl⟩
    | some v => exact ⟨_, exec_qld_of_some hl rd, by simp, by simp⟩
  case only =>
    obtain ⟨t', hexec', -, -, -, hcases⟩ := exec_cases i s
    cases hexec'.symm.trans hexec
    obtain ⟨d', hok, -⟩ | ⟨hqld, -⟩ | ⟨-, rfl⟩ := hcases
    · cases hok.symm.trans hrsp
    · exact hqld
    · cases hrsp

/-- Settles O21: by `exec_cases` a command that does not complete is `QLD`, `CSRR` or `CSRW`. -/
theorem noOtherCommandFaults : Obligations.NoOtherCommandFaults := by
  intro i s hi
  obtain ⟨t, hexec, -, -, -, ⟨d, hok, -⟩ | ⟨⟨rd, rfl⟩, -⟩ | ⟨⟨n, rfl⟩ | ⟨n, rfl⟩, -⟩⟩ := exec_cases i s
  · exact ⟨t, d, hexec, hok⟩
  all_goals cases hi

end Sys2Proof.Machine
end

section
/-! The response to a command that the unit takes, and what a fault leaves (R253, R255). -/

namespace Sys2Proof.Machine

/-- The cause of each fault, as a set of command words (R255). -/
def FaultCause (cmd : CmdWord) : ErrCode → Prop
  | .ok => False
  | .illegalCommand => legalWord cmd = false
  | .illegalCsr => ∃ n, decode cmd = .instr (.csrr n) ∨ decode cmd = .instr (.csrw n)
  | .invalidLiteral => ∃ rd, decode cmd = .instr (.qld rd)

/-- An illegal word has no other fault cause: the others are sets of words that decode. -/
theorem FaultCause.eq_illegalCommand {cmd : CmdWord} {c : ErrCode} (h : FaultCause cmd c)
    (hillegal : legalWord cmd = false) : c = .illegalCommand := by
  have hdecode (i : Instr) : decode cmd ≠ .instr i := fun hi => by
    simp [legalWord_of_decode_instr hi] at hillegal
  cases c with
  | ok => exact h.elim
  | illegalCommand => rfl
  | illegalCsr =>
    obtain ⟨n, hd | hd⟩ := h
    · exact absurd hd (hdecode _)
    · exact absurd hd (hdecode _)
  | invalidLiteral =>
    obtain ⟨rd, hd⟩ := h
    exact absurd hd (hdecode _)

/-- A command that is taken is a legal word and completes, or it faults for the cause of its code. -/
theorem step_command_response {s t : State} {cmd : CmdWord} {wdata : DataWord} {rest : List HostMove}
    (hhost : s.host = .command cmd wdata :: rest) (hstep : step s = .next t) :
    (legalWord cmd = true ∧ ∃ d, t.rsp = some ⟨.ok, d⟩) ∨
    ∃ c, FaultCause cmd c ∧ t = (s.accept cmd wdata rest).raise c := by
  obtain ⟨i, hdec, hexec⟩ | ⟨⟨why, hdec⟩, rfl⟩ := step_command_cases hhost hstep
  · obtain ⟨t', hexec', -, -, -, hcases⟩ := exec_cases i (s.accept cmd wdata rest)
    cases hexec'.symm.trans hexec
    obtain ⟨d, hok, -⟩ | ⟨⟨rd, rfl⟩, rfl⟩ | ⟨⟨n, rfl⟩ | ⟨n, rfl⟩, rfl⟩ := hcases
    · exact .inl ⟨legalWord_of_decode_instr hdec, d, hok⟩
    · exact .inr ⟨.invalidLiteral, ⟨rd, hdec⟩, rfl⟩
    · exact .inr ⟨.illegalCsr, ⟨n, .inl hdec⟩, rfl⟩
    · exact .inr ⟨.illegalCsr, ⟨n, .inr hdec⟩, rfl⟩
  · exact .inr ⟨.illegalCommand, legalWord_of_decode_illegal hdec, rfl⟩

/-- A response with an error code comes from `raise` in the state in which the command was taken. -/
theorem step_command_fault {s t : State} {cmd : CmdWord} {wdata : DataWord} {rest : List HostMove} {c : ErrCode}
    {d : DataWord} (hhost : s.host = .command cmd wdata :: rest) (hstep : step s = .next t)
    (hrsp : t.rsp = some ⟨c, d⟩) (hc : c ≠ .ok) :
    FaultCause cmd c ∧ d = 0#130 ∧ t = (s.accept cmd wdata rest).raise c := by
  obtain ⟨-, d', hok⟩ | ⟨c', hcause, rfl⟩ := step_command_response hhost hstep
  · cases hok.symm.trans hrsp
    exact absurd rfl hc
  · cases hrsp
    exact ⟨hcause, rfl, rfl⟩

/-- Settles O16: the response comes from `raise` (`step_command_fault`), and each part is what `raise` and `accept` do
to that field. -/
theorem faultEffect : Obligations.FaultEffect := by
  intro s t cmd wdata rest c d hhost hstep hrsp hc
  obtain ⟨-, rfl, rfl⟩ := step_command_fault hhost hstep hrsp hc
  refine ⟨fun r => rfl, rfl, rfl, rfl, fun hfirst => ?first, fun hlater => ?later, rfl⟩
  case first => simp [hfirst]
  case later => simp [hlater]

/-- Settles O20: an error code's cause is read off `step_command_fault`; an illegal word does not complete, and its only
cause is that of `ILLEGAL_COMMAND`. -/
theorem faultCausesAreDisjoint : Obligations.FaultCausesAreDisjoint := by
  intro s t cmd wdata rest d hhost hstep
  refine ⟨⟨fun hrsp => ?legal, fun ⟨hillegal, hd⟩ => ?illegal⟩, fun hrsp => ?csr, fun hrsp => ?literal⟩
  case legal =>
    obtain ⟨hillegal, hd, -⟩ := step_command_fault hhost hstep hrsp (by decide)
    exact ⟨hillegal, hd⟩
  case illegal =>
    obtain ⟨hlegal, -⟩ | ⟨c, hcause, rfl⟩ := step_command_response hhost hstep
    · simp [hlegal] at hillegal
    · rw [State.raise_rsp, hcause.eq_illegalCommand hillegal, hd]
  case csr => exact (step_command_fault hhost hstep hrsp (by decide)).1
  case literal => exact (step_command_fault hhost hstep hrsp (by decide)).1

end Sys2Proof.Machine
end

section
/-! Decoding and encoding are inverse to each other, and both agree with the opcode map (R94, R95). -/

namespace Sys2Proof

/-! ### The fields of an encoded word, one by one -/

section EncodedFields
variable {op : Nat} (h : op < 256) (rd ra rb : Reg) (csr : CsrNum)
include h

@[simp] theorem opField_encodeR : opField (encodeR op rd ra rb) = BitVec.ofNat 8 op := (fields_encodeR h rd ra rb).1
@[simp] theorem rdField_encodeR : rdField (encodeR op rd ra rb) = rd := (fields_encodeR h rd ra rb).2.1
@[simp] theorem raField_encodeR : raField (encodeR op rd ra rb) = ra := (fields_encodeR h rd ra rb).2.2.1
@[simp] theorem rbField_encodeR : rbField (encodeR op rd ra rb) = rb := (fields_encodeR h rd ra rb).2.2.2.1
@[simp] theorem lowField_encodeR : lowField (encodeR op rd ra rb) = 0#12 := (fields_encodeR h rd ra rb).2.2.2.2
@[simp] theorem opField_encodeC : opField (encodeC op csr) = BitVec.ofNat 8 op := (fields_encodeC h csr).1
@[simp] theorem midField_encodeC : midField (encodeC op csr) = 0#12 := (fields_encodeC h csr).2.1
@[simp] theorem lowField_encodeC : lowField (encodeC op csr) = csr := (fields_encodeC h csr).2.2

end EncodedFields

/-- Settles O2: the fields of the encoded word are the operands, the unused ones zero, so the line of `decode` for that
opcode answers the command. -/
theorem decodeOfEncode : Obligations.DecodeOfEncode := by
  intro i
  cases i <;> simp [encode, decode, ifZero]

/-! ### A word from its fields -/

/-- A word of format R with that opcode and zero low bits is the encoding of its register fields. -/
theorem encodeR_fields {op : Nat} (h : op < 256) {w : CmdWord} {rd ra rb : Reg}
    (hop : opField w = BitVec.ofNat 8 op) (hrd : rdField w = rd) (hra : raField w = ra) (hrb : rbField w = rb)
    (hlow : lowField w = 0#12) : encodeR op rd ra rb = w := by
  rw [encodeR_eq_join h, ← hop, ← hrd, ← hra, ← hrb, ← hlow, ← word_eq_join w]

/-- A word of format C with that opcode and zero middle bits is the encoding of its CSR number. -/
theorem encodeC_fields {op : Nat} (h : op < 256) {w : CmdWord} (hop : opField w = BitVec.ofNat 8 op)
    (hmid : midField w = 0#12) : encodeC op (lowField w) = w := by
  obtain ⟨hrd, hra, hrb⟩ := (midField_eq_zero_iff w).1 hmid
  conv_rhs => rw [word_eq_join w, hrd, hra, hrb, hop]
  exact encodeC_eq_join h _

/-- Settles O3: line by line of `decode`, the fields that its zero test finds zero and the operands it reads are all the
fields of the word. -/
theorem encodeOfDecode : Obligations.EncodeOfDecode := by
  intro w i h
  unfold decode at h
  simp only at h
  split at h
  case h_19 => cases h
  case h_17 hop | h_18 hop =>
    obtain ⟨hz, rfl⟩ := ifZero_eq_instr.1 h
    exact encodeC_fields (by decide) hop (beq_iff_eq.1 hz)
  all_goals
    rename_i hop
    obtain ⟨hz, rfl⟩ := ifZero_eq_instr.1 h
    simp only [Bool.and_eq_true, beq_iff_eq] at hz
    refine encodeR_fields (by decide) hop ?_ ?_ ?_ ?_ <;> simp [hz]

/-! ### The rows of the opcode map -/

/-- The row of the opcode map that bears a command's mnemonic spells its encoding. -/
theorem exists_row (i : Instr) : Laws.RowOf.Statement i := by
  cases i with
  | qzero rd => exact Laws.RowOf.qzero rd
  | qone rd => exact Laws.RowOf.qone rd
  | qld rd => exact Laws.RowOf.qld rd
  | qst ra => exact Laws.RowOf.qst ra
  | qmov rd ra => exact Laws.RowOf.qmov rd ra
  | qneg rd ra => exact Laws.RowOf.qneg rd ra
  | qadd rd ra rb => exact Laws.RowOf.qadd rd ra rb
  | qsub rd ra rb => exact Laws.RowOf.qsub rd ra rb
  | qmul rd ra rb => exact Laws.RowOf.qmul rd ra rb
  | qcmp ra rb => exact Laws.RowOf.qcmp ra rb
  | f64toq rd => exact Laws.RowOf.f64toq rd
  | f32toq rd => exact Laws.RowOf.f32toq rd
  | qtof64 ra => exact Laws.RowOf.qtof64 ra
  | qtof32 ra => exact Laws.RowOf.qtof32 ra
  | qtoi8 ra => exact Laws.RowOf.qtoi8 ra
  | iter ra rb => exact Laws.RowOf.iter ra rb
  | csrr csr => exact Laws.RowOf.csrr csr
  | csrw csr => exact Laws.RowOf.csrw csr

/-- No two rows of the opcode map bear the same mnemonic. -/
theorem opcodeTable_mnemonics_distinct : ∀ r ∈ opcodeTable, ∀ r' ∈ opcodeTable, r.mnemonic = r'.mnemonic → r = r' := by
  decide

/-- A word is spelled by at most one row: the opcodes of the rows differ. -/
theorem OpcodeRow.eq_of_spells {r r' : OpcodeRow} (hr : r ∈ opcodeTable) (hr' : r' ∈ opcodeTable) {w : CmdWord}
    (h : r.spells w = true) (h' : r'.spells w = true) : r = r' :=
  opcodeTable_opcodes_distinct r hr r' hr'
    (((OpcodeRow.spells_iff hr w).1 h).1.symm.trans ((OpcodeRow.spells_iff hr' w).1 h').1)

/-- Settles O4: a word that decodes is the encoding of its command (`encodeOfDecode`), which the row with the command's
mnemonic spells; opcodes and mnemonics each pick at most one row. -/
theorem decodeAgreesWithOpcodeMap : Obligations.DecodeAgreesWithOpcodeMap := by
  refine fun w => ⟨fun i hdec r hr => ?_, fun why hdec => legalWord_of_decode_illegal hdec⟩
  obtain ⟨row, hrow, hmn, hspells⟩ := exists_row i
  rw [encodeOfDecode w i hdec] at hspells
  constructor
  · intro h
    rw [OpcodeRow.eq_of_spells hr hrow h hspells, hmn]
  · intro h
    rwa [opcodeTable_mnemonics_distinct r hr row hrow (h.trans hmn.symm)]

/-- Settles O1: each word is evaluated. -/
theorem sampleWordsDecode : Obligations.SampleWordsDecode := by
  unfold Obligations.SampleWordsDecode
  decide +kernel

end Sys2Proof
end

section
/-! What a step can be, and the port (R11, R12, R63 to R67). -/

namespace Sys2Proof.Machine
open Sys2Proof.Claims

/-! ### The four kinds of step -/

theorem step_of_idle {s : State} (h : s.host = []) : step s = .next s := by
  simp only [step, h]

theorem step_of_reset {s : State} {rest : List HostMove} (h : s.host = .reset :: rest) :
    step s = .next (s.assertReset rest) := by
  simp only [step, h]

theorem step_of_takeResponse {s : State} {rest : List HostMove} (h : s.host = .takeResponse :: rest) :
    step s = .next (s.giveResponse rest) := by
  simp only [step, h]

section Command
variable {s : State} {cmd : CmdWord} {wdata : DataWord} {rest : List HostMove}
  (h : s.host = .command cmd wdata :: rest)
include h

theorem step_of_instr {i : Instr} (hdec : decode cmd = .instr i) : step s = exec i (s.accept cmd wdata rest) := by
  simp only [step, h, hdec]

theorem step_of_illegal {why : Illegal} (hdec : decode cmd = .illegal why) :
    step s = .next ((s.accept cmd wdata rest).raise .illegalCommand) := by
  simp only [step, h, hdec]

/-- A taken command is answered: it completes and leaves the error record, or it faults. -/
theorem step_command : ∃ t, step s = .next t ∧ t.host = rest ∧ t.answered = s.answered ++ s.rsp.toList ∧
    ((∃ d, t.rsp = some ⟨.ok, d⟩ ∧ t.err = s.err ∧ t.errCode = s.errCode ∧ t.errCmd = s.errCmd) ∨
     ∃ c, c ≠ .ok ∧ t = (s.accept cmd wdata rest).raise c) := by
  cases hdec : decode cmd with
  | illegal why => exact ⟨_, step_of_illegal h hdec, rfl, rfl, .inr ⟨_, by decide, rfl⟩⟩
  | instr i =>
    obtain ⟨t, hexec, -, hhost, hanswered, hcases⟩ := exec_cases i (s.accept cmd wdata rest)
    refine ⟨t, (step_of_instr h hdec).trans hexec, hhost, hanswered, ?_⟩
    obtain hok | ⟨-, rfl⟩ | ⟨-, rfl⟩ := hcases
    · exact .inl hok
    · exact .inr ⟨_, by decide, rfl⟩
    · exact .inr ⟨_, by decide, rfl⟩

end Command

/-- Settles O5: the step is `exec` by its definition, and the second part is what `accept` does. -/
theorem stepRunsDecodedCommand : Obligations.StepRunsDecodedCommand :=
  fun _ _ _ _ _ hhost hdec => ⟨step_of_instr hhost hdec, rfl⟩

/-- Settles O6: by `step_command` the command completes, or the next state comes from `raise`, which touches only the
error record and the response. -/
theorem everyCommandCompletesOrFaults : Obligations.EveryCommandCompletesOrFaults := by
  intro s cmd wdata rest hhost
  obtain ⟨t, hstep, hrest, hanswered, hok | ⟨c, hc, rfl⟩⟩ := step_command hhost
  · exact ⟨t, hstep, hrest, hanswered, .inl hok⟩
  · exact ⟨_, hstep, hrest, hanswered, .inr ⟨c, hc, rfl, rfl⟩⟩

/-- Settles O7: for each kind of move, what the step answers. -/
theorem stepAlwaysAnswersNext : Obligations.StepAlwaysAnswersNext := by
  intro s
  match hhost : s.host with
  | [] => exact ⟨_, step_of_idle hhost⟩
  | .reset :: _ => exact ⟨_, step_of_reset hhost⟩
  | .takeResponse :: _ => exact ⟨_, step_of_takeResponse hhost⟩
  | .command _ _ :: _ =>
    obtain ⟨t, hstep, -⟩ := step_command hhost
    exact ⟨t, hstep⟩

/-- Settles O8: one equation of `step` per move. -/
theorem otherHostMoves : Obligations.OtherHostMoves :=
  fun _ _ => ⟨step_of_reset, step_of_takeResponse, step_of_idle⟩

/-- Settles O9: the command's step leaves the reset as the next move and has handed over only the earlier response; the
reset then loses the command's own. -/
theorem resetAbandonsCommand : Obligations.ResetAbandonsCommand := by
  intro s t cmd wdata rest hhost hstep
  obtain ⟨t', hstep', hreset, hanswered, -⟩ := step_command hhost
  cases hstep'.symm.trans hstep
  exact ⟨_, step_of_reset hreset, by rw [← hanswered]; rfl⟩

/-- Settles O17: a word that no row spells does not decode, so its step is `raise`. -/
theorem illegalWordAnswersIllegalCommand : Obligations.IllegalWordAnswersIllegalCommand := by
  intro s cmd wdata rest hhost hillegal
  cases hdec : decode cmd with
  | instr i => simp [legalWord_of_decode_instr hdec] at hillegal
  | illegal why => exact ⟨_, step_of_illegal hhost hdec, rfl, rfl, fun _ => rfl, rfl, rfl, rfl⟩

end Sys2Proof.Machine
end

section
/-! What a run of `ITER` is: its counts, its frame, and the transitions it is made of (R192 to R204). -/

namespace Sys2Proof.Machine
open Sys2Proof.Claims

/-! ### The counts of a run -/

/-- A run ends DONE with `k` fixed-phase and `l` float-phase updates counted, and it is capped exactly at the cap. -/
theorem iterate_counts (cap : BitVec 32) (e : Eti) (cx cy : Q) :
    ∃ k l : Nat, k + l ≤ cap.toNat ∧ (iterate cap e cx cy).isw = BitVec.ofNat 32 k ∧
      (iterate cap e cx cy).i = BitVec.ofNat 32 (k + l) ∧
      (iterate cap e cx cy).capped = decide (cap ≤ (iterate cap e cx cy).i) := by
  obtain ⟨k, l, hrun, hkl, -⟩ := iterate_spec cap e cx cy
  have hi : (floatStep^[l] (etiSwitch (fixedStep^[k] (etiStart e cx cy)))).i = BitVec.ofNat 32 (k + l) := by
    rw [(floatStep_iterate _ _).1, ← ofNat_add_ofNat]
    congr 1
    exact (fixedStep_iterate _ _).1.trans (BitVec.zero_add _)
  refine ⟨k, l, hkl, ?_, ?_, ?_⟩
  · obtain ⟨-, -, -, -, hisw, -⟩ := floatStep_iterate (etiSwitch (fixedStep^[k] (etiStart e cx cy))) l
    rw [hrun, etiFinish_isw, hisw]
    exact (fixedStep_iterate _ _).1.trans (BitVec.zero_add _)
  · rw [hrun, etiFinish_i, hi]
  · rw [hrun, etiFinish_capped, etiFinish_i]

section Run
variable (cap : BitVec 32) (e : Eti) (cx cy : Q)

@[simp] theorem iterate_phase : (iterate cap e cx cy).phase = .done := etiFinish_phase _ _

theorem iterate_isw_le_i : (iterate cap e cx cy).isw ≤ (iterate cap e cx cy).i := by
  obtain ⟨k, l, hkl, hisw, hi, -⟩ := iterate_counts cap e cx cy
  have := cap.isLt
  rw [hisw, hi, BitVec.le_def, BitVec.toNat_ofNat, BitVec.toNat_ofNat, Nat.mod_eq_of_lt (by omega),
    Nat.mod_eq_of_lt (by omega)]
  omega

theorem iterate_i_le_cap : (iterate cap e cx cy).i ≤ cap := by
  obtain ⟨k, l, hkl, -, hi, -⟩ := iterate_counts cap e cx cy
  have := cap.isLt
  rw [hi, BitVec.le_def, BitVec.toNat_ofNat, Nat.mod_eq_of_lt (by omega)]
  exact hkl

theorem iterate_capped_iff : (iterate cap e cx cy).capped = true ↔ (iterate cap e cx cy).i = cap := by
  obtain ⟨-, -, -, -, -, hcapped⟩ := iterate_counts cap e cx cy
  rw [hcapped, decide_eq_true_iff]
  exact ⟨fun h => BitVec.le_antisymm (iterate_i_le_cap ..) h, fun h => by rw [h]; exact BitVec.le_refl cap⟩

/-- The constant of the run stays in its registers. -/
theorem iterate_constant : (iterate cap e cx cy).cxq = cx ∧ (iterate cap e cx cy).cyq = cy := by
  obtain ⟨k, l, hrun, -⟩ := iterate_spec cap e cx cy
  obtain ⟨-, -, hcx, hcy, -⟩ := floatStep_iterate (etiSwitch (fixedStep^[k] (etiStart e cx cy))) l
  obtain ⟨-, -, hcx', hcy'⟩ := fixedStep_iterate (etiStart e cx cy) k
  rw [hrun, etiFinish_cxq, etiFinish_cyq, hcx, hcy]
  exact ⟨hcx', hcy'⟩

end Run

/-! ### The answer -/

theorem iterData_res (e : Eti) : (iterData e).extractLsb' 0 64 = e.res := by
  apply BitVec.eq_of_toNat_eq
  rw [BitVec.extractLsb'_toNat, iterData_toNat, Nat.shiftRight_eq_div_pow]
  have := e.res.isLt
  omega

theorem iterData_capped (e : Eti) : (iterData e).extractLsb' 64 1 = BitVec.ofBool e.capped := by
  apply BitVec.eq_of_toNat_eq
  rw [BitVec.extractLsb'_toNat, iterData_toNat, Nat.shiftRight_eq_div_pow]
  have := e.res.isLt
  have := (BitVec.ofBool e.capped).isLt
  omega

theorem iterData_lt (e : Eti) : (iterData e).toNat < 2 ^ 65 := by
  rw [iterData_toNat]
  have := e.res.isLt
  have := (BitVec.ofBool e.capped).isLt
  omega

/-- Settles O42: the answer is `iterData`, the frame is what `exec_iter` leaves, and the counts are those of a run
(`iterate_counts`). -/
theorem iterCompletes : Obligations.IterCompletes := by
  intro s ra rb
  obtain ⟨hcx, hcy⟩ := iterate_constant s.maxIter s.eti (s.readQ ra) (s.readQ rb)
  exact ⟨_, _, ⟨exec_iter ra rb s, rfl⟩, rfl, iterData_res _, iterData_capped _, iterData_lt _, iterate_phase ..,
    hcx, hcy, iterate_isw_le_i .., iterate_i_le_cap .., iterate_capped_iff ..⟩

/-! ### The registers that a run's parts touch -/

/-- The fixed-point registers of the iterator are canonical. -/
def Eti.Canonical (e : Eti) : Prop :=
  e.cxq.canonical = true ∧ e.cyq.canonical = true ∧ e.xq.canonical = true ∧ e.yq.canonical = true

theorem etiStart_canonical (e : Eti) {cx cy : Q} (hx : cx.canonical = true) (hy : cy.canonical = true) :
    (etiStart e cx cy).Canonical :=
  ⟨hx, hy, qzeroV_canonical, qzeroV_canonical⟩

theorem fixedStep_canonical {e : Eti} (h : e.Canonical) : (fixedStep e).Canonical := by
  obtain ⟨hcx, hcy, -, -⟩ := h
  exact ⟨hcx, hcy, qadd_canonical (qsub_canonical (qmul_canonical _ _) (qmul_canonical _ _)) hcx,
    qadd_canonical (qadd_canonical (qmul_canonical _ _) (qmul_canonical _ _)) hcy⟩

theorem fixedStep_iterate_canonical {e : Eti} (h : e.Canonical) (k : Nat) : (fixedStep^[k] e).Canonical :=
  Function.Iterate.rec Eti.Canonical h (fun _ => fixedStep_canonical) k

/-- A run from a canonical constant leaves canonical registers: the float phase does not touch them. -/
theorem iterate_canonical (cap : BitVec 32) (e : Eti) {cx cy : Q} (hx : cx.canonical = true)
    (hy : cy.canonical = true) : (iterate cap e cx cy).Canonical := by
  obtain ⟨k, l, hrun, -⟩ := iterate_spec cap e cx cy
  obtain ⟨-, -, hcx, hcy, -, hxq, hyq, -⟩ := floatStep_iterate (etiSwitch (fixedStep^[k] (etiStart e cx cy))) l
  rw [hrun, Eti.Canonical, etiFinish_cxq, etiFinish_cyq, etiFinish_xq, etiFinish_yq, hcx, hcy, hxq, hyq]
  exact fixedStep_iterate_canonical (etiStart_canonical e hx hy) k

end Sys2Proof.Machine
end

section
/-! What each command does to the state, said once, and what follows for the frame and the invariants. -/

namespace Sys2Proof.Machine
open Sys2Proof.Claims

/-- Everything a command can do: it writes its destination, answers read data, runs the iterator, writes `MAXITER`, or
faults; a value written from canonical registers is canonical. -/
inductive CommandEffect (i : Instr) (s : State) : State → Prop
  | write (rd : Reg) (v : Q) (hdest : dest i = some rd) (hv : s.CanonicalRegs → v.canonical = true) :
      CommandEffect i s ((s.writeQ rd v).complete 0#130)
  | answer (d : DataWord) : CommandEffect i s (s.complete d)
  | iterate (ra rb : Reg) (hi : i = .iter ra rb) :
      CommandEffect i s ((s.setEti (iterate s.maxIter s.eti (s.readQ ra) (s.readQ rb))).complete
        (iterData (iterate s.maxIter s.eti (s.readQ ra) (s.readQ rb))))
  | setMaxIter (n : CsrNum) (v : BitVec 32) (hi : i = .csrw n) : CommandEffect i s ((s.setMaxIter v).complete 0#130)
  | fault (c : ErrCode) (hc : c ≠ .ok) : CommandEffect i s (s.raise c)

theorem State.CanonicalRegs.readQ {s : State} (h : s.CanonicalRegs) (r : Reg) : (s.readQ r).canonical = true := h.1 r

/-- Every command has one of these effects. -/
theorem exec_effect {i : Instr} {s t : State} (h : exec i s = .next t) : CommandEffect i s t := by
  cases i with
  | qzero rd => cases h; exact .write rd _ rfl fun _ => qzeroV_canonical
  | qone rd => cases h; exact .write rd _ rfl fun _ => qoneV_canonical
  | qld rd =>
    cases hl : literal s.port.wdata with
    | none => rw [exec_qld_of_none hl] at h; cases h; exact .fault _ (by decide)
    | some v => rw [exec_qld_of_some hl] at h; cases h; exact .write rd v rfl fun _ => (literal_spec hl).2
  | qst ra => cases h; exact .answer _
  | qmov rd ra => cases h; exact .write rd _ rfl fun hs => hs.readQ ra
  | qneg rd ra => cases h; exact .write rd _ rfl fun hs => qneg_canonical (hs.readQ ra)
  | qadd rd ra rb => cases h; exact .write rd _ rfl fun hs => qadd_canonical (hs.readQ ra) (hs.readQ rb)
  | qsub rd ra rb => cases h; exact .write rd _ rfl fun hs => qsub_canonical (hs.readQ ra) (hs.readQ rb)
  | qmul rd ra rb => cases h; exact .write rd _ rfl fun _ => qmul_canonical _ _
  | qcmp ra rb => cases h; exact .answer _
  | f64toq rd => cases h; exact .write rd _ rfl fun _ => ftoq_canonical (by decide) _
  | f32toq rd => cases h; exact .write rd _ rfl fun _ => ftoq_canonical (by decide) _
  | qtof64 ra => cases h; exact .answer _
  | qtof32 ra => cases h; exact .answer _
  | qtoi8 ra => cases h; exact .answer _
  | iter ra rb => cases h; exact .iterate ra rb rfl
  | csrr n =>
    cases hc : csrOfNumber n with
    | none => rw [exec_csrr_of_none hc] at h; cases h; exact .fault _ (by decide)
    | some c => rw [exec_csrr_of_some hc] at h; cases h; exact .answer _
  | csrw n =>
    by_cases hn : n = 0x002#12
    · subst hn; cases h; exact .setMaxIter _ _ rfl
    · rw [exec_csrw_of_ne hn] at h; cases h; exact .fault _ (by decide)

/-- Settles O52: effect by effect (`exec_effect`), what it leaves. -/
theorem whoWritesWhat : Obligations.WhoWritesWhat := by
  intro i s t h
  cases exec_effect h with
  | write rd v hdest _ =>
    refine ⟨fun r hr => ?_, fun _ => rfl, fun _ => rfl, fun _ _ => ⟨rfl, rfl, rfl⟩, rfl, rfl, rfl⟩
    exact State.readQ_writeQ_other s (by rintro rfl; exact hr hdest) v
  | answer d => exact ⟨fun _ _ => rfl, fun _ => rfl, fun _ => rfl, fun _ _ => ⟨rfl, rfl, rfl⟩, rfl, rfl, rfl⟩
  | iterate ra rb hi =>
    exact ⟨fun _ _ => rfl, fun _ => rfl, fun hne => absurd hi (hne ra rb), fun _ _ => ⟨rfl, rfl, rfl⟩, rfl, rfl, rfl⟩
  | setMaxIter n v hi =>
    exact ⟨fun _ _ => rfl, fun hne => absurd hi (hne n), fun _ => rfl, fun _ _ => ⟨rfl, rfl, rfl⟩, rfl, rfl, rfl⟩
  | fault c hc =>
    refine ⟨fun _ _ => rfl, fun _ => rfl, fun _ => rfl, fun d hrsp => ?_, rfl, rfl, rfl⟩
    cases hrsp
    exact absurd rfl hc

/-! ### Invariants -/

/-- A property of the registers that the host's handshakes cannot touch is kept by a step if reset meets it and every
effect of a command keeps it. -/
theorem step_keeps {P : State → Prop} {s t : State} (hstep : step s = .next t) (hP : P s)
    (hreset : ∀ rest, s.host = .reset :: rest → P (s.assertReset rest))
    (hgive : ∀ {u : State} (rest), P u → P (u.giveResponse rest))
    (haccept : ∀ {u : State} (cmd wdata rest), P u → P (u.accept cmd wdata rest))
    (hraise : ∀ {u : State} {c : ErrCode}, c ≠ .ok → P u → P (u.raise c))
    (hexec : ∀ {i : Instr} {u v : State}, CommandEffect i u v → P u → P v) : P t := by
  match hhost : s.host with
  | [] => cases (step_of_idle hhost).symm.trans hstep; exact hP
  | .reset :: rest => cases (step_of_reset hhost).symm.trans hstep; exact hreset rest hhost
  | .takeResponse :: rest => cases (step_of_takeResponse hhost).symm.trans hstep; exact hgive rest hP
  | .command cmd wdata :: rest =>
    obtain ⟨i, -, hi⟩ | ⟨-, rfl⟩ := step_command_cases hhost hstep
    · exact hexec (exec_effect hi) (haccept cmd wdata rest hP)
    · exact hraise (by decide) (haccept cmd wdata rest hP)

/-- Every register of type `Q` is canonical zero after reset. -/
theorem canonicalRegs_assertReset (s : State) (rest : List HostMove) : (s.assertReset rest).CanonicalRegs :=
  ⟨fun r => by rw [State.readQ_assertReset]; exact qzeroV_canonical, qzeroV_canonical, qzeroV_canonical,
    qzeroV_canonical, qzeroV_canonical⟩

/-- Every effect of a command keeps the registers canonical: a written value is, and so is the orbit of a run. -/
theorem CommandEffect.canonicalRegs {i : Instr} {u v : State} (hi : CommandEffect i u v) (hu : u.CanonicalRegs) :
    v.CanonicalRegs := by
  obtain ⟨hq, heti⟩ := id hu
  cases hi with
  | write rd w _ hw =>
    refine ⟨fun r => ?_, heti⟩
    rw [State.readQ_complete, State.readQ_writeQ]
    split
    · exact hw hu
    · exact hq r
  | iterate ra rb _ => exact ⟨hq, iterate_canonical _ _ (hq ra) (hq rb)⟩
  | answer d => exact hu
  | setMaxIter n w _ => exact hu
  | fault c _ => exact hu

/-- Settles O12: every effect of a command keeps the registers canonical, and reset makes them canonical zero. -/
theorem stepKeepsRegistersCanonical : Obligations.StepKeepsRegistersCanonical := fun s _ hs hstep =>
  step_keeps hstep hs (fun rest _ => canonicalRegs_assertReset s rest) (fun _ h => h) (fun _ _ _ h => h)
    (fun _ h => h) CommandEffect.canonicalRegs

/-- The error record of a state that has just raised a fault: the old one if it held a fault, else the new code. -/
theorem errorRecordOk_raise {u : State} {c : ErrCode} (hc : c ≠ .ok) (hu : u.ErrorRecordOk) :
    (u.raise c).ErrorRecordOk := by
  refine ⟨fun h => by simp at h, fun _ => ?_⟩
  rw [State.raise_errCode]
  split
  case isTrue h => exact hu.2 h
  case isFalse => exact hc

/-- Settles O13: only a fault touches the record, and it records a code that is not 0. -/
theorem stepKeepsErrorRecordConsistent : Obligations.StepKeepsErrorRecordConsistent := by
  intro s t hs hstep
  refine step_keeps hstep hs (fun rest _ => ⟨fun _ => ⟨rfl, rfl⟩, fun h => by cases h⟩)
    (fun _ h => h) (fun _ _ _ h => h) errorRecordOk_raise ?_
  intro i u v hi hu
  cases hi with
  | fault c hc => exact errorRecordOk_raise hc hu
  | write rd w _ _ => exact hu
  | iterate ra rb _ => exact hu
  | answer d => exact hu
  | setMaxIter n w _ => exact hu

/-- Settles O14: only `ITER` moves the iterator, and it ends DONE, after the switch. -/
theorem stepKeepsIteratorSettled : Obligations.StepKeepsIteratorSettled := by
  intro s t hs hstep
  refine step_keeps hstep hs (fun rest _ => ⟨.inl rfl, BitVec.le_refl _⟩)
    (fun _ h => h) (fun _ _ _ h => h) (fun _ h => h) ?_
  intro i u v hi hu
  cases hi with
  | iterate ra rb _ => exact ⟨.inr (iterate_phase ..), iterate_isw_le_i ..⟩
  | fault c hc => exact hu
  | write rd w _ _ => exact hu
  | answer d => exact hu
  | setMaxIter n w _ => exact hu

/-- `u` holds a fault, recorded as in `s`. -/
def SameFaultRecord (s u : State) : Prop := u.err = true ∧ u.errCode = s.errCode ∧ u.errCmd = s.errCmd

/-- A fault raised after the first one leaves the record of the first (R30, R31). -/
theorem SameFaultRecord.raise {s u : State} (h : SameFaultRecord s u) (c : ErrCode) :
    SameFaultRecord s (u.raise c) := by
  obtain ⟨herr, hcode, hcmd⟩ := h
  simp [SameFaultRecord, herr, hcode, hcmd]

/-- Settles O15: a later fault leaves the record, and nothing else but reset touches it. -/
theorem firstFaultRecordIsKept : Obligations.FirstFaultRecordIsKept := by
  intro s t herr hhost hstep
  refine step_keeps (P := SameFaultRecord s) hstep ⟨herr, rfl, rfl⟩
    (fun rest h => absurd (congrArg List.head? h) hhost) (fun _ h => h) (fun _ _ _ h => h) (fun _ h => h.raise _) ?_
  intro i u v hi hu
  cases hi with
  | fault c _ => exact hu.raise c
  | iterate ra rb _ => exact hu
  | write rd w _ _ => exact hu
  | answer d => exact hu
  | setMaxIter n w _ => exact hu

end Sys2Proof.Machine
end

section
/-! `ITER` as a closure of transitions, what it depends on, and its worked cases (R192 to R207). -/

namespace Sys2Proof.Machine
open Sys2Proof.Claims

/-! ### Single transitions -/

section Transition
variable {cap : BitVec 32} {e : Eti}

theorem etiTransition_of_settled (h : e.phase = .idle ∨ e.phase = .done) : etiTransition cap e = e := by
  obtain h | h := h <;> simp only [etiTransition, h]

theorem etiTransition_fixed (h : e.phase = .fixed) :
    etiTransition cap e = if fixedContinues cap e then fixedStep e else etiSwitch e := by
  simp only [etiTransition, h]

theorem etiTransition_float (h : e.phase = .float) :
    etiTransition cap e = if floatContinues cap e then floatStep e else etiFinish cap e := by
  simp only [etiTransition, h]

theorem fixedContinues_iff : fixedContinues cap e = true ↔
    e.i < cap ∧ qcmp (qadd (qmul e.xq e.xq) (qmul e.yq e.yq)) qoneV ≠ .gt := by
  simp [fixedContinues]

theorem floatContinues_iff : floatContinues cap e = true ↔ e.i < cap ∧ fle (floatNorm e) f65536 = true := by
  simp [floatContinues]

end Transition

/-- Settles O55: phase by phase, each row of the table is the branch of `etiTransition` that its condition picks. -/
theorem transitionsOfTheIterator : Obligations.TransitionsOfTheIterator := by
  intro cap e
  refine ⟨fun _ _ => rfl, fun hphase => ⟨fun hgo => ?fixedGoes, fun hleave => ?fixedLeaves⟩,
    fun hphase => ⟨fun hgo => ?floatGoes, fun hcap => ?capped, fun hleave => ?escaped⟩, etiTransition_of_settled⟩
  case fixedGoes =>
    rw [etiTransition_fixed hphase, if_pos (fixedContinues_iff.2 hgo)]
    rfl
  case fixedLeaves =>
    have hstop : ¬ fixedContinues cap e = true := by
      rw [fixedContinues_iff, not_and_or, BitVec.not_lt, ne_eq, not_not]
      exact hleave
    rw [etiTransition_fixed hphase, if_neg hstop]
    rfl
  case floatGoes =>
    rw [etiTransition_float hphase, if_pos (floatContinues_iff.2 hgo)]
    rfl
  case capped =>
    have hstop : ¬ floatContinues cap e = true := fun h => BitVec.not_le.2 (floatContinues_iff.1 h).1 hcap
    rw [etiTransition_float hphase, if_neg hstop, etiFinish, if_pos hcap]
  case escaped =>
    obtain ⟨hlt, hout⟩ := hleave
    have hstop : ¬ floatContinues cap e = true := fun h =>
      absurd ((floatContinues_iff.1 h).2.symm.trans hout) (by decide)
    rw [etiTransition_float hphase, if_neg hstop, etiFinish, if_neg (BitVec.not_le.2 hlt)]
    rfl

/-! ### Runs of transitions -/

/-- Transitions that agree with an update along its orbit are that update iterated. -/
theorem iterate_eq_of_agree {T u : Eti → Eti} {e : Eti} {k : Nat} (h : ∀ j < k, T (u^[j] e) = u (u^[j] e)) :
    ∀ n ≤ k, T^[n] e = u^[n] e := by
  intro n hn
  induction n with
  | zero => rfl
  | succ n ih => rw [Function.iterate_succ_apply', Function.iterate_succ_apply', ih (by omega), h n hn]

theorem fixedTransitions {cap : BitVec 32} {e : Eti} {k : Nat} (hphase : e.phase = .fixed)
    (h : ∀ j < k, fixedContinues cap (fixedStep^[j] e) = true) :
    ∀ n ≤ k, (etiTransition cap)^[n] e = fixedStep^[n] e := by
  refine iterate_eq_of_agree fun j hj => ?_
  rw [etiTransition_fixed ((fixedStep_iterate e j).2.1.trans hphase), if_pos (h j hj)]

theorem floatTransitions {cap : BitVec 32} {e : Eti} {l : Nat} (hphase : e.phase = .float)
    (h : ∀ j < l, floatContinues cap (floatStep^[j] e) = true) :
    ∀ n ≤ l, (etiTransition cap)^[n] e = floatStep^[n] e := by
  refine iterate_eq_of_agree fun j hj => ?_
  rw [etiTransition_float ((floatStep_iterate e j).2.1.trans hphase), if_pos (h j hj)]

/-- The transitions of a run, in order: `k` fixed-phase updates, the switch, `l` float-phase updates, the end. -/
theorem transitions_of_run {cap : BitVec 32} {e : Eti} {k l : Nat} (hphase : e.phase = .fixed)
    (hgoFixed : ∀ j < k, fixedContinues cap (fixedStep^[j] e) = true)
    (hleaveFixed : fixedContinues cap (fixedStep^[k] e) = false)
    (hgoFloat : ∀ j < l, floatContinues cap (floatStep^[j] (etiSwitch (fixedStep^[k] e))) = true)
    (hleaveFloat : floatContinues cap (floatStep^[l] (etiSwitch (fixedStep^[k] e))) = false) :
    (etiTransition cap)^[k + l + 2] e = etiFinish cap (floatStep^[l] (etiSwitch (fixedStep^[k] e))) ∧
    ∀ n < k + l + 2, ((etiTransition cap)^[n] e).phase ≠ .done := by
  have hfixedPhase (n : Nat) : (fixedStep^[n] e).phase = .fixed := (fixedStep_iterate e n).2.1.trans hphase
  have hfloatPhase (n : Nat) : (floatStep^[n] (etiSwitch (fixedStep^[k] e))).phase = .float :=
    (floatStep_iterate _ n).2.1
  have hswitch : (etiTransition cap)^[k + 1] e = etiSwitch (fixedStep^[k] e) := by
    rw [Function.iterate_succ_apply', fixedTransitions hphase hgoFixed k le_rfl, etiTransition_fixed (hfixedPhase k),
      hleaveFixed, if_neg Bool.false_ne_true]
  have hfloat : ∀ n ≤ l, (etiTransition cap)^[n + (k + 1)] e = floatStep^[n] (etiSwitch (fixedStep^[k] e)) := by
    intro n hn
    rw [Function.iterate_add_apply, hswitch, floatTransitions rfl hgoFloat n hn]
  constructor
  · rw [show k + l + 2 = l + (k + 1) + 1 by omega, Function.iterate_succ_apply', hfloat l le_rfl,
      etiTransition_float (hfloatPhase l), hleaveFloat, if_neg Bool.false_ne_true]
  · intro n hn
    rcases Nat.lt_or_ge k n with hk | hk
    · obtain ⟨m, rfl⟩ := Nat.exists_eq_add_of_le' (Nat.succ_le_of_lt hk)
      rw [hfloat m (by omega), hfloatPhase]
      decide
    · rw [fixedTransitions hphase hgoFixed n hk, hfixedPhase]
      decide

/-- Settles O43: the loops of `ITER` make exactly the updates for which the transitions go on (`iterate_spec`), and
`IT_I` counts those of both phases. -/
theorem iterIsClosureOfTransitions : Obligations.IterIsClosureOfTransitions := by
  intro s ra rb
  refine ⟨_, exec_iter ra rb s, iterate_i_le_cap .., ?_⟩
  rw [State.complete_eti, State.setEti_eti]
  obtain ⟨k, l, hrun, hkl, hgoFixed, hleaveFixed, hgoFloat, hleaveFloat⟩ :=
    iterate_spec s.maxIter s.eti (s.readQ ra) (s.readQ rb)
  have hi : (iterate s.maxIter s.eti (s.readQ ra) (s.readQ rb)).i.toNat = k + l := by
    have hcap := s.maxIter.isLt
    rw [hrun, etiFinish_i, (floatStep_iterate _ _).1,
      show (etiSwitch (fixedStep^[k] (etiStart s.eti (s.readQ ra) (s.readQ rb)))).i = BitVec.ofNat 32 k from
        (fixedStep_iterate _ _).1.trans (BitVec.zero_add _),
      ofNat_add_ofNat, BitVec.toNat_ofNat, Nat.mod_eq_of_lt (by omega)]
  obtain ⟨hend, hbefore⟩ := transitions_of_run rfl hgoFixed hleaveFixed hgoFloat hleaveFloat
  rw [hi]
  exact ⟨hrun.trans hend.symm, hbefore⟩

/-! ### What a run depends on -/

/-- Two iterator states agree on what the fixed phase reads. -/
def SameFixedOrbit (e e' : Eti) : Prop :=
  e.cxq = e'.cxq ∧ e.cyq = e'.cyq ∧ e.xq = e'.xq ∧ e.yq = e'.yq ∧ e.i = e'.i

/-- Two iterator states agree on all but the result of the last run. -/
def SameButResult (e e' : Eti) : Prop :=
  e' = { e with res := e'.res, capped := e'.capped }

/-- Loops whose test and update respect a relation lead related states to related states. -/
theorem repeatWhile_related {R : Eti → Eti → Prop} {c : Eti → Bool} {u : Eti → Eti}
    (hc : ∀ {e e'}, R e e' → c e = c e') (hu : ∀ {e e'}, R e e' → R (u e) (u e')) (n : Nat) {e e' : Eti}
    (h : R e e') : R (repeatWhile c u n e) (repeatWhile c u n e') := by
  induction n generalizing e e' with
  | zero => exact h
  | succ n ih =>
    simp only [repeatWhile, hc h]
    split
    · exact ih (hu h)
    · exact h

theorem fixedPhase_related (cap : BitVec 32) {e e' : Eti} (h : SameFixedOrbit e e') :
    SameFixedOrbit (fixedPhase cap e) (fixedPhase cap e') := by
  refine repeatWhile_related (fun h => ?_) (fun h => ?_) _ h
  · obtain ⟨hcx, hcy, hx, hy, hi⟩ := h
    simp only [fixedContinues, hx, hy, hi]
  · obtain ⟨hcx, hcy, hx, hy, hi⟩ := h
    simp only [SameFixedOrbit, fixedStep, hcx, hcy, hx, hy, hi, and_self]

theorem etiSwitch_related {e e' : Eti} (h : SameFixedOrbit e e') : SameButResult (etiSwitch e) (etiSwitch e') := by
  obtain ⟨hcx, hcy, hx, hy, hi⟩ := h
  simp only [SameButResult, etiSwitch, hcx, hcy, hx, hy, hi]

theorem floatPhase_related (cap : BitVec 32) {e e' : Eti} (h : SameButResult e e') :
    SameButResult (floatPhase cap e) (floatPhase cap e') := by
  refine repeatWhile_related (fun h => ?_) (fun h => ?_) _ h
  · rw [h]; rfl
  · rw [h]; rfl

theorem etiFinish_related (cap : BitVec 32) {e e' : Eti} (h : SameButResult e e') :
    etiFinish cap e = etiFinish cap e' := by
  rw [h]; rfl

/-- A run overwrites whatever an earlier run left in the iterator. -/
theorem iterate_eq_iterate (cap : BitVec 32) (e e' : Eti) (cx cy : Q) : iterate cap e cx cy = iterate cap e' cx cy :=
  etiFinish_related cap (floatPhase_related cap (etiSwitch_related (fixedPhase_related cap ⟨rfl, rfl, rfl, rfl, rfl⟩)))

/-- Settles O45: the run is the same whatever the iterator held before (`iterate_eq_iterate`). -/
theorem iterDependsOnlyOnOperands : Obligations.IterDependsOnlyOnOperands := by
  intro s s' ra rb ra' rb' ha hb hcap
  have hrun : iterate s.maxIter s.eti (s.readQ ra) (s.readQ rb) =
      iterate s'.maxIter s'.eti (s'.readQ ra') (s'.readQ rb') := by
    rw [ha, hb, hcap, iterate_eq_iterate]
  refine ⟨_, _, exec_iter ra rb s, exec_iter ra' rb' s', hrun, ?_⟩
  rw [State.complete_rsp, State.complete_rsp, hrun]

/-! ### Worked cases -/

@[simp] theorem qtof64_qzeroV : qtof64 qzeroV = 0#64 := by decide +kernel

/-- With the constant and the point 0 the fixed phase stays at 0. -/
theorem fixedStep_iterate_zero {e : Eti} (hcx : e.cxq = qzeroV) (hcy : e.cyq = qzeroV) (hx : e.xq = qzeroV)
    (hy : e.yq = qzeroV) (k : Nat) : (fixedStep^[k] e).xq = qzeroV ∧ (fixedStep^[k] e).yq = qzeroV := by
  induction k with
  | zero => exact ⟨hx, hy⟩
  | succ k ih =>
    obtain ⟨-, -, hcx', hcy'⟩ := fixedStep_iterate e k
    rw [Function.iterate_succ_apply']
    simp only [fixedStep, ih, hcx', hcy', hcx, hcy]
    exact ⟨rfl, rfl⟩

/-- A run with the constant 0 makes every update of the cap in the fixed phase. -/
theorem iterate_zero (cap : BitVec 32) (e : Eti) :
    iterate cap e qzeroV qzeroV =
      etiFinish cap (etiSwitch (fixedStep^[cap.toNat] (etiStart e qzeroV qzeroV))) := by
  obtain ⟨k, l, hrun, hkl, -, hleave, -⟩ := iterate_spec cap e qzeroV qzeroV
  obtain ⟨hx, hy⟩ := fixedStep_iterate_zero (e := etiStart e qzeroV qzeroV) rfl rfl rfl rfl k
  have hi : (fixedStep^[k] (etiStart e qzeroV qzeroV)).i = BitVec.ofNat 32 k :=
    (fixedStep_iterate _ _).1.trans (BitVec.zero_add _)
  have hk : cap.toNat ≤ k := by
    have hcap := cap.isLt
    by_contra hlt
    refine Bool.false_ne_true (hleave.symm.trans (fixedContinues_iff.2 ⟨?_, ?_⟩))
    · rw [hi, BitVec.lt_def, BitVec.toNat_ofNat, Nat.mod_eq_of_lt (by omega)]
      omega
    · rw [hx, hy]
      decide +kernel
  obtain ⟨rfl, rfl⟩ : k = cap.toNat ∧ l = 0 := by omega
  exact hrun

/-- Settles O47: all the updates are made in the fixed phase (`iterate_zero`), which stays at 0, and the switch converts
0 to +0.0. -/
theorem iterOfZeroReachesCap : Obligations.IterOfZeroReachesCap := by
  intro s ra rb hra hrb
  obtain ⟨hx, hy⟩ := fixedStep_iterate_zero (e := etiStart s.eti qzeroV qzeroV) rfl rfl rfl rfl s.maxIter.toNat
  have hi : (fixedStep^[s.maxIter.toNat] (etiStart s.eti qzeroV qzeroV)).i = s.maxIter :=
    (fixedStep_iterate _ _).1.trans ((BitVec.zero_add _).trans (BitVec.ofNat_toNat ..))
  have hle : s.maxIter ≤ (fixedStep^[s.maxIter.toNat] (etiStart s.eti qzeroV qzeroV)).i := by
    rw [hi]
    exact BitVec.le_refl _
  have hrun : iterate s.maxIter s.eti (s.readQ ra) (s.readQ rb) =
      etiFinish s.maxIter (etiSwitch (fixedStep^[s.maxIter.toNat] (etiStart s.eti qzeroV qzeroV))) := by
    rw [hra, hrb]
    exact iterate_zero s.maxIter s.eti
  have hres := etiFinish_res_of_le (e := etiSwitch (fixedStep^[s.maxIter.toNat] (etiStart s.eti qzeroV qzeroV))) hle
  refine ⟨_, _, ⟨exec_iter ra rb s, rfl⟩, ?_⟩
  rw [State.complete_eti, State.setEti_eti, hrun]
  refine ⟨?capped, ?i, ?isw, ?xq, ?yq, ?xf, ?yf, hres, fun hcap => ?hundred⟩
  case capped => rw [etiFinish_capped]; exact decide_eq_true hle
  case i => rw [etiFinish_i]; exact hi
  case isw => rw [etiFinish_isw]; exact hi
  case xq => rw [etiFinish_xq]; exact hx
  case yq => rw [etiFinish_yq]; exact hy
  case xf => rw [etiFinish_xf]; exact (congrArg qtof64 hx).trans qtof64_qzeroV
  case yf => rw [etiFinish_yf]; exact (congrArg qtof64 hy).trans qtof64_qzeroV
  case hundred =>
    rw [hres, hcap]
    decide +kernel

/-- Settles O48: with the cap 0 both phases are left at once. -/
theorem iterWithZeroCap : Obligations.IterWithZeroCap := by
  intro s ra rb hcap
  have hrun : iterate 0#32 s.eti (s.readQ ra) (s.readQ rb) =
      etiFinish 0#32 (etiSwitch (etiStart s.eti (s.readQ ra) (s.readQ rb))) := rfl
  have hres : (etiFinish 0#32 (etiSwitch (etiStart s.eti (s.readQ ra) (s.readQ rb)))).res = 0#64 := by
    rw [etiFinish_res_of_le (BitVec.le_refl 0#32)]
    decide +kernel
  have hcapped : (etiFinish 0#32 (etiSwitch (etiStart s.eti (s.readQ ra) (s.readQ rb)))).capped = true := rfl
  refine ⟨_, ⟨exec_iter ra rb s, ?_⟩, ?_⟩
  · rw [State.complete_rsp, hcap, hrun, iterData, hres, hcapped]
    rfl
  · rw [State.complete_eti, State.setEti_eti, hcap, hrun]
    exact ⟨rfl, rfl, rfl, rfl, qtof64_qzeroV, qtof64_qzeroV, rfl, rfl, rfl, hres⟩

/-- Settles O49: what the iterator held before does not matter (`iterate_eq_iterate`), so the run is evaluated from the
reset iterator. -/
theorem iterOfTwoEscapesAtFour : Obligations.IterOfTwoEscapesAtFour := by
  intro s ra rb hcap hra hrb
  refine ⟨_, exec_iter ra rb s, ?_⟩
  rw [State.complete_eti, State.setEti_eti, hcap, hra, hrb, iterate_eq_iterate _ s.eti Eti.reset]
  decide +kernel

end Sys2Proof.Machine
end

section
/-! The commands one by one: results, frames, and what a command does not read. -/

namespace Sys2Proof.Machine
open Sys2Proof.Claims

/-! ### Frames -/

theorem changesOnlyRegister_write (s : State) (rd : Reg) (v : Q) (d : DataWord) :
    ChangesOnlyRegister s ((s.writeQ rd v).complete d) rd :=
  ⟨fun _ hr => State.readQ_writeQ_other s hr v, rfl⟩

/-- A command that writes `v` to its destination completes, with the frame of R25. -/
theorem completes_of_write {i : Instr} {s : State} {rd : Reg} {v : Q}
    (h : exec i s = .next ((s.writeQ rd v).complete 0#130)) :
    ∃ t, CompletesWith i s t 0#130 ∧ ChangesOnlyRegister s t rd ∧ t.readQ rd = v :=
  ⟨_, ⟨h, rfl⟩, changesOnlyRegister_write .., State.readQ_writeQ_same ..⟩

/-- A command that only answers changes only the response. -/
theorem completes_of_answer {i : Instr} {s : State} {d : DataWord} (h : exec i s = .next (s.complete d)) :
    ∃ t, CompletesWith i s t d ∧ ChangesOnlyResponse s t :=
  ⟨_, ⟨h, rfl⟩, rfl⟩

/-! ### Fixed-point commands -/

/-- Settles O22: each command is a write of the constant or of the source's value. -/
theorem constantsAndMove : Obligations.ConstantsAndMove := fun s rd _ =>
  ⟨⟨_, ⟨rfl, rfl⟩, State.readQ_writeQ_same s rd _, changesOnlyRegister_write ..⟩,
    ⟨_, ⟨rfl, rfl⟩, State.readQ_writeQ_same s rd _, changesOnlyRegister_write ..⟩,
    ⟨_, ⟨rfl, rfl⟩, State.readQ_writeQ_same s rd _, changesOnlyRegister_write ..⟩⟩

/-- Settles O23: the literal check accepts exactly the canonical literals (`literal_eq_none_iff`), and the value it
gives packs to the data word (`literal_spec`). -/
theorem qldLoadsCanonicalLiteral : Obligations.QldLoadsCanonicalLiteral := by
  intro s rd
  constructor
  · intro h
    obtain ⟨v, hv⟩ := Option.ne_none_iff_exists'.1 (mt (literal_eq_none_iff _).1 (not_not.2 h))
    obtain ⟨hpack, hcanonical⟩ := literal_spec hv
    obtain ⟨t, hcompletes, hframe, hread⟩ := completes_of_write (exec_qld_of_some hv rd)
    exact ⟨t, hcompletes, hread ▸ hpack, hread ▸ hcanonical, hframe⟩
  · exact fun h => ⟨_, exec_qld_of_none ((literal_eq_none_iff _).2 h) rd, rfl, fun _ => rfl⟩

/-- Settles O25: `QST` answers the packed source. -/
theorem qstReadsOut : Obligations.QstReadsOut := fun _ _ => completes_of_answer rfl

/-- Settles O26: magnitude and sign of `canon`. -/
theorem canonicalisationRule : Obligations.CanonicalisationRule := fun sg m => ⟨canon_mag sg m, canon_sign sg m⟩

/-- Settles O27: `QNEG` writes `qneg` of its source, which negates the units and keeps canonicity. -/
theorem qnegFlipsSign : Obligations.QnegFlipsSign := by
  intro s rd ra
  obtain ⟨t, hcompletes, hframe, hread⟩ :=
    completes_of_write (i := .qneg rd ra) (s := s) (v := qneg (s.readQ ra)) rfl
  refine ⟨t, hcompletes, hframe, ?_⟩
  rw [hread]
  refine ⟨?_, qneg_units _, qneg_canonical⟩
  rw [qneg]
  cases (s.readQ ra).sign <;> rfl

/-- Settles O28: `QADD` writes `qadd` of its sources, the wrapped sum (`qadd_eq_wrapUnits`). -/
theorem qaddWritesWrappedSum : Obligations.QaddWritesWrappedSum := fun _ _ ra rb hs =>
  qadd_eq_wrapUnits (hs.readQ ra) (hs.readQ rb) ▸ completes_of_write rfl

/-- Settles O29: `QSUB` writes `qsub` of its sources, the wrapped difference (`qsub_eq_wrapUnits`). -/
theorem qsubWritesWrappedDifference : Obligations.QsubWritesWrappedDifference := fun _ _ ra rb hs =>
  qsub_eq_wrapUnits (hs.readQ ra) (hs.readQ rb) ▸ completes_of_write rfl

/-- Settles O30: `QMUL` writes `qmul` of its sources, the wrapped truncated product (`qmul_eq_wrapUnits`). -/
theorem qmulWritesTruncatedProduct : Obligations.QmulWritesTruncatedProduct := fun _ _ ra rb hs =>
  qmul_eq_wrapUnits (hs.readQ ra) (hs.readQ rb) ▸ completes_of_write rfl

/-- The answer of `QCMP` for the order of two integers (R139). -/
theorem orderCode_compare (x y : Int) : (orderCode (compare x y)).setWidth 130 =
    if x < y then 0b11#130 else if x = y then 0b00#130 else 0b01#130 := by
  rcases lt_trichotomy x y with h | h | h
  · rw [compare_lt_iff_lt.2 h, if_pos h]; rfl
  · rw [compare_eq_iff_eq.2 h, if_neg h.not_lt, if_pos h]; rfl
  · rw [compare_gt_iff_gt.2 h, if_neg h.not_gt, if_neg h.ne']; rfl

/-- Settles O31: `QCMP` answers the code of `qcmp`, which is the order of the units (`qcmp_eq_compare`). -/
theorem qcmpAnswersOrderOfValues : Obligations.QcmpAnswersOrderOfValues := by
  intro s ra rb hs
  rw [← orderCode_compare, ← qcmp_eq_compare (hs.readQ ra) (hs.readQ rb)]
  obtain ⟨t, hcompletes, hframe⟩ := completes_of_answer (i := .qcmp ra rb) (s := s) rfl
  exact ⟨t, hframe, hcompletes⟩

/-- The integer part of the magnitude is the top byte. -/
theorem Q.mag_div (v : Q) : v.mag / 2 ^ 120 = v.high.toNat / 2 ^ 56 := by
  have := v.low.isLt
  rw [Q.mag]
  omega

/-- The low byte of a signed magnitude. -/
theorem ofInt_sgn_mul (sg : Sign) (n : Nat) (h : sg = .neutral → n = 0) :
    (if sg = .negative then -BitVec.ofNat 8 n else BitVec.ofNat 8 n) = BitVec.ofInt 8 (sg.sgn * n) := by
  cases sg with
  | negative => simp [Sign.sgn, BitVec.ofInt_neg]
  | neutral => simp [Sign.sgn, h rfl]
  | positive => simp [Sign.sgn]

theorem qtoi8_eq {v : Q} (hv : v.canonical = true) : qtoi8 v = BitVec.ofInt 8 (v.units.tdiv (2 ^ 120)) := by
  have htop : v.high.extractLsb' 56 8 = BitVec.ofNat 8 (v.mag / 2 ^ 120) := by
    apply BitVec.eq_of_toNat_eq
    rw [BitVec.extractLsb'_toNat, Nat.shiftRight_eq_div_pow, BitVec.toNat_ofNat, Q.mag_div]
  have hdiv : v.units.tdiv (2 ^ 120) = v.sign.sgn * ((v.mag / 2 ^ 120 : Nat) : Int) := by
    rw [← Sign.sgn_mul_tdiv, Q.units, Nat.cast_pow, Nat.cast_ofNat]
  have hzero : v.sign = .neutral → v.mag / 2 ^ 120 = 0 := fun h => by
    rw [((Q.canonical_iff v).1 hv).2 h, Nat.zero_div]
  rw [hdiv, ← ofInt_sgn_mul _ _ hzero, ← htop, qtoi8]

/-- Settles O38: the top byte of the magnitude is the truncated value (`qtoi8_eq`). -/
theorem qtoi8TruncatesAndWraps : Obligations.Qtoi8TruncatesAndWraps := fun _ ra hs =>
  qtoi8_eq (hs.readQ ra) ▸ completes_of_answer rfl

/-! ### System commands -/

/-- Settles O50: each of the 15 numbers names its register, and reading it answers the layout of the register table. -/
theorem csrrReadsEveryRegister : Obligations.CsrrReadsEveryRegister := by
  intro s errCode phase nv hnv
  simp only [List.mem_cons, List.not_mem_nil, or_false] at hnv
  obtain rfl | rfl | rfl | rfl | rfl | rfl | rfl | rfl | rfl | rfl | rfl | rfl | rfl | rfl | rfl := hnv <;>
    exact completes_of_answer rfl

/-- Settles O51: `CSRW` of `MAXITER` is `setMaxIter` of the low 32 bits. -/
theorem csrwWritesMaxIter : Obligations.CsrwWritesMaxIter := by
  intro s
  refine ⟨_, ⟨exec_csrw_maxIter s, rfl⟩, ?_, rfl⟩
  apply BitVec.eq_of_toNat_eq
  simp [wdata32]

/-! ### What a command does not read -/

/-- Two states that differ in the register `r` at most. -/
def SameBut (r : Reg) (s s' : State) : Prop :=
  (∀ r' : Reg, r' ≠ r → s'.readQ r' = s.readQ r') ∧ s' = { s with q := s'.q }

section SameBut
variable {r : Reg} {s s' : State} (h : SameBut r s s')
include h

theorem SameBut.writeQ (rd : Reg) {v v' : Q} (hv : v' = v) : SameBut r (s.writeQ rd v) (s'.writeQ rd v') := by
  obtain ⟨hread, hrest⟩ := h
  subst hv
  refine ⟨fun r' hr' => ?_, by rw [hrest]; rfl⟩
  rw [State.readQ_writeQ, State.readQ_writeQ, hread r' hr']

theorem SameBut.setEti {e e' : Eti} (he : e' = e) : SameBut r (s.setEti e) (s'.setEti e') := by
  subst he
  exact ⟨h.1, by rw [h.2]; rfl⟩

theorem SameBut.setMaxIter (v : BitVec 32) : SameBut r (s.setMaxIter v) (s'.setMaxIter v) :=
  ⟨h.1, by rw [h.2]; rfl⟩

theorem SameBut.complete {d d' : DataWord} (hd : d' = d) : SameBut r (s.complete d) (s'.complete d') := by
  subst hd
  exact ⟨h.1, by rw [h.2]; rfl⟩

theorem SameBut.raise (c : ErrCode) : SameBut r (s.raise c) (s'.raise c) :=
  ⟨h.1, by rw [h.2]; rfl⟩

/-- A command that does not name `r` as a source takes states that differ in `r` at most to such states. -/
theorem SameBut.exec {i : Instr} {t : State} (hr : r ∉ sources i) (hexec : exec i s = .next t) :
    ∃ t', exec i s' = .next t' ∧ SameBut r t t' := by
  have hread {x : Reg} (hx : x ∈ sources i) : s'.readQ x = s.readQ x := h.1 x (by rintro rfl; exact hr hx)
  have hport : s'.port = s.port := by rw [h.2]
  have heti : s'.eti = s.eti := by rw [h.2]
  have hmaxIter : s'.maxIter = s.maxIter := by rw [h.2]
  cases i with
  | qzero rd => cases hexec; exact ⟨_, rfl, (h.writeQ rd rfl).complete rfl⟩
  | qone rd => cases hexec; exact ⟨_, rfl, (h.writeQ rd rfl).complete rfl⟩
  | qld rd =>
    cases hl : literal s.port.wdata with
    | none =>
      cases (exec_qld_of_none hl rd).symm.trans hexec
      exact ⟨_, exec_qld_of_none (hport ▸ hl) rd, h.raise _⟩
    | some v =>
      cases (exec_qld_of_some hl rd).symm.trans hexec
      exact ⟨_, exec_qld_of_some (hport ▸ hl) rd, (h.writeQ rd rfl).complete rfl⟩
  | qst ra =>
    have ha := hread (x := ra) (by simp [sources])
    cases hexec; exact ⟨_, rfl, h.complete (congrArg pack ha)⟩
  | qmov rd ra =>
    have ha := hread (x := ra) (by simp [sources])
    cases hexec; exact ⟨_, rfl, (h.writeQ rd ha).complete rfl⟩
  | qneg rd ra =>
    have ha := hread (x := ra) (by simp [sources])
    cases hexec; exact ⟨_, rfl, (h.writeQ rd (congrArg qneg ha)).complete rfl⟩
  | qadd rd ra rb =>
    have ha := hread (x := ra) (by simp [sources])
    have hb := hread (x := rb) (by simp [sources])
    cases hexec; exact ⟨_, rfl, (h.writeQ rd (congrArg₂ qadd ha hb)).complete rfl⟩
  | qsub rd ra rb =>
    have ha := hread (x := ra) (by simp [sources])
    have hb := hread (x := rb) (by simp [sources])
    cases hexec; exact ⟨_, rfl, (h.writeQ rd (congrArg₂ qsub ha hb)).complete rfl⟩
  | qmul rd ra rb =>
    have ha := hread (x := ra) (by simp [sources])
    have hb := hread (x := rb) (by simp [sources])
    cases hexec; exact ⟨_, rfl, (h.writeQ rd (congrArg₂ qmul ha hb)).complete rfl⟩
  | qcmp ra rb =>
    have ha := hread (x := ra) (by simp [sources])
    have hb := hread (x := rb) (by simp [sources])
    cases hexec; exact ⟨_, rfl, h.complete (by rw [ha, hb])⟩
  | f64toq rd => cases hexec; exact ⟨_, rfl, (h.writeQ rd (by rw [hport])).complete rfl⟩
  | f32toq rd => cases hexec; exact ⟨_, rfl, (h.writeQ rd (by rw [hport])).complete rfl⟩
  | qtof64 ra =>
    have ha := hread (x := ra) (by simp [sources])
    cases hexec; exact ⟨_, rfl, h.complete (by rw [ha])⟩
  | qtof32 ra =>
    have ha := hread (x := ra) (by simp [sources])
    cases hexec; exact ⟨_, rfl, h.complete (by rw [ha])⟩
  | qtoi8 ra =>
    have ha := hread (x := ra) (by simp [sources])
    cases hexec; exact ⟨_, rfl, h.complete (by rw [ha])⟩
  | iter ra rb =>
    have ha := hread (x := ra) (by simp [sources])
    have hb := hread (x := rb) (by simp [sources])
    have hrun : iterate s'.maxIter s'.eti (s'.readQ ra) (s'.readQ rb) =
        iterate s.maxIter s.eti (s.readQ ra) (s.readQ rb) := by rw [ha, hb, heti, hmaxIter]
    cases hexec; exact ⟨_, rfl, (h.setEti hrun).complete (congrArg iterData hrun)⟩
  | csrr n =>
    cases hc : csrOfNumber n with
    | none =>
      cases (exec_csrr_of_none hc s).symm.trans hexec
      exact ⟨_, exec_csrr_of_none hc s', h.raise _⟩
    | some c =>
      cases (exec_csrr_of_some hc s).symm.trans hexec
      exact ⟨_, exec_csrr_of_some hc s', h.complete (by rw [h.2]; cases c <;> rfl)⟩
  | csrw n =>
    by_cases hn : n = 0x002#12
    · subst hn
      cases (exec_csrw_maxIter s).symm.trans hexec
      exact ⟨_, exec_csrw_maxIter s', by rw [hport]; exact (h.setMaxIter _).complete rfl⟩
    · cases (exec_csrw_of_ne hn s).symm.trans hexec
      exact ⟨_, exec_csrw_of_ne hn s', h.raise _⟩

end SameBut

theorem sameBut_writeQ (s : State) (r : Reg) (v : Q) : SameBut r s (s.writeQ r v) :=
  ⟨fun _ hr' => State.readQ_writeQ_other s hr' v, rfl⟩

/-- Settles O53: the changed state differs in that register at most, and the command keeps it so (`SameBut.exec`). -/
theorem unnamedRegistersAreNotRead : Obligations.UnnamedRegistersAreNotRead := by
  intro i s t r v hr hexec
  obtain ⟨t', hexec', hsame, hrest⟩ := (sameBut_writeQ s r v).exec hr hexec
  exact ⟨t', hexec', hsame, hrest⟩

/-- Data words that agree modulo `2^n` have the same low `n` bits. -/
theorem extractLsb'_zero_eq_of_mod_eq {w w' : DataWord} {n : Nat} (h : w.toNat % 2 ^ n = w'.toNat % 2 ^ n) :
    w.extractLsb' 0 n = w'.extractLsb' 0 n := by
  apply BitVec.eq_of_toNat_eq
  rw [BitVec.extractLsb'_toNat, BitVec.extractLsb'_toNat, Nat.shiftRight_zero, Nat.shiftRight_zero, h]

/-- Settles O54: command by command; `QLD` reads the whole data word, the three others that read it only the bits that
agree, and the rest none. -/
theorem unusedWdataIsIgnored : Obligations.UnusedWdataIsIgnored := by
  intro i s t w hw hexec
  cases i with
  | qld rd =>
    obtain rfl : w = s.port.wdata := by
      apply BitVec.eq_of_toNat_eq
      rwa [wdataBits, Nat.mod_eq_of_lt w.isLt, Nat.mod_eq_of_lt s.port.wdata.isLt] at hw
    obtain ⟨-, -, -, -, hport, -⟩ := whoWritesWhat _ _ _ hexec
    have ht : { t with port := { t.port with wdata := s.port.wdata } } = t := by rw [← hport]
    rw [ht]
    exact hexec
  | f64toq rd =>
    have hbits : wdata64 w = wdata64 s.port.wdata := extractLsb'_zero_eq_of_mod_eq hw
    cases hexec
    simp only [exec, execF64toq, hbits]
    rfl
  | f32toq rd =>
    have hbits : wdata32 w = wdata32 s.port.wdata := extractLsb'_zero_eq_of_mod_eq hw
    cases hexec
    simp only [exec, execF32toq, hbits]
    rfl
  | csrr n =>
    cases hc : csrOfNumber n with
    | none => cases (exec_csrr_of_none hc s).symm.trans hexec; exact exec_csrr_of_none hc _
    | some c =>
      cases (exec_csrr_of_some hc s).symm.trans hexec
      rw [exec_csrr_of_some hc]
      cases c <;> rfl
  | csrw n =>
    by_cases hn : n = 0x002#12
    · have hbits : wdata32 w = wdata32 s.port.wdata := extractLsb'_zero_eq_of_mod_eq hw
      subst hn
      cases (exec_csrw_maxIter s).symm.trans hexec
      rw [exec_csrw_maxIter, hbits]
      rfl
    · cases (exec_csrw_of_ne hn s).symm.trans hexec
      exact exec_csrw_of_ne hn _
  | _ => cases hexec; rfl

end Sys2Proof.Machine
end

section
/-! The conversion from floats as the closed form of R163. -/

namespace Sys2Proof.Machine
open Sys2Proof.Claims

/-! ### The two words as one shift -/

theorem shiftWord_of_far (m : Nat) {sh : Int} (h : sh ≥ 64 ∨ sh ≤ -64) : shiftWord m sh = 0 := by
  rw [shiftWord, if_pos h]

theorem shiftWord_right (m : Nat) {n : Nat} (h : n < 64) : shiftWord m n = m / 2 ^ n := by
  rw [shiftWord, if_neg (by omega), if_pos (by omega), Int.toNat_natCast]

theorem shiftWord_left {m n : Nat} (hm : m < 2 ^ 64) (h : n < 64) : shiftWord m (-n) = m * 2 ^ n % 2 ^ 64 := by
  rcases Nat.eq_zero_or_pos n with rfl | hn
  · rw [pow_zero, mul_one, Nat.mod_eq_of_lt hm]
    simpa using shiftWord_right m h
  · rw [shiftWord, if_neg (by omega), if_neg (by omega), neg_neg, Int.toNat_natCast]

theorem floorScale_natCast (m n : Nat) : floorScale m n = m * 2 ^ n := by
  rw [floorScale, if_pos (by omega), Int.toNat_natCast]

theorem floorScale_neg_natCast (m n : Nat) : floorScale m (-n) = m / 2 ^ n := by
  rcases Nat.eq_zero_or_pos n with rfl | hn
  · simpa using floorScale_natCast m 0
  · rw [floorScale, if_neg (by omega), neg_neg, Int.toNat_natCast]

/-- The two words of R162 are the two halves of one shift modulo `2^128`, whatever the amount. -/
theorem shiftWord_pair {m : Nat} (hm : m < 2 ^ 64) (k : Int) :
    shiftWord m (64 - k) * 2 ^ 64 + shiftWord m (-k) = floorScale m k % 2 ^ 128 := by
  rcases le_or_gt k 0 with hk | hk
  · obtain ⟨n, rfl⟩ : ∃ n : Nat, k = -n := ⟨k.natAbs, by omega⟩
    have hdiv : m / 2 ^ n < 2 ^ 128 := lt_of_le_of_lt (Nat.div_le_self _ _) (by omega)
    rw [shiftWord_of_far m (sh := 64 - -(n : Int)) (by omega), floorScale_neg_natCast, Nat.mod_eq_of_lt hdiv, neg_neg,
      Nat.zero_mul, Nat.zero_add]
    rcases lt_or_ge n 64 with hn | hn
    · exact shiftWord_right m hn
    · rw [shiftWord_of_far m (by omega), Nat.div_eq_of_lt (hm.trans_le (Nat.pow_le_pow_right (by omega) hn))]
  · obtain ⟨n, rfl⟩ : ∃ n : Nat, k = n := ⟨k.natAbs, by omega⟩
    rw [floorScale_natCast]
    rcases lt_or_ge n 64 with hn | hn
    · -- the product reaches into the high word by its own high bits
      have hhigh : shiftWord m (64 - (n : Int)) = m / 2 ^ (64 - n) := by
        rw [show (64 : Int) - n = ((64 - n : Nat) : Int) by omega, shiftWord_right m (by omega)]
      have hpow : 2 ^ n * 2 ^ (64 - n) = 2 ^ 64 := by rw [← pow_add, Nat.add_sub_cancel' hn.le]
      have hquot : m / 2 ^ (64 - n) = m * 2 ^ n / 2 ^ 64 := by
        rw [← hpow, Nat.mul_comm m, Nat.mul_div_mul_left _ _ (by positivity)]
      have hlt : m * 2 ^ n < 2 ^ 128 := by
        calc m * 2 ^ n < 2 ^ 64 * 2 ^ 64 :=
              Nat.mul_lt_mul_of_lt_of_le hm (Nat.pow_le_pow_right (by omega) hn.le) (by positivity)
          _ = 2 ^ 128 := by norm_num
      rw [hhigh, hquot, shiftWord_left hm hn, Nat.mod_eq_of_lt hlt]
      omega
    · obtain ⟨j, rfl⟩ := Nat.exists_eq_add_of_le hn
      rw [shiftWord_of_far m (sh := -((64 + j : Nat) : Int)) (by omega), Nat.add_zero]
      rcases lt_or_ge j 64 with hj | hj
      · rw [show (64 : Int) - ((64 + j : Nat) : Int) = -(j : Int) by omega, shiftWord_left hm hj,
          ← Nat.mul_mod_mul_right]
        congr 1
        ring
      · obtain ⟨i, rfl⟩ := Nat.exists_eq_add_of_le hj
        rw [shiftWord_of_far m (by omega), show m * 2 ^ (64 + (64 + i)) = 2 ^ 128 * (m * 2 ^ i) by ring,
          Nat.mul_mod_right, Nat.zero_mul]

/-! ### The closed form -/

theorem FloatFmt.bias_cast (f : FloatFmt) : (f.bias : Int) = 2 ^ (f.w - 1) - 1 := by
  rw [FloatFmt.bias, Nat.cast_sub Nat.one_le_two_pow]
  push_cast
  rfl

theorem decomp_eq (f : FloatFmt) (bits : Nat) : decomp f bits = (f.signBit bits, significand f.p f.w bits) := by
  rw [decomp, significand, FloatFmt.fracField, FloatFmt.expField, FloatFmt.eMin, FloatFmt.bias_cast]
  split <;> rfl

/-- `canon` of a magnitude given by its two words. -/
theorem canon_of_words (s : Sign) {m a b : Nat} (hb : b < 2 ^ 64)
    (hm : a * 2 ^ 64 + b = m % 2 ^ 128) :
    canon s m = if a = 0 ∧ b = 0 then qzeroV else ⟨s, BitVec.ofNat 64 a, BitVec.ofNat 64 b⟩ := by
  have hlow : BitVec.ofNat 64 (a * 2 ^ 64 + b) = BitVec.ofNat 64 b := by
    apply BitVec.eq_of_toNat_eq
    rw [BitVec.toNat_ofNat, BitVec.toNat_ofNat]
    omega
  have hhigh : (a * 2 ^ 64 + b) / 2 ^ 64 = a := by omega
  rw [canon, ← hm, hlow, hhigh]
  exact if_congr (by omega) rfl rfl

theorem significand_lt (p w bits : Nat) : (significand p w bits).1 < 2 ^ (p + 1) := by
  have hmod : bits % 2 ^ p < 2 ^ p := Nat.mod_lt _ (by positivity)
  rw [significand, pow_succ]
  split <;> simp only <;> omega

/-- The closed form in terms of `canon`: the sign is that of the pattern. -/
theorem fixedOfFloat_eq_canon (f : FloatFmt) (bits : Nat) : fixedOfFloat f.p f.w bits =
    canon (if f.signBit bits then .negative else .positive)
      (floorScale (significand f.p f.w bits).1 ((significand f.p f.w bits).2 + 120)) := by
  rw [canon_eq_wrapUnits (by split <;> decide), fixedOfFloat, FloatFmt.signBit]
  congr 1
  split <;> simp_all [Sign.sgn]

/-- The conversion from a float is the closed form of R163. -/
theorem ftoq_eq_fixedOfFloat {f : FloatFmt} (hf : f.p ≤ 62) (bits : Nat) :
    ftoq f bits = fixedOfFloat f.p f.w bits := by
  have hm : (significand f.p f.w bits).1 < 2 ^ 64 :=
    (significand_lt ..).trans_le (Nat.pow_le_pow_right (by omega) (by omega))
  have hwords := shiftWord_pair hm ((significand f.p f.w bits).2 + 120)
  rw [fixedOfFloat_eq_canon, ftoq, decomp_eq, canon_of_words _ (shiftWord_lt hm _) hwords]
  simp only [show (64 : Int) - ((significand f.p f.w bits).2 + 120) = 8 - 64 - (significand f.p f.w bits).2 by ring,
    show -((significand f.p f.w bits).2 + 120) = 8 - 128 - (significand f.p f.w bits).2 by ring]

theorem ftoq_binary64 (bits : Nat) : ftoq binary64 bits = fixedOfFloat 52 11 bits :=
  ftoq_eq_fixedOfFloat (by decide) bits

theorem ftoq_binary32 (bits : Nat) : ftoq binary32 bits = fixedOfFloat 23 8 bits :=
  ftoq_eq_fixedOfFloat (by decide) bits

theorem wdata64_toNat (w : DataWord) : (wdata64 w).toNat = w.toNat % 2 ^ 64 := by
  rw [wdata64, BitVec.extractLsb'_toNat, Nat.shiftRight_zero]

theorem wdata32_toNat (w : DataWord) : (wdata32 w).toNat = w.toNat % 2 ^ 32 := by
  rw [wdata32, BitVec.extractLsb'_toNat, Nat.shiftRight_zero]

/-- Settles O34: both commands write `ftoq` of the low bits of the data word (`ftoq_eq_fixedOfFloat`). -/
theorem floatToFixedClosedForm : Obligations.FloatToFixedClosedForm := by
  intro s rd
  rw [← wdata64_toNat, ← wdata32_toNat, ← ftoq_binary64, ← ftoq_binary32]
  exact ⟨completes_of_write rfl, completes_of_write rfl⟩

theorem wrapUnits_eq_zeroQ {z : Int} (h : z.natAbs % 2 ^ 128 = 0) : wrapUnits z = zeroQ := by
  rw [wrapUnits, if_pos h]

/-- A pattern with exponent field 0 lies below the grid, and from `e = 8` on its value is a multiple of 256 (R172). -/
theorem fixedOfFloat_eq_zeroQ {p w bits : Nat} (hbias : 121 ≤ 2 ^ (w - 1) - 1)
    (h : bits / 2 ^ p % 2 ^ w = 0 ∨ 2 ^ (w - 1) - 1 + p + 8 ≤ bits / 2 ^ p % 2 ^ w) :
    fixedOfFloat p w bits = zeroQ := by
  obtain ⟨b, hb⟩ : ∃ b : Nat, 2 ^ (w - 1) = 121 + b + 1 := ⟨2 ^ (w - 1) - 122, by omega⟩
  have hbInt : (2 : Int) ^ (w - 1) = 121 + b + 1 := by exact_mod_cast hb
  have hzero : floorScale (significand p w bits).1 ((significand p w bits).2 + 120) % 2 ^ 128 = 0 := by
    rw [significand]
    rcases h with h | h
    · simp only [h, hbInt, if_true]
      rw [show (1 : Int) - (121 + b + 1 - 1) - p + 120 = -((b + p : Nat) : Int) by push_cast; ring,
        floorScale_neg_natCast, Nat.div_eq_of_lt, Nat.zero_mod]
      exact (Nat.mod_lt _ (by positivity)).trans_le (Nat.pow_le_pow_right (by omega) (by omega))
    · generalize bits / 2 ^ p % 2 ^ w = expo at *
      obtain ⟨n, rfl⟩ := Nat.exists_eq_add_of_le h
      have hne : 2 ^ (w - 1) - 1 + p + 8 + n ≠ 0 := by omega
      have hexp : ((2 ^ (w - 1) - 1 + p + 8 + n : Nat) : Int) - (2 ^ (w - 1) - 1) - p + 120 =
          ((128 + n : Nat) : Int) := by
        rw [hb, hbInt]; push_cast; omega
      simp only [if_neg hne, hexp]
      rw [floorScale_natCast, show ∀ m, m * 2 ^ (128 + n) = 2 ^ 128 * (m * 2 ^ n) from fun m => by ring,
        Nat.mul_mod_right]
  refine wrapUnits_eq_zeroQ ?_
  split
  · rwa [Int.natAbs_neg, Int.natAbs_natCast]
  · rwa [Int.natAbs_natCast]

/-- Settles O35: the closed form is zero at these exponents (`fixedOfFloat_eq_zeroQ`). -/
theorem specialFloatsConvertToZero : Obligations.SpecialFloatsConvertToZero := by
  intro s rd
  obtain ⟨⟨t, hcompletes, -, hread⟩, ⟨t', hcompletes', -, hread'⟩⟩ := floatToFixedClosedForm s rd
  refine ⟨fun h => ⟨t, hcompletes, hread.trans (fixedOfFloat_eq_zeroQ (by decide) ?_)⟩,
    fun h => ⟨t', hcompletes', hread'.trans (fixedOfFloat_eq_zeroQ (by decide) ?_)⟩⟩
  · omega
  · omega

end Sys2Proof.Machine
end

section
/-! Rounding to a float pattern is to nearest, ties to even (R160). The magnitude of a pattern is counted in units of
its format's smallest place, `2^eMin`, and the count goes on beyond infinity: there rounding has no overflow. -/

namespace Sys2Proof.Machine
open Sys2Proof.Claims

/-! ### The magnitude of a pattern -/

/-- The magnitude of a pattern without sign, in units of `2^eMin`, the exponent field unbounded. -/
def FloatFmt.places (f : FloatFmt) (b : Nat) : Nat :=
  if b / 2 ^ f.p = 0 then b else (b % 2 ^ f.p + 2 ^ f.p) * 2 ^ (b / 2 ^ f.p - 1)

/-- A significand of `p + 1` bits at the `k`-th place, carries included: subnormal only at the lowest place. -/
theorem FloatFmt.places_place (f : FloatFmt) {k sig : Nat} (hsig : sig ≤ 2 ^ (f.p + 1)) (hk : k = 0 ∨ 2 ^ f.p ≤ sig) :
    f.places (k * 2 ^ f.p + sig) = sig * 2 ^ k := by
  have hp : 0 < 2 ^ f.p := by positivity
  have hquot (j r : Nat) (hr : r < 2 ^ f.p) : (j * 2 ^ f.p + r) / 2 ^ f.p = j := by
    rw [Nat.mul_comm, Nat.mul_add_div hp, Nat.div_eq_of_lt hr, Nat.add_zero]
  have hrem (j r : Nat) (hr : r < 2 ^ f.p) : (j * 2 ^ f.p + r) % 2 ^ f.p = r := by
    rw [Nat.mul_comm, Nat.mul_add_mod, Nat.mod_eq_of_lt hr]
  rw [pow_succ] at hsig
  rw [FloatFmt.places]
  rcases lt_or_ge sig (2 ^ f.p) with h | h
  · obtain rfl : k = 0 := hk.resolve_right (not_le.2 h)
    rw [hquot 0 sig h, if_pos rfl, Nat.zero_mul, Nat.zero_add, pow_zero, Nat.mul_one]
  · obtain ⟨r, rfl⟩ := Nat.exists_eq_add_of_le h
    rw [show k * 2 ^ f.p + (2 ^ f.p + r) = (k + 1) * 2 ^ f.p + r by ring]
    rcases Nat.lt_or_ge r (2 ^ f.p) with hr | hr
    · rw [hquot _ _ hr, hrem _ _ hr, if_neg (by omega), Nat.add_sub_cancel, Nat.add_comm r]
    · obtain rfl : r = 2 ^ f.p := by omega
      rw [show (k + 1) * 2 ^ f.p + 2 ^ f.p = (k + 2) * 2 ^ f.p + 0 by ring, hquot _ _ hp, hrem _ _ hp,
        if_neg (by omega), show k + 2 - 1 = k + 1 by omega, pow_succ]
      ring

/-- Every pattern is a significand at a place. -/
theorem FloatFmt.exists_place (f : FloatFmt) (b : Nat) :
    ∃ k sig, b = k * 2 ^ f.p + sig ∧ sig < 2 ^ (f.p + 1) ∧ (k = 0 ∨ 2 ^ f.p ≤ sig) := by
  have hmod : b % 2 ^ f.p < 2 ^ f.p := Nat.mod_lt _ (by positivity)
  have hdiv := Nat.div_add_mod' b (2 ^ f.p)
  rcases Nat.eq_zero_or_pos (b / 2 ^ f.p) with h | h
  · refine ⟨0, b, by omega, ?_, .inl rfl⟩
    rw [h] at hdiv
    rw [pow_succ]
    omega
  · obtain ⟨k, hk⟩ := Nat.exists_eq_add_of_le' h
    refine ⟨k, b % 2 ^ f.p + 2 ^ f.p, ?_, by rw [pow_succ]; omega, .inr (by omega)⟩
    rw [hk] at hdiv
    rw [← hdiv]
    simp only [Nat.mul_add_mod_self_right, Nat.mod_mod]
    ring

theorem FloatFmt.places_strictMono (f : FloatFmt) : StrictMono f.places := by
  refine strictMono_nat_of_lt_succ fun b => ?_
  obtain ⟨k, sig, rfl, hsig, hk⟩ := f.exists_place b
  rw [f.places_place hsig.le hk, Nat.add_assoc, f.places_place hsig (hk.imp_right (by omega))]
  exact Nat.mul_lt_mul_of_pos_right (Nat.lt_succ_self sig) (by positivity)

/-- The next pattern is at least one unit of the last place above. -/
theorem FloatFmt.places_succ_ge (f : FloatFmt) {k sig : Nat} (hsig : sig ≤ 2 ^ (f.p + 1)) (hk : k = 0 ∨ 2 ^ f.p ≤ sig) :
    (sig + 1) * 2 ^ k ≤ f.places (k * 2 ^ f.p + sig + 1) := by
  rcases Nat.lt_or_ge sig (2 ^ (f.p + 1)) with h | h
  · rw [Nat.add_assoc, f.places_place h (hk.imp_right (by omega))]
  · have h2 : 2 ^ (f.p + 1) = 2 * 2 ^ f.p := by ring
    have hone : 1 ≤ 2 ^ f.p := Nat.one_le_two_pow
    rw [show k * 2 ^ f.p + sig + 1 = (k + 1) * 2 ^ f.p + (2 ^ f.p + 1) by rw [le_antisymm hsig h, h2]; ring,
      f.places_place (by omega) (.inr (by omega)), pow_succ, ← Nat.mul_assoc, Nat.mul_right_comm]
    exact Nat.mul_le_mul_right _ (by omega)

/-- Within a place the pattern before is one unit of the last place below. -/
theorem FloatFmt.places_pred (f : FloatFmt) {k sig : Nat} (hpos : 0 < sig) (hsig : sig ≤ 2 ^ (f.p + 1))
    (hk : k = 0 ∨ 2 ^ f.p < sig) : f.places (k * 2 ^ f.p + sig - 1) = (sig - 1) * 2 ^ k := by
  rw [Nat.add_sub_assoc hpos, f.places_place (by omega) (hk.imp_right (by omega))]

/-! ### Nearest -/

/-- `r` is nearest to `x`, and even if another pattern is equally near; `x` is in units of `2^eMin`. -/
def FloatFmt.Nearest (f : FloatFmt) (x : ℚ) (r : Nat) : Prop :=
  ∀ b, |x - f.places r| ≤ |x - f.places b| ∧ (b ≠ r → |x - f.places r| = |x - f.places b| → r % 2 = 0)

/-- Nearness to the neighbours is nearness to all: each pattern below is a whole unit `u` below or below an `x` that is
not below `r`, each pattern above a whole unit above. -/
theorem FloatFmt.nearest_of_gaps {f : FloatFmt} {x u : ℚ} {r : Nat} (hmid : |x - f.places r| ≤ u / 2)
    (htie : |x - f.places r| = u / 2 → r % 2 = 0)
    (hbelow : f.places r ≤ x ∨ ∀ b < r, (f.places b : ℚ) ≤ f.places r - u)
    (habove : ∀ b, r < b → (f.places r : ℚ) + u ≤ f.places b) : f.Nearest x r := by
  obtain ⟨hlo, hhi⟩ := abs_le.1 hmid
  intro b
  rcases lt_trichotomy b r with hb | rfl | hb
  · have hlt : (f.places b : ℚ) < f.places r := Nat.cast_lt.2 (f.places_strictMono hb)
    rcases hbelow with hx | hgap
    · rw [abs_of_nonneg (by linarith), abs_of_nonneg (by linarith)]
      exact ⟨by linarith, fun _ h => absurd h (by linarith)⟩
    · have hgap' := hgap b hb
      rw [abs_of_nonneg (by linarith : 0 ≤ x - f.places b)]
      exact ⟨by linarith, fun _ h => htie (by linarith)⟩
  · exact ⟨le_rfl, fun h => absurd rfl h⟩
  · have hgap := habove b hb
    rw [abs_sub_comm x (f.places b), abs_of_nonneg (by linarith : 0 ≤ (f.places b : ℚ) - x)]
    exact ⟨by linarith, fun _ h => htie (by linarith)⟩

/-- A significand nearest to `x` at its place gives the nearest pattern. -/
theorem FloatFmt.nearest_of_place {f : FloatFmt} (hp : 0 < f.p) {x : ℚ} {k sig : Nat} (hsig : sig ≤ 2 ^ (f.p + 1))
    (hx : k = 0 ∨ (2 : ℚ) ^ f.p * 2 ^ k ≤ x)
    (hlo : 2 * sig * (2 : ℚ) ^ k ≤ 2 * x + 2 ^ k) (hhi : 2 * x ≤ 2 * sig * (2 : ℚ) ^ k + 2 ^ k)
    (htie : 2 * sig * (2 : ℚ) ^ k = 2 * x + 2 ^ k ∨ 2 * x = 2 * sig * (2 : ℚ) ^ k + 2 ^ k → sig % 2 = 0) :
    f.Nearest x (k * 2 ^ f.p + sig) := by
  have hunit : (0 : ℚ) < 2 ^ k := by positivity
  have hplace : k = 0 ∨ 2 ^ f.p ≤ sig := by
    refine hx.imp_right fun h => ?_
    have hq : (2 : ℚ) * 2 ^ f.p ≤ 2 * sig + 1 := by
      refine le_of_mul_le_mul_right ?_ hunit
      linarith
    have hn : 2 * 2 ^ f.p ≤ 2 * sig + 1 := by exact_mod_cast hq
    omega
  have hval : ((f.places (k * 2 ^ f.p + sig) : Nat) : ℚ) = sig * 2 ^ k := by
    rw [f.places_place hsig hplace]
    push_cast
    rfl
  have heven : sig % 2 = 0 → (k * 2 ^ f.p + sig) % 2 = 0 := fun h => by
    obtain ⟨p, hp'⟩ := Nat.exists_eq_add_of_le' hp
    rw [hp', pow_succ, ← Nat.mul_assoc]
    omega
  refine FloatFmt.nearest_of_gaps (u := 2 ^ k) ?mid ?tie ?below fun b hb => ?above
  all_goals rw [hval]
  case mid => exact abs_le.2 ⟨by linarith, by linarith⟩
  case tie =>
    intro h
    rcases abs_choice (x - sig * (2 : ℚ) ^ k) with h' | h'
    · exact heven (htie (.inr (by linarith)))
    · exact heven (htie (.inl (by linarith)))
  case below =>
    by_cases hedge : k = 0 ∨ 2 ^ f.p < sig
    · refine .inr fun b hb => ?_
      have hpos : 0 < sig := by rcases hedge with rfl | h <;> omega
      have hle : f.places b ≤ (sig - 1) * 2 ^ k :=
        f.places_pred hpos hsig hedge ▸ f.places_strictMono.monotone (by omega)
      have hleQ : (f.places b : ℚ) ≤ (sig - 1) * 2 ^ k := by
        rw [← Nat.cast_pred hpos]
        exact_mod_cast hle
      linarith
    · -- the first significand of a place: the gap below is only half a unit, but `x` is not below it
      obtain ⟨hk, hsig'⟩ := not_or.1 hedge
      obtain rfl : sig = 2 ^ f.p := le_antisymm (not_lt.1 hsig') (hplace.resolve_left hk)
      exact .inl (by exact_mod_cast hx.resolve_left hk)
  case above =>
    have hle : (sig + 1) * 2 ^ k ≤ f.places b :=
      (f.places_succ_ge hsig hplace).trans (f.places_strictMono.monotone hb)
    have hleQ : ((sig : ℚ) + 1) * 2 ^ k ≤ f.places b := by exact_mod_cast hle
    linarith

/-- A point equally far from two others is nearer to any point between them. -/
theorem abs_sub_lt_of_between {x a b c : ℚ} (hac : a < c) (hcb : c < b) (h : |x - a| = |x - b|) :
    |x - c| < |x - a| := by
  have hmid : 2 * x = a + b := by
    rcases abs_eq_abs.1 h with h' | h' <;> linarith
  rw [abs_of_nonneg (by linarith : 0 ≤ x - a), abs_lt]
  exact ⟨by linarith, by linarith⟩

/-- Two nearest patterns are the same: of two neighbours only one is even. -/
theorem FloatFmt.Nearest.unique {f : FloatFmt} {x : ℚ} {r r' : Nat} (h : f.Nearest x r) (h' : f.Nearest x r') :
    r = r' := by
  wlog hlt : r < r' generalizing r r'
  · rcases Nat.lt_or_ge r' r with hgt | hge
    · exact (this h' h hgt).symm
    · omega
  have heq := le_antisymm (h r').1 (h' r).1
  have heven := (h r').2 hlt.ne' heq
  have heven' := (h' r).2 hlt.ne heq.symm
  have hcloser := abs_sub_lt_of_between (Nat.cast_lt.2 (f.places_strictMono (Nat.lt_succ_self r)))
    (Nat.cast_lt.2 (f.places_strictMono (show r + 1 < r' by omega))) heq
  exact absurd (h (r + 1)).1 (not_le.2 hcloser)

end Sys2Proof.Machine
end

section
/-! `roundPattern` gives the pattern nearest to the exact value (R160), and what follows from that alone. -/

namespace Sys2Proof.Machine
open Sys2Proof.Claims

/-! ### The range of a format -/

/-- A format with a fraction, and with exponents enough for an infinity above a finite normal number. -/
def FloatFmt.Proper (f : FloatFmt) : Prop := 0 < f.p ∧ 2 ≤ f.w

theorem binary64_proper : binary64.Proper := ⟨by decide, by decide⟩

theorem binary32_proper : binary32.Proper := ⟨by decide, by decide⟩

/-- The magnitude of a pattern with its exponent field in range (R160). -/
theorem patternValue_eq {f : FloatFmt} {b : Nat} (hb : b / 2 ^ f.p < 2 ^ f.w) :
    patternValue f b = f.places b * (2 : ℚ) ^ f.eMin := by
  rw [patternValue, significand, FloatFmt.places, Nat.mod_eq_of_lt hb]
  have hmod := Nat.div_add_mod' b (2 ^ f.p)
  rw [FloatFmt.eMin, FloatFmt.bias_cast]
  split
  case isTrue h => simp only [show b % 2 ^ f.p = b by rw [h] at hmod; omega]
  case isFalse h =>
    obtain ⟨k, hk⟩ := Nat.exists_eq_succ_of_ne_zero h
    simp only [hk, Nat.succ_sub_one, Nat.cast_mul, Nat.cast_pow, Nat.cast_ofNat, mul_assoc]
    rw [← zpow_natCast (2 : ℚ) k, ← zpow_add₀ two_ne_zero]
    congr 2
    push_cast
    ring

section Range
variable {f : FloatFmt} (hf : f.Proper)
include hf

theorem FloatFmt.two_le_top : ∃ n : Nat, 2 ^ f.w = n + 4 ∧ (f.bias : Int) * 2 = n + 2 := by
  obtain ⟨w, hw⟩ := Nat.exists_eq_add_of_le hf.2
  have hone : 1 ≤ 2 ^ w := Nat.one_le_two_pow
  have hbias : f.bias = 2 * 2 ^ w - 1 := by
    rw [FloatFmt.bias, show f.w - 1 = w + 1 by omega, pow_succ, Nat.mul_comm]
  refine ⟨2 ^ f.w - 4, ?_, ?_⟩ <;> rw [hw, pow_add] <;> omega

theorem patternValue_eq_places {b : Nat} (hb : b < f.infPattern) :
    patternValue f b = f.places b * (2 : ℚ) ^ f.eMin := by
  obtain ⟨n, hn, -⟩ := FloatFmt.two_le_top hf
  refine patternValue_eq ((Nat.div_lt_of_lt_mul ?_).trans_le (Nat.sub_le _ 1))
  rwa [Nat.mul_comm, ← FloatFmt.infPattern]

/-- Infinity is at the place after the largest finite value, with the magnitude `2^(bias + 1)`. -/
theorem FloatFmt.infPattern_even : f.infPattern % 2 = 0 ∧ 0 < f.infPattern := by
  obtain ⟨n, hn, -⟩ := FloatFmt.two_le_top hf
  obtain ⟨p, hp⟩ := Nat.exists_eq_add_of_le' hf.1
  have hpos : 0 < 2 ^ p := by positivity
  rw [FloatFmt.infPattern, hn, hp, pow_succ, ← Nat.mul_assoc, show n + 4 - 1 = n + 3 by omega]
  exact ⟨Nat.mul_mod_left _ _, by positivity⟩

theorem FloatFmt.places_infPattern : ((f.places f.infPattern : Nat) : ℚ) * 2 ^ f.eMin = 2 ^ ((f.bias : Int) + 1) := by
  obtain ⟨n, hn, hbias⟩ := FloatFmt.two_le_top hf
  have hinf : f.infPattern = (n + 2) * 2 ^ f.p + 2 ^ f.p := by
    rw [FloatFmt.infPattern, hn, show n + 4 - 1 = n + 2 + 1 by omega]
    ring
  rw [hinf, f.places_place (Nat.pow_le_pow_right (by omega) (by omega)) (.inr le_rfl), ← pow_add, Nat.cast_pow,
    Nat.cast_ofNat, ← zpow_natCast, ← zpow_add₀ two_ne_zero, FloatFmt.eMin]
  congr 1
  push_cast
  linarith

/-- The limit of overflow is half way from the largest finite value to infinity. -/
theorem FloatFmt.limit_eq : (2 ^ (f.p + 2) - 1) * (2 : ℚ) ^ ((f.bias : Int) - f.p - 1) * 2 =
    (f.places (f.infPattern - 1) + f.places f.infPattern) * 2 ^ f.eMin := by
  obtain ⟨n, hn, hbias⟩ := FloatFmt.two_le_top hf
  have hone : 1 ≤ 2 ^ f.p := Nat.one_le_two_pow
  have hpred : f.infPattern - 1 = (n + 1) * 2 ^ f.p + (2 ^ (f.p + 1) - 1) := by
    rw [FloatFmt.infPattern, hn, show n + 4 - 1 = n + 1 + 2 by omega, pow_succ, Nat.add_mul]
    omega
  have hplaces : ((f.places (f.infPattern - 1) : Nat) : ℚ) = (2 ^ (f.p + 1) - 1) * 2 ^ (n + 1) := by
    rw [hpred, f.places_place (Nat.sub_le _ _) (.inr (by rw [pow_succ]; omega)), Nat.cast_mul,
      Nat.cast_pred (by positivity)]
    push_cast
    rfl
  have hscale : (2 : ℚ) ^ (n + 1) * 2 ^ f.eMin = 2 * 2 ^ ((f.bias : Int) - f.p - 1) := by
    rw [← zpow_natCast, ← zpow_add₀ two_ne_zero, ← zpow_one_add₀ two_ne_zero, FloatFmt.eMin]
    congr 1
    push_cast
    linarith
  have htop : (2 : ℚ) ^ ((f.bias : Int) + 1) = 2 ^ (f.p + 2) * 2 ^ ((f.bias : Int) - f.p - 1) := by
    rw [← zpow_natCast, ← zpow_add₀ two_ne_zero]
    congr 1
    push_cast
    ring
  rw [add_mul, FloatFmt.places_infPattern hf, hplaces, mul_assoc (2 ^ (f.p + 1) - 1), hscale, htop]
  ring

/-- The nearest pattern, cut off at infinity, is the rounded pattern: half way to infinity the tie goes to infinity,
which is even. -/
theorem roundedTo_of_nearest {x : ℚ} {r : Nat} (h : f.Nearest x r) :
    RoundedTo f (x * 2 ^ f.eMin) (min r f.infPattern) := by
  have hunit : (0 : ℚ) < 2 ^ f.eMin := by positivity
  obtain ⟨heven, hpos⟩ := FloatFmt.infPattern_even hf
  have hlimit := FloatFmt.limit_eq hf
  have htop : (f.places (f.infPattern - 1) : ℚ) < f.places f.infPattern :=
    Nat.cast_lt.2 (f.places_strictMono (by omega))
  constructor
  · intro hx
    have hmid : (f.places (f.infPattern - 1) + f.places f.infPattern : ℚ) ≤ 2 * x := by
      refine le_of_mul_le_mul_right ?_ hunit
      linarith
    refine min_eq_right (not_lt.1 fun hr => ?_)
    have hbelow : (f.places r : ℚ) ≤ f.places (f.infPattern - 1) :=
      Nat.cast_le.2 (f.places_strictMono.monotone (by omega))
    obtain ⟨hle, htie⟩ := h f.infPattern
    rw [abs_of_nonneg (by linarith : 0 ≤ x - f.places r)] at hle htie
    rcases le_or_gt (f.places f.infPattern : ℚ) x with hb | hb
    · rw [abs_of_nonneg (by linarith)] at hle
      linarith
    · rw [abs_of_neg (by linarith)] at hle htie
      have hlast : f.places r = f.places (f.infPattern - 1) := by
        refine le_antisymm (f.places_strictMono.monotone (by omega)) (Nat.cast_le (α := ℚ).1 (by linarith))
      have hr' : r = f.infPattern - 1 := f.places_strictMono.injective hlast
      have hreven := htie hr.ne' (by linarith)
      omega
  · intro hx
    have hmid : 2 * x < (f.places (f.infPattern - 1) + f.places f.infPattern : ℚ) := by
      refine lt_of_mul_lt_mul_right ?_ hunit.le
      linarith
    have hr : r < f.infPattern := by
      refine not_le.1 fun hr => ?_
      have habove : (f.places f.infPattern : ℚ) ≤ f.places r := Nat.cast_le.2 (f.places_strictMono.monotone hr)
      have hle := (h (f.infPattern - 1)).1
      rw [abs_of_neg (by linarith), le_abs] at hle
      rcases hle with hle | hle <;> linarith
    rw [min_eq_left hr.le]
    refine ⟨hr, fun b hb => ?_⟩
    rw [patternValue_eq_places hf hr, patternValue_eq_places hf hb, ← sub_mul, ← sub_mul, abs_mul, abs_mul,
      abs_of_pos hunit]
    exact ⟨mul_le_mul_of_nonneg_right (h b).1 hunit.le, fun hne heq => (h b).2 hne (mul_right_cancel₀ hunit.ne' heq)⟩

end Range

/-! ### `roundPattern` -/

/-- `m / 2^j` rounded: within half a unit, and even where both neighbours are as near. -/
theorem roundShift_spec (m : Nat) {h : Nat} {j : Nat} (hj : 2 ^ j = 2 * h) :
    2 * roundShift m j * h ≤ m + h ∧ m ≤ 2 * roundShift m j * h + h ∧
    (2 * roundShift m j * h = m + h ∨ m = 2 * roundShift m j * h + h → roundShift m j % 2 = 0) := by
  have hmod : m % (2 * h) < 2 * h := Nat.mod_lt _ (by rw [← hj]; positivity)
  have hdiv : m / (2 * h) * h * 2 + m % (2 * h) = m := by
    rw [Nat.mul_assoc, Nat.mul_comm h, Nat.div_add_mod']
  rw [roundShift, hj]
  split
  case isTrue hup =>
    rw [show 2 * (m / (2 * h) + 1) * h = m / (2 * h) * h * 2 + 2 * h by ring]
    omega
  case isFalse hdown =>
    rw [show 2 * (m / (2 * h)) * h = m / (2 * h) * h * 2 by ring]
    omega

theorem roundShift_le {m j n : Nat} (h : m < 2 ^ (n + j)) : roundShift m j ≤ 2 ^ n := by
  have hq : m / 2 ^ j < 2 ^ n := Nat.div_lt_of_lt_mul (by rwa [← pow_add, Nat.add_comm])
  rw [roundShift]
  split <;> omega

/-- `y` lies on the same side as `m` of every number that decides how `m` is rounded: it is `m`, or it lies strictly
between the two even neighbours of an odd `m` with bits to spare (a significand with a sticky last bit). -/
def RoundsAs (f : FloatFmt) (m : Nat) (y : ℚ) : Prop :=
  y = m ∨ f.p + 2 ≤ Nat.log2 m ∧ m % 2 = 1 ∧ (m : ℚ) - 1 < y ∧ y < m + 1

theorem RoundsAs.compare {f : FloatFmt} {m : Nat} {y : ℚ} (h : RoundsAs f m y) {t : Int}
    (ht : f.p + 2 ≤ Nat.log2 m → 2 ∣ t) : ((t : ℚ) ≤ y ↔ t ≤ m) ∧ (y ≤ t ↔ m ≤ t) := by
  obtain rfl | ⟨hlog, hodd, hlo, hhi⟩ := h
  · exact ⟨by exact_mod_cast Iff.rfl, by exact_mod_cast Iff.rfl⟩
  · have heven := ht hlog
    refine ⟨⟨fun h => ?_, fun h => ?_⟩, ⟨fun h => ?_, fun h => ?_⟩⟩
    · have hq : (t : ℚ) < ((m + 1 : Int) : ℚ) := by push_cast; linarith
      exact Int.lt_add_one_iff.1 (Int.cast_lt.1 hq)
    · have hq : ((t + 1 : Int) : ℚ) ≤ (m : Int) := Int.cast_le.2 (by omega)
      push_cast at hq
      linarith
    · have hq : ((m - 1 : Int) : ℚ) < t := by push_cast; linarith
      exact Int.sub_one_lt_iff.1 (Int.cast_lt.1 hq)
    · have hq : ((m + 1 : Int) : ℚ) ≤ t := Int.cast_le.2 (by omega)
      push_cast at hq
      linarith

/-- The place of the last bit of the rounded significand, above the lowest place of the format. -/
theorem exists_lastPlace (f : FloatFmt) (m : Nat) (e : Int) :
    ∃ k : Nat, max (e + (Nat.log2 m : Int) - (f.p : Int)) f.eMin = f.eMin + k ∧
      (k = 0 ∨ e + (Nat.log2 m : Int) = f.eMin + k + f.p) ∧ e + (Nat.log2 m : Int) ≤ f.eMin + k + f.p := by
  refine ⟨(max (e + (Nat.log2 m : Int) - (f.p : Int)) f.eMin - f.eMin).toNat, ?_⟩
  omega

/-- Above the last place nothing is lost. -/
theorem roundPattern_exact {f : FloatFmt} {m : Nat} (hm : m ≠ 0) {e : Int} {k d : Nat}
    (hk : max (e + (Nat.log2 m : Int) - (f.p : Int)) f.eMin = f.eMin + k) (he : e = f.eMin + k + d) :
    roundPattern f m e = min (k * 2 ^ f.p + m * 2 ^ d) f.infPattern := by
  rw [roundPattern, if_neg hm]
  simp only [hk]
  rw [if_pos (by omega), show (f.eMin + k - f.eMin).toNat = k by omega, show (e - (f.eMin + k)).toNat = d by omega]

/-- Below it the significand is shifted and rounded. -/
theorem roundPattern_shift {f : FloatFmt} {m : Nat} (hm : m ≠ 0) {e : Int} {k j : Nat}
    (hk : max (e + (Nat.log2 m : Int) - (f.p : Int)) f.eMin = f.eMin + k) (he : e + j = f.eMin + k) (hj : 0 < j) :
    roundPattern f m e = min (k * 2 ^ f.p + roundShift m j) f.infPattern := by
  rw [roundPattern, if_neg hm]
  simp only [hk]
  rw [if_neg (by omega), show (f.eMin + k - f.eMin).toNat = k by omega, show (f.eMin + k - e).toNat = j by omega]

theorem FloatFmt.nearest_zero (f : FloatFmt) : f.Nearest 0 0 := by
  intro b
  have hzero : f.places 0 = 0 := by simp [FloatFmt.places]
  rw [hzero, Nat.cast_zero, sub_zero, abs_zero]
  exact ⟨abs_nonneg _, fun _ _ => rfl⟩

/-- Nothing is lost above the last place, so the pattern is the value itself. -/
theorem nearest_exact {f : FloatFmt} (hp : 0 < f.p) {m : Nat} (hm : m ≠ 0) {e : Int} {k d : Nat}
    (he : e = f.eMin + k + d) (hnormal : k = 0 ∨ e + (Nat.log2 m : Int) = f.eMin + k + f.p)
    (hle : e + (Nat.log2 m : Int) ≤ f.eMin + k + f.p) :
    f.Nearest (m * 2 ^ (e - f.eMin)) (k * 2 ^ f.p + m * 2 ^ d) := by
  have hx : (m : ℚ) * 2 ^ (e - f.eMin) = ((m * 2 ^ d : Nat) : ℚ) * 2 ^ k := by
    rw [he, show f.eMin + k + d - f.eMin = ((d + k : Nat) : Int) by push_cast; ring, zpow_natCast, pow_add]
    push_cast
    ring
  have hpos : (0 : ℚ) < 2 ^ k := by positivity
  rw [hx]
  refine FloatFmt.nearest_of_place hp ?_ (hnormal.imp_right fun h => ?_) (by linarith) (by linarith) ?_
  · calc m * 2 ^ d ≤ 2 ^ (Nat.log2 m + 1) * 2 ^ d := Nat.mul_le_mul_right _ Nat.lt_log2_self.le
      _ = 2 ^ (Nat.log2 m + 1 + d) := (pow_add ..).symm
      _ ≤ 2 ^ (f.p + 1) := Nat.pow_le_pow_right (by omega) (by omega)
  · refine mul_le_mul_of_nonneg_right ?_ hpos.le
    have hsig : 2 ^ f.p ≤ m * 2 ^ d := by
      rw [show f.p = Nat.log2 m + d by omega, pow_add]
      exact Nat.mul_le_mul_right _ (Nat.log2_self_le hm)
    exact_mod_cast hsig
  · rintro (h | h) <;> linarith

/-- A value that rounds as `m` is compared as `m` with the half-way points on both sides of the shifted significand. -/
theorem RoundsAs.shift_bounds {f : FloatFmt} {m i : Nat} {y : ℚ} (hy : RoundsAs f m y)
    (hi : f.p + 2 ≤ Nat.log2 m → 1 ≤ i) :
    ((2 * roundShift m (i + 1) - 1) * 2 ^ i : ℚ) ≤ y ∧ y ≤ (2 * roundShift m (i + 1) + 1) * 2 ^ i ∧
    ((2 * roundShift m (i + 1) - 1) * 2 ^ i = y ∨ y = (2 * roundShift m (i + 1) + 1) * 2 ^ i →
      roundShift m (i + 1) % 2 = 0) := by
  obtain ⟨hlo, hhi, htie⟩ := roundShift_spec m (pow_succ' 2 i)
  have heven (t : Int) : f.p + 2 ≤ Nat.log2 m → 2 ∣ t * 2 ^ i := fun h =>
    (dvd_pow_self (2 : Int) (Nat.one_le_iff_ne_zero.1 (hi h))).mul_left t
  generalize roundShift m (i + 1) = sig at *
  obtain ⟨hlo_iff, hlo_iff'⟩ := hy.compare (heven (2 * sig - 1))
  obtain ⟨hhi_iff, hhi_iff'⟩ := hy.compare (heven (2 * sig + 1))
  push_cast at hlo_iff hlo_iff' hhi_iff hhi_iff'
  refine ⟨hlo_iff.2 ?_, hhi_iff'.2 ?_, ?_⟩
  · zify at hlo
    linarith
  · zify at hhi
    linarith
  · rintro (h | h)
    · have hm := le_antisymm (hlo_iff.1 h.le) (hlo_iff'.1 h.ge)
      exact htie (.inl (by zify; linarith))
    · have hm := le_antisymm (hhi_iff.1 h.ge) (hhi_iff'.1 h.le)
      exact htie (.inr (by zify; linarith))

/-- The shifted and rounded significand gives the nearest pattern. -/
theorem nearest_shift {f : FloatFmt} (hp : 0 < f.p) {m : Nat} (hm : m ≠ 0) {e : Int} {y : ℚ} (hy : RoundsAs f m y)
    {k i : Nat} (hi : e + ((i + 1 : Nat) : Int) = f.eMin + k)
    (hnormal : k = 0 ∨ e + (Nat.log2 m : Int) = f.eMin + k + f.p)
    (hle : e + (Nat.log2 m : Int) ≤ f.eMin + k + f.p) :
    f.Nearest (y * 2 ^ (e - f.eMin)) (k * 2 ^ f.p + roundShift m (i + 1)) := by
  -- `y` counts units of `2^(e - eMin)`, and `2^i` of them are half the last place
  have hc : (0 : ℚ) < 2 ^ (e - f.eMin) := by positivity
  have hplace : (2 : ℚ) ^ k = 2 * 2 ^ i * 2 ^ (e - f.eMin) := by
    rw [← pow_succ', ← zpow_natCast, ← zpow_natCast, ← zpow_add₀ two_ne_zero]
    congr 1
    omega
  have hsig : roundShift m (i + 1) ≤ 2 ^ (f.p + 1) :=
    roundShift_le (Nat.lt_log2_self.trans_le (Nat.pow_le_pow_right (by omega) (by omega)))
  obtain ⟨hlo, hhi, htie⟩ := hy.shift_bounds (i := i) (by omega)
  have hloC := mul_le_mul_of_nonneg_right hlo hc.le
  have hhiC := mul_le_mul_of_nonneg_right hhi hc.le
  refine FloatFmt.nearest_of_place hp hsig (hnormal.imp_right fun h => ?first) (by rw [hplace]; linarith)
    (by rw [hplace]; linarith) ?tie
  case first =>
    have hlog : Nat.log2 m = f.p + (i + 1) := by omega
    have hfirst : (((2 ^ Nat.log2 m : Int)) : ℚ) ≤ y :=
      (hy.compare fun h' => dvd_pow_self 2 (by omega)).1.2 (by exact_mod_cast Nat.log2_self_le hm)
    have hfirstC := mul_le_mul_of_nonneg_right hfirst hc.le
    rw [hlog] at hfirstC
    push_cast at hfirstC
    calc (2 : ℚ) ^ f.p * 2 ^ k = 2 ^ (f.p + (i + 1)) * 2 ^ (e - f.eMin) := by rw [hplace]; ring
      _ ≤ _ := hfirstC
  case tie =>
    rintro (h | h) <;> rw [hplace] at h
    · exact htie (.inl (mul_right_cancel₀ hc.ne' (by linarith)))
    · exact htie (.inr (mul_right_cancel₀ hc.ne' (by linarith)))

/-- `roundPattern` is the nearest pattern, cut off at infinity, also for a value that its significand only
stands for. -/
theorem exists_nearest {f : FloatFmt} (hp : 0 < f.p) {m : Nat} (e : Int) {y : ℚ} (hy : RoundsAs f m y) :
    ∃ r, f.Nearest (y * 2 ^ (e - f.eMin)) r ∧ roundPattern f m e = min r f.infPattern := by
  rcases eq_or_ne m 0 with rfl | hm
  · obtain rfl | ⟨hlog, -⟩ := hy
    · refine ⟨0, ?_, by simp [roundPattern]⟩
      rw [Nat.cast_zero, zero_mul]
      exact f.nearest_zero
    · simp at hlog
  obtain ⟨k, hk, hnormal, hle⟩ := exists_lastPlace f m e
  rcases le_or_gt (f.eMin + k) e with hfine | hcoarse
  · obtain ⟨d, hd⟩ : ∃ d : Nat, e = f.eMin + k + d := ⟨(e - (f.eMin + k)).toNat, by omega⟩
    obtain rfl : y = m := hy.resolve_right (by omega)
    exact ⟨_, nearest_exact hp hm hd hnormal hle, roundPattern_exact hm hk hd⟩
  · obtain ⟨i, hi⟩ : ∃ i : Nat, e + ((i + 1 : Nat) : Int) = f.eMin + k := ⟨(f.eMin + k - e).toNat - 1, by omega⟩
    exact ⟨_, nearest_shift hp hm hy hi hnormal hle, roundPattern_shift hm hk hi (Nat.succ_pos i)⟩

/-- `roundPattern` is the rounding of the exact value. -/
theorem roundedTo_roundPattern_of_roundsAs {f : FloatFmt} (hf : f.Proper) {m : Nat} (e : Int) {y : ℚ}
    (hy : RoundsAs f m y) : RoundedTo f (y * 2 ^ e) (roundPattern f m e) := by
  obtain ⟨r, hnearest, hr⟩ := exists_nearest hf.1 e hy
  have h := roundedTo_of_nearest hf hnearest
  rwa [mul_assoc, ← zpow_add₀ two_ne_zero, sub_add_cancel, ← hr] at h

theorem roundedTo_roundPattern {f : FloatFmt} (hf : f.Proper) (m : Nat) (e : Int) :
    RoundedTo f (m * 2 ^ e) (roundPattern f m e) :=
  roundedTo_roundPattern_of_roundsAs hf e (.inl rfl)

/-- Settles O39: at the last place the significand is within half a unit and even on a tie (`roundShift_spec`), which
gives the nearest pattern (`nearest_of_place`), infinity from half way to it on (`roundedTo_of_nearest`). -/
theorem roundingIsNearestTiesToEven : Obligations.RoundingIsNearestTiesToEven := by
  rintro f (rfl | rfl) m e
  · exact roundedTo_roundPattern binary64_proper m e
  · exact roundedTo_roundPattern binary32_proper m e

/-- The rounded pattern depends on the value alone, not on how it is split into significand and exponent. -/
theorem roundPattern_congr {f : FloatFmt} (hp : 0 < f.p) {m m' : Nat} {e e' : Int}
    (h : (m : ℚ) * 2 ^ e = m' * 2 ^ e') : roundPattern f m e = roundPattern f m' e' := by
  obtain ⟨r, hnearest, hr⟩ := exists_nearest hp e (.inl rfl : RoundsAs f m m)
  obtain ⟨r', hnearest', hr'⟩ := exists_nearest hp e' (.inl rfl : RoundsAs f m' m')
  have hvalue : (m : ℚ) * 2 ^ (e - f.eMin) = m' * 2 ^ (e' - f.eMin) := by
    rw [zpow_sub₀ two_ne_zero, zpow_sub₀ two_ne_zero, ← mul_div_assoc, ← mul_div_assoc, h]
  rw [hvalue] at hnearest
  rw [hr, hr', hnearest.unique hnearest']

/-! ### What follows for any rounded value -/

section RoundedTo
variable {f : FloatFmt} (hf : f.Proper)
include hf

/-- Finite patterns are ordered as their values. -/
theorem patternValue_lt_iff {b c : Nat} (hb : b < f.infPattern) (hc : c < f.infPattern) :
    patternValue f b < patternValue f c ↔ b < c := by
  rw [patternValue_eq_places hf hb, patternValue_eq_places hf hc, mul_lt_mul_iff_left₀ (by positivity), Nat.cast_lt]
  exact f.places_strictMono.lt_iff_lt

/-- A finite value lies below the limit of overflow. -/
theorem patternValue_lt_limit {b : Nat} (hb : b < f.infPattern) :
    patternValue f b < (2 ^ (f.p + 2) - 1) * (2 : ℚ) ^ ((f.bias : Int) - f.p - 1) := by
  have hlimit := FloatFmt.limit_eq hf
  have hunit : (0 : ℚ) < 2 ^ f.eMin := by positivity
  have hlast : (f.places b : ℚ) ≤ f.places (f.infPattern - 1) :=
    Nat.cast_le.2 (f.places_strictMono.monotone (by omega))
  have hinf : (f.places (f.infPattern - 1) : ℚ) < f.places f.infPattern :=
    Nat.cast_lt.2 (f.places_strictMono (by have := FloatFmt.infPattern_even hf; omega))
  have h : 2 * (f.places b * (2 : ℚ) ^ f.eMin) <
      (f.places (f.infPattern - 1) + f.places f.infPattern) * 2 ^ f.eMin := by
    rw [← mul_assoc, mul_lt_mul_iff_left₀ hunit]
    linarith
  rw [patternValue_eq_places hf hb]
  linarith

section Bounds
variable {x : ℚ} {r b : Nat} (h : RoundedTo f x r) (hb : b < f.infPattern)
include h hb

/-- What is not above a finite value does not overflow, and does not round above it. -/
theorem roundedTo_le_of_le (hx : x ≤ patternValue f b) : r < f.infPattern ∧ patternValue f r ≤ patternValue f b := by
  obtain ⟨hr, hnearest⟩ := h.2 (hx.trans_lt (patternValue_lt_limit hf hb))
  refine ⟨hr, not_lt.1 fun hlt => ?_⟩
  have hle := (hnearest b hb).1
  rw [abs_of_neg (by linarith), abs_of_nonpos (by linarith)] at hle
  linarith

omit hf in
/-- What is not below a finite value does not round below it. -/
theorem roundedTo_ge_of_ge (hx : patternValue f b ≤ x) (hr : r < f.infPattern) :
    patternValue f b ≤ patternValue f r := by
  refine not_lt.1 fun hlt => ?_
  have hx' : x < (2 ^ (f.p + 2) - 1) * (2 : ℚ) ^ ((f.bias : Int) - f.p - 1) := by
    refine not_le.1 fun hle => ?_
    rw [h.1 hle] at hr
    exact lt_irrefl _ hr
  have hle := ((h.2 hx').2 b hb).1
  rw [abs_of_pos (by linarith), abs_of_nonneg (by linarith)] at hle
  linarith

end Bounds

/-- The value of a finite pattern rounds to that pattern. -/
theorem eq_of_roundedTo_patternValue {r b : Nat} (h : RoundedTo f (patternValue f b) r) (hb : b < f.infPattern) :
    r = b := by
  obtain ⟨hr, hle⟩ := roundedTo_le_of_le hf h hb le_rfl
  have hge := roundedTo_ge_of_ge h hb le_rfl hr
  exact le_antisymm (not_lt.1 (mt (patternValue_lt_iff hf hb hr).2 (not_lt.2 hle)))
    (not_lt.1 (mt (patternValue_lt_iff hf hr hb).2 (not_lt.2 hge)))

end RoundedTo

end Sys2Proof.Machine
end

section
/-! The binary64 operations on values: finite operands, zeros, infinities and NaNs (R9, R160). -/

namespace Sys2Proof.Machine
open Sys2Proof.Claims

/-! ### The parts of a binary64 pattern -/

/-- The factor `-1` or `1` of a sign bit. -/
def signFactor (neg : Bool) : ℚ := if neg then -1 else 1

theorem signFactor_bne (s t : Bool) : signFactor (s != t) = signFactor s * signFactor t := by
  cases s <;> cases t <;> simp [signFactor]

theorem signFactor_not (s : Bool) : signFactor (!s) = -signFactor s := by
  cases s <;> simp [signFactor]

theorem signFactor_ne_zero (s : Bool) : signFactor s ≠ 0 := by
  cases s <;> simp [signFactor]

theorem abs_signFactor_mul (s : Bool) (y : ℚ) : |signFactor s * y| = |y| := by
  cases s <;> simp [signFactor]

theorem signedInt_cast (s : Bool) (m : Nat) : (signedInt s m : ℚ) = signFactor s * m := by
  cases s <;> simp [signedInt, signFactor]

/-- The significand of a binary64 pattern (R161). -/
def mant64 (a : BitVec 64) : Nat := (significand 52 11 a.toNat).1

/-- The exponent of a binary64 pattern (R161). -/
def expo64 (a : BitVec 64) : Int := (significand 52 11 a.toNat).2

theorem msb_eq_signBit (a : BitVec 64) : binary64.signBit a.toNat = a.msb := by
  have := a.isLt
  rw [FloatFmt.signBit, BitVec.msb_eq_decide, show binary64.p + binary64.w = 63 from rfl, Bool.eq_iff_iff, beq_iff_eq,
    decide_eq_true_iff]
  omega

theorem toNat_div_eq (a : BitVec 64) : a.toNat / 2 ^ 63 = if a.msb then 1 else 0 := by
  have := a.isLt
  rw [BitVec.msb_eq_decide]
  simp only [decide_eq_true_eq]
  split <;> omega

/-- The sign bit takes no part in the significand and the exponent. -/
theorem significand_mod (n : Nat) : significand 52 11 (n % 2 ^ 63) = significand 52 11 n := by
  rw [significand, significand, show n % 2 ^ 63 / 2 ^ 52 % 2 ^ 11 = n / 2 ^ 52 % 2 ^ 11 by omega,
    show n % 2 ^ 63 % 2 ^ 52 = n % 2 ^ 52 by omega]

theorem patternValue_magnitude (a : BitVec 64) :
    patternValue binary64 (a.toNat % 2 ^ 63) = mant64 a * 2 ^ expo64 a := by
  rw [patternValue, show binary64.p = 52 from rfl, show binary64.w = 11 from rfl, significand_mod, mant64, expo64]

theorem value64_eq (a : BitVec 64) : value64 a = signFactor a.msb * (mant64 a * 2 ^ expo64 a) := by
  rw [value64, patternValue_magnitude, toNat_div_eq, signFactor]
  cases a.msb <;> rfl

theorem abs_value64 (a : BitVec 64) : |value64 a| = patternValue binary64 (a.toNat % 2 ^ 63) := by
  rw [value64_eq, abs_signFactor_mul, patternValue_magnitude, abs_of_nonneg (by positivity)]

theorem value64_eq_zero_iff (a : BitVec 64) : value64 a = 0 ↔ mant64 a = 0 := by
  have hpow : (2 : ℚ) ^ expo64 a ≠ 0 := by positivity
  rw [value64_eq, mul_eq_zero, mul_eq_zero, Nat.cast_eq_zero]
  simp [signFactor_ne_zero, hpow]

theorem floatVal_of_finite {a : BitVec 64} (h : Finite64 a) :
    floatVal binary64 a.toNat = .finite a.msb (mant64 a) (expo64 a) := by
  have hexp : binary64.expField a.toNat ≠ 2 ^ binary64.w - 1 := h
  rw [floatVal, if_neg hexp, decomp_eq, msb_eq_signBit]
  rfl

/-- A binary64 pattern from its sign and its other 63 bits. -/
def pattern64 (neg : Bool) (b : Nat) : BitVec 64 := BitVec.ofNat 64 (withSign binary64 neg b)

section Pattern
variable (neg : Bool) {b : Nat} (hb : b < 2 ^ 63)
include hb

theorem pattern64_toNat : (pattern64 neg b).toNat = (if neg then 2 ^ 63 else 0) + b := by
  rw [pattern64, BitVec.toNat_ofNat, withSign, show binary64.signWeight = 2 ^ 63 from rfl]
  cases neg
  · simp only [Bool.false_eq_true, if_false]; omega
  · simp only [if_true]; omega

theorem pattern64_mod : (pattern64 neg b).toNat % 2 ^ 63 = b := by
  rw [pattern64_toNat neg hb]
  split <;> omega

theorem pattern64_div : (pattern64 neg b).toNat / 2 ^ 63 = if neg then 1 else 0 := by
  rw [pattern64_toNat neg hb]
  split <;> omega

end Pattern

theorem pattern64_zero (neg : Bool) : pattern64 neg 0 = signedZero neg := by
  cases neg <;> decide +kernel

theorem pattern64_inf (neg : Bool) : pattern64 neg binary64.infPattern = signedInf neg := by
  cases neg <;> decide +kernel

/-- A zero is a pattern with significand 0. -/
theorem eq_signedZero_iff (a : BitVec 64) (s : Bool) : a = signedZero s ↔ a.msb = s ∧ mant64 a = 0 := by
  constructor
  · rintro rfl
    cases s <;> decide +kernel
  · rintro ⟨rfl, hm⟩
    have hbits : a.toNat % 2 ^ 63 = 0 := by
      rw [mant64, ← significand_mod, significand] at hm
      split at hm <;> omega
    apply BitVec.eq_of_toNat_eq
    have hdiv := toNat_div_eq a
    rw [← pattern64_zero, pattern64_toNat _ (by norm_num)]
    cases hmsb : a.msb <;> rw [hmsb] at hdiv <;> simp only [Bool.false_eq_true, if_false, if_true] at hdiv ⊢ <;> omega

/-! ### What an operation answers, from the value it computes -/

section Results
variable {a b : BitVec 64} {neg : Bool} {r : Nat}

theorem fadd_of_some (h : addVal binary64 (floatVal binary64 a.toNat) (floatVal binary64 b.toNat) =
    some (withSign binary64 neg r)) : fadd a b = pattern64 neg r := by
  rw [fadd, faddIn, h]; rfl

theorem fsub_of_some (h : addVal binary64 (floatVal binary64 a.toNat) (floatVal binary64 b.toNat).neg =
    some (withSign binary64 neg r)) : fsub a b = pattern64 neg r := by
  rw [fsub, fsubIn, h]; rfl

theorem fmul_of_some (h : mulVal binary64 (floatVal binary64 a.toNat) (floatVal binary64 b.toNat) =
    some (withSign binary64 neg r)) : fmul a b = pattern64 neg r := by
  rw [fmul, fmulIn, h]; rfl

theorem fdiv_of_some (h : divVal binary64 (floatVal binary64 a.toNat) (floatVal binary64 b.toNat) =
    some (withSign binary64 neg r)) : fdiv a b = pattern64 neg r := by
  rw [fdiv, fdivIn, h]; rfl

/-- The free NaN fits in 64 bits, so it is still a NaN as a word. -/
theorem isNan_nanPattern (raw : Nat) : isNan binary64 (BitVec.ofNat 64 (nanPattern binary64 raw)).toNat = true := by
  have hlt : nanPattern binary64 raw < 2 ^ 64 := by
    have hfrac : binary64.fracField raw < 2 ^ 52 := Nat.mod_lt _ (by norm_num)
    have hweight : binary64.signWeight = 2 ^ 63 := rfl
    have hinf : binary64.infPattern = 0x7FF0000000000000 := rfl
    rw [nanPattern, withSign, hweight, hinf]
    split <;> split <;> omega
  rw [BitVec.toNat_ofNat, Nat.mod_eq_of_lt hlt]
  exact nanPattern_isNan binary64 (by decide) (by decide) raw

theorem isNan_fadd_of_none (h : addVal binary64 (floatVal binary64 a.toNat) (floatVal binary64 b.toNat) = none) :
    isNan binary64 (fadd a b).toNat = true := by
  rw [fadd, faddIn, h]; exact isNan_nanPattern _

theorem isNan_fsub_of_none (h : addVal binary64 (floatVal binary64 a.toNat) (floatVal binary64 b.toNat).neg = none) :
    isNan binary64 (fsub a b).toNat = true := by
  rw [fsub, fsubIn, h]; exact isNan_nanPattern _

theorem isNan_fmul_of_none (h : mulVal binary64 (floatVal binary64 a.toNat) (floatVal binary64 b.toNat) = none) :
    isNan binary64 (fmul a b).toNat = true := by
  rw [fmul, fmulIn, h]; exact isNan_nanPattern _

theorem isNan_fdiv_of_none (h : divVal binary64 (floatVal binary64 a.toNat) (floatVal binary64 b.toNat) = none) :
    isNan binary64 (fdiv a b).toNat = true := by
  rw [fdiv, fdivIn, h]; exact isNan_nanPattern _

end Results

/-! ### NaN operands -/

section NanOperands
variable {x y : FloatVal} (h : x = .nan ∨ y = .nan)
include h

theorem addVal_nan (f : FloatFmt) : addVal f x y = none := by
  obtain rfl | rfl := h
  · rfl
  · cases x <;> rfl

theorem mulVal_nan (f : FloatFmt) : mulVal f x y = none := by
  obtain rfl | rfl := h
  · rfl
  · cases x <;> rfl

theorem divVal_nan (f : FloatFmt) : divVal f x y = none := by
  obtain rfl | rfl := h
  · rfl
  · cases x <;> rfl

theorem leVal_nan : leVal x y = false := by
  obtain rfl | rfl := h
  · rfl
  · cases x <;> rfl

end NanOperands

/-- Settles O41: each operation on the values is `none` where an operand is a NaN, and then the pattern is the free
NaN. -/
theorem nanOperandsGiveNans : Obligations.NanOperandsGiveNans := by
  intro a b h
  have hval : floatVal binary64 a.toNat = .nan ∨ floatVal binary64 b.toNat = .nan := by
    simpa only [isNan, beq_iff_eq] using h
  have hneg : floatVal binary64 a.toNat = .nan ∨ (floatVal binary64 b.toNat).neg = .nan :=
    hval.imp_right fun hb => by rw [hb]; rfl
  exact ⟨isNan_fadd_of_none (addVal_nan hval _), isNan_fsub_of_none (addVal_nan hneg _),
    isNan_fmul_of_none (mulVal_nan hval _), isNan_fdiv_of_none (divVal_nan hval _), leVal_nan hval⟩

/-! ### Finite operands -/

theorem exactSum_value (s1 s2 : Bool) (m1 m2 : Nat) (e1 e2 : Int) :
    ((exactSum s1 m1 e1 s2 m2 e2).1 : ℚ) * 2 ^ (exactSum s1 m1 e1 s2 m2 e2).2 =
      signFactor s1 * (m1 * 2 ^ e1) + signFactor s2 * (m2 * 2 ^ e2) := by
  have hscale (m : Nat) {e' e : Int} (h : e' ≤ e) : ((m * 2 ^ (e - e').toNat : Nat) : ℚ) * 2 ^ e' = m * 2 ^ e := by
    rw [Nat.cast_mul, Nat.cast_pow, Nat.cast_ofNat, mul_assoc, ← zpow_natCast, ← zpow_add₀ two_ne_zero,
      Int.toNat_of_nonneg (sub_nonneg.2 h), sub_add_cancel]
  rw [exactSum, Int.cast_add, signedInt_cast, signedInt_cast, add_mul, mul_assoc, mul_assoc,
    hscale m1 (min_le_left e1 e2), hscale m2 (min_le_right e1 e2)]

theorem RoundedTo_le_inf {f : FloatFmt} {x : ℚ} {b : Nat} (h : RoundedTo f x b) : b ≤ f.infPattern := by
  rcases le_or_gt ((2 ^ (f.p + 2) - 1) * (2 : ℚ) ^ ((f.bias : Int) - f.p - 1)) x with hx | hx
  · exact (h.1 hx).le
  · exact (h.2 hx).1.le

/-- `r` is `x` correctly rounded, in magnitude, and in sign unless `x` is 0. -/
def Correct64 (x : ℚ) (r : BitVec 64) : Prop :=
  RoundedTo binary64 |x| (r.toNat % 2 ^ 63) ∧ (x ≠ 0 → r.toNat / 2 ^ 63 = if x < 0 then 1 else 0)

theorem Correct64.rounds64 {x : ℚ} {r : BitVec 64} (h : Correct64 x r) (hx : x ≠ 0) : Rounds64 x r :=
  ⟨h.2 hx, h.1⟩

theorem correct64_pattern64 (neg : Bool) {y : ℚ} (hy : 0 ≤ y) {b : Nat} (h : RoundedTo binary64 y b) :
    Correct64 (signFactor neg * y) (pattern64 neg b) := by
  have hb : b < 2 ^ 63 := (RoundedTo_le_inf h).trans_lt (by decide +kernel)
  refine ⟨?_, fun hx => ?_⟩
  · rwa [pattern64_mod _ hb, abs_signFactor_mul, abs_of_nonneg hy]
  · have hpos : 0 < y := lt_of_le_of_ne hy fun h0 => hx (by rw [← h0, mul_zero])
    rw [pattern64_div _ hb]
    cases neg <;> simp [signFactor, hpos, hpos.le]

theorem correct64_roundPattern (neg : Bool) (m : Nat) (e : Int) :
    Correct64 (signFactor neg * (m * 2 ^ e)) (pattern64 neg (roundPattern binary64 m e)) :=
  correct64_pattern64 neg (by positivity) (roundedTo_roundPattern binary64_proper m e)

/-- A sum of finite values: a zero by the rule of signs, else the exact sum rounded. -/
theorem addVal_finite (f : FloatFmt) (s1 s2 : Bool) (m1 m2 : Nat) (e1 e2 : Int) :
    addVal f (.finite s1 m1 e1) (.finite s2 m2 e2) =
      if (exactSum s1 m1 e1 s2 m2 e2).1 = 0 then some (withSign f (m1 == 0 && s1 && s2) 0)
      else some (withSign f (decide ((exactSum s1 m1 e1 s2 m2 e2).1 < 0))
        (roundPattern f (exactSum s1 m1 e1 s2 m2 e2).1.natAbs (exactSum s1 m1 e1 s2 m2 e2).2)) := rfl

theorem signFactor_mul_natAbs (z : Int) : signFactor (decide (z < 0)) * (z.natAbs : ℚ) = z := by
  rw [Nat.cast_natAbs, Int.cast_abs]
  rcases lt_or_ge z 0 with h | h
  · have hq : (z : ℚ) < 0 := by exact_mod_cast h
    simp [signFactor, h, abs_of_neg hq]
  · have hq : (0 : ℚ) ≤ z := by exact_mod_cast h
    simp [signFactor, h.not_gt, abs_of_nonneg hq]

/-- The answer to an exact sum, as a word, is correct. -/
theorem exists_correct64_addVal (s1 s2 : Bool) (m1 m2 : Nat) (e1 e2 : Int) :
    ∃ neg r, addVal binary64 (.finite s1 m1 e1) (.finite s2 m2 e2) = some (withSign binary64 neg r) ∧
      Correct64 (signFactor s1 * (m1 * 2 ^ e1) + signFactor s2 * (m2 * 2 ^ e2)) (pattern64 neg r) := by
  rw [addVal_finite, ← exactSum_value]
  generalize exactSum s1 m1 e1 s2 m2 e2 = sum
  obtain ⟨z, e⟩ := sum
  split
  case isTrue h =>
    refine ⟨_, 0, rfl, ?_⟩
    have hzero := correct64_roundPattern (m1 == 0 && s1 && s2) 0 0
    rw [show z = 0 from h, Int.cast_zero, zero_mul]
    rwa [Nat.cast_zero, zero_mul, mul_zero, show roundPattern binary64 0 0 = 0 from rfl] at hzero
  case isFalse h =>
    refine ⟨_, _, rfl, ?_⟩
    have hround := correct64_roundPattern (decide (z < 0)) z.natAbs e
    rwa [← mul_assoc, signFactor_mul_natAbs] at hround

theorem mulVal_finite (f : FloatFmt) (s1 s2 : Bool) (m1 m2 : Nat) (e1 e2 : Int) :
    mulVal f (.finite s1 m1 e1) (.finite s2 m2 e2) =
      some (withSign f (s1 != s2) (roundPattern f (m1 * m2) (e1 + e2))) := rfl

theorem divVal_finite (f : FloatFmt) (s1 s2 : Bool) (m1 : Nat) {m2 : Nat} (hm2 : m2 ≠ 0) (e1 e2 : Int) :
    divVal f (.finite s1 m1 e1) (.finite s2 m2 e2) =
      some (withSign f (s1 != s2) (roundPattern f (quotientWithSticky m1 m2 (f.p + 3 + Nat.log2 m2))
        (e1 - e2 - ((f.p + 3 + Nat.log2 m2 : Nat) : Int) - 1))) := by
  rw [divVal, if_neg hm2]

/-- The quotient with its sticky bit rounds as the exact quotient. -/
theorem roundsAs_quotientWithSticky (f : FloatFmt) {m1 m2 : Nat} (hm1 : m1 ≠ 0) (hm2 : m2 ≠ 0) :
    RoundsAs f (quotientWithSticky m1 m2 (f.p + 3 + Nat.log2 m2))
      (2 * (m1 * 2 ^ (f.p + 3 + Nat.log2 m2) / m2)) := by
  have hm2Q : (0 : ℚ) < m2 := by exact_mod_cast Nat.pos_of_ne_zero hm2
  have hbits : 2 ^ (f.p + 2) * m2 ≤ m1 * 2 ^ (f.p + 3 + Nat.log2 m2) := by
    calc 2 ^ (f.p + 2) * m2 ≤ 2 ^ (f.p + 2) * 2 ^ (Nat.log2 m2 + 1) :=
          Nat.mul_le_mul_left _ Nat.lt_log2_self.le
      _ = 1 * 2 ^ (f.p + 3 + Nat.log2 m2) := by rw [← pow_add, Nat.one_mul]; congr 1; omega
      _ ≤ _ := Nat.mul_le_mul_right _ (Nat.one_le_iff_ne_zero.2 hm1)
  generalize f.p + 3 + Nat.log2 m2 = k at *
  have hquot : 2 ^ (f.p + 2) ≤ m1 * 2 ^ k / m2 := (Nat.le_div_iff_mul_le (Nat.pos_of_ne_zero hm2)).2 hbits
  have hdiv := Nat.div_add_mod (m1 * 2 ^ k) m2
  have hmod := Nat.mod_lt (m1 * 2 ^ k) (Nat.pos_of_ne_zero hm2)
  rw [quotientWithSticky]
  have hcast : (m1 * 2 ^ k : ℚ) = m2 * ((m1 * 2 ^ k / m2 : Nat) : ℚ) + ((m1 * 2 ^ k % m2 : Nat) : ℚ) := by
    exact_mod_cast hdiv.symm
  rw [hcast, add_div, mul_div_cancel_left₀ _ hm2Q.ne']
  generalize m1 * 2 ^ k / m2 = n at *
  generalize m1 * 2 ^ k % m2 = rem at *
  split
  case isTrue h =>
    refine .inl ?_
    rw [h]
    push_cast
    ring
  case isFalse h =>
    have hrem : (0 : ℚ) < rem := by exact_mod_cast Nat.pos_of_ne_zero h
    have hfrac0 : 0 < (rem : ℚ) / m2 := div_pos hrem hm2Q
    have hfrac1 : (rem : ℚ) / m2 < 1 := (div_lt_one hm2Q).2 (by exact_mod_cast hmod)
    refine .inr ⟨(Nat.le_log2 (by omega)).2 (by omega), by omega, ?_, ?_⟩
    · push_cast
      linarith
    · push_cast
      linarith

section Finite
variable {a b : BitVec 64} (ha : Finite64 a) (hb : Finite64 b)
include ha hb

theorem fadd_correct : Correct64 (value64 a + value64 b) (fadd a b) := by
  obtain ⟨neg, r, hval, hcorrect⟩ :=
    exists_correct64_addVal a.msb b.msb (mant64 a) (mant64 b) (expo64 a) (expo64 b)
  rw [← floatVal_of_finite ha, ← floatVal_of_finite hb] at hval
  rwa [fadd_of_some hval, value64_eq, value64_eq]

theorem fsub_correct : Correct64 (value64 a - value64 b) (fsub a b) := by
  obtain ⟨neg, r, hval, hcorrect⟩ :=
    exists_correct64_addVal a.msb (!b.msb) (mant64 a) (mant64 b) (expo64 a) (expo64 b)
  rw [← floatVal_of_finite ha, show FloatVal.finite (!b.msb) (mant64 b) (expo64 b) = (floatVal binary64 b.toNat).neg by
    rw [floatVal_of_finite hb]; rfl] at hval
  rwa [fsub_of_some hval, value64_eq, value64_eq, sub_eq_add_neg, ← neg_mul, ← signFactor_not]

theorem fmul_eq : fmul a b =
    pattern64 (a.msb != b.msb) (roundPattern binary64 (mant64 a * mant64 b) (expo64 a + expo64 b)) :=
  fmul_of_some (by rw [floatVal_of_finite ha, floatVal_of_finite hb, mulVal_finite])

theorem fmul_correct : Correct64 (value64 a * value64 b) (fmul a b) := by
  have h := correct64_roundPattern (a.msb != b.msb) (mant64 a * mant64 b) (expo64 a + expo64 b)
  rw [fmul_eq ha hb]
  have hvalue : value64 a * value64 b =
      signFactor (a.msb != b.msb) * (((mant64 a * mant64 b : Nat) : ℚ) * 2 ^ (expo64 a + expo64 b)) := by
    rw [value64_eq, value64_eq, signFactor_bne, zpow_add₀ two_ne_zero]
    push_cast
    ring
  rwa [hvalue]

theorem fdiv_eq (hb0 : value64 b ≠ 0) : fdiv a b =
    pattern64 (a.msb != b.msb) (roundPattern binary64 (quotientWithSticky (mant64 a) (mant64 b)
      (binary64.p + 3 + Nat.log2 (mant64 b)))
      (expo64 a - expo64 b - ((binary64.p + 3 + Nat.log2 (mant64 b) : Nat) : Int) - 1)) :=
  fdiv_of_some (by
    rw [floatVal_of_finite ha, floatVal_of_finite hb, divVal_finite _ _ _ _ (mt (value64_eq_zero_iff b).2 hb0)])

theorem fdiv_correct (hb0 : value64 b ≠ 0) (ha0 : value64 a ≠ 0) :
    Correct64 (value64 a / value64 b) (fdiv a b) := by
  have hma : mant64 a ≠ 0 := mt (value64_eq_zero_iff a).2 ha0
  have hmb : mant64 b ≠ 0 := mt (value64_eq_zero_iff b).2 hb0
  have hround := roundedTo_roundPattern_of_roundsAs binary64_proper
    (expo64 a - expo64 b - ((binary64.p + 3 + Nat.log2 (mant64 b) : Nat) : Int) - 1)
    (roundsAs_quotientWithSticky binary64 hma hmb)
  have h := correct64_pattern64 (a.msb != b.msb) (by positivity) hround
  rw [fdiv_eq ha hb hb0]
  convert h using 1
  rw [value64_eq, value64_eq, signFactor_bne, zpow_sub₀ two_ne_zero, zpow_sub₀ two_ne_zero, zpow_sub₀ two_ne_zero,
    zpow_natCast]
  have hsign : signFactor b.msb * signFactor b.msb = 1 := by cases b.msb <;> norm_num [signFactor]
  have hsign0 := signFactor_ne_zero b.msb
  have hmbQ : (mant64 b : ℚ) ≠ 0 := by exact_mod_cast hmb
  field_simp
  linear_combination -signFactor a.msb * hsign

theorem fle_iff : fle a b = true ↔ value64 a ≤ value64 b := by
  have hpow : (0 : ℚ) < 2 ^ (exactSum a.msb (mant64 a) (expo64 a) (!b.msb) (mant64 b) (expo64 b)).2 := by positivity
  have hsum := exactSum_value a.msb (!b.msb) (mant64 a) (mant64 b) (expo64 a) (expo64 b)
  rw [signFactor_not, neg_mul, ← sub_eq_add_neg, ← value64_eq, ← value64_eq] at hsum
  rw [fle, floatVal_of_finite ha, floatVal_of_finite hb, leVal, decide_eq_true_iff, ← sub_nonpos (a := value64 a),
    ← hsum, ← not_lt, ← not_lt, mul_pos_iff_of_pos_right hpow, Int.cast_pos]

end Finite

/-- Settles O40: each operation answers the exact result rounded (`fadd_correct` to `fdiv_correct`), and the order test
is on the exact difference. -/
theorem floatOperationsRoundOnce : Obligations.FloatOperationsRoundOnce := fun _ _ ha hb =>
  ⟨(fadd_correct ha hb).rounds64, (fsub_correct ha hb).rounds64, (fmul_correct ha hb).rounds64,
    fun hb0 ha0 => (fdiv_correct ha hb hb0 ha0).rounds64 (div_ne_zero ha0 hb0), fle_iff ha hb⟩

/-! ### Zero results -/

theorem exactSum_eq_zero_iff (s1 s2 : Bool) (m1 m2 : Nat) (e1 e2 : Int) : (exactSum s1 m1 e1 s2 m2 e2).1 = 0 ↔
    signFactor s1 * (m1 * 2 ^ e1) + signFactor s2 * (m2 * 2 ^ e2) = 0 := by
  have hpow : (2 : ℚ) ^ (exactSum s1 m1 e1 s2 m2 e2).2 ≠ 0 := by positivity
  rw [← exactSum_value, mul_eq_zero, Int.cast_eq_zero, or_iff_left hpow]

section Zero
variable {a b : BitVec 64} (ha : Finite64 a) (hb : Finite64 b)
include ha hb

theorem fadd_of_zero (h : value64 a + value64 b = 0) :
    fadd a b = signedZero (mant64 a == 0 && a.msb && b.msb) := by
  rw [← pattern64_zero]
  refine fadd_of_some ?_
  rw [floatVal_of_finite ha, floatVal_of_finite hb, addVal_finite, if_pos]
  rwa [exactSum_eq_zero_iff, ← value64_eq, ← value64_eq]

theorem fsub_of_zero (h : value64 a - value64 b = 0) :
    fsub a b = signedZero (mant64 a == 0 && a.msb && !b.msb) := by
  rw [← pattern64_zero]
  refine fsub_of_some ?_
  rw [floatVal_of_finite ha, floatVal_of_finite hb, FloatVal.neg, addVal_finite, if_pos]
  rwa [exactSum_eq_zero_iff, signFactor_not, neg_mul, ← sub_eq_add_neg, ← value64_eq, ← value64_eq]

end Zero

theorem beq_signedZero (a : BitVec 64) (s : Bool) : (a == signedZero s) = (mant64 a == 0 && (a.msb == s)) := by
  rw [Bool.eq_iff_iff, beq_iff_eq, eq_signedZero_iff]
  simp [and_comm]

/-- Settles O58: a sum or difference of two numbers that is 0 has a zero significand on both sides or on neither; a
product or quotient of 0 rounds 0, under the operands' signs. -/
theorem floatZeroResults : Obligations.FloatZeroResults := by
  intro a b ha hb
  refine ⟨fun h => ?sum, fun h => ?difference, fun h => ?product, fun h hb0 => ?quotient⟩
  case sum =>
    have hm : mant64 a = 0 → mant64 b = 0 := by
      rw [← value64_eq_zero_iff, ← value64_eq_zero_iff]
      intro h0
      linarith
    rw [fadd_of_zero ha hb h, beq_signedZero, beq_signedZero]
    by_cases h0 : mant64 a = 0
    · simp [h0, hm h0]
    · have hne : (mant64 a == 0) = false := beq_eq_false_iff_ne.2 h0
      simp [hne]
  case difference =>
    have hm : mant64 a = 0 → mant64 b = 0 := by
      rw [← value64_eq_zero_iff, ← value64_eq_zero_iff]
      intro h0
      linarith
    rw [fsub_of_zero ha hb h, beq_signedZero, beq_signedZero]
    by_cases h0 : mant64 a = 0
    · simp [h0, hm h0]
    · have hne : (mant64 a == 0) = false := beq_eq_false_iff_ne.2 h0
      simp [hne]
  case product =>
    have hm : mant64 a * mant64 b = 0 := by
      rwa [mul_eq_zero, value64_eq_zero_iff, value64_eq_zero_iff, ← mul_eq_zero] at h
    rw [fmul_eq ha hb, hm, ← pattern64_zero]
    rfl
  case quotient =>
    have hm : mant64 a = 0 := (value64_eq_zero_iff a).1 h
    have hq (m k : Nat) : quotientWithSticky 0 m k = 0 := by simp [quotientWithSticky]
    rw [fdiv_eq ha hb hb0, hm, hq, ← pattern64_zero]
    rfl

/-! ### Infinite operands -/

theorem floatVal_signedInf (n : Bool) : floatVal binary64 (signedInf n).toNat = .infinite n := by
  cases n <;> decide +kernel

theorem finite64_signedZero (n : Bool) : Finite64 (signedZero n) := by
  cases n <;> simp [Finite64, signedZero]

section Infinite
variable {a b : BitVec 64} {m n : Bool}

/-! An infinite value on either side of each operation. -/

theorem fadd_eq_signedInf (h : addVal binary64 (floatVal binary64 a.toNat) (floatVal binary64 b.toNat) =
    some (withSign binary64 n binary64.infPattern)) : fadd a b = signedInf n :=
  (fadd_of_some h).trans (pattern64_inf n)

theorem fsub_eq_signedInf (h : addVal binary64 (floatVal binary64 a.toNat) (floatVal binary64 b.toNat).neg =
    some (withSign binary64 n binary64.infPattern)) : fsub a b = signedInf n :=
  (fsub_of_some h).trans (pattern64_inf n)

theorem fmul_eq_signedInf (h : mulVal binary64 (floatVal binary64 a.toNat) (floatVal binary64 b.toNat) =
    some (withSign binary64 n binary64.infPattern)) : fmul a b = signedInf n :=
  (fmul_of_some h).trans (pattern64_inf n)

theorem fdiv_eq_signedInf (h : divVal binary64 (floatVal binary64 a.toNat) (floatVal binary64 b.toNat) =
    some (withSign binary64 n binary64.infPattern)) : fdiv a b = signedInf n :=
  (fdiv_of_some h).trans (pattern64_inf n)

end Infinite

/-- Settles O59: the values of an infinity, of a finite pattern and of a zero pick the line of each operation. -/
theorem floatInfiniteOperands : Obligations.FloatInfiniteOperands := by
  intro m n a z ha hz
  have hinf := floatVal_signedInf
  have hfin := floatVal_of_finite ha
  have hzero : floatVal binary64 z.toNat = .finite z.msb 0 (expo64 z) := by
    obtain ⟨hzFinite, hzMant⟩ : Finite64 z ∧ mant64 z = 0 := by
      obtain rfl | rfl := hz
      · exact ⟨finite64_signedZero _, ((eq_signedZero_iff _ _).1 rfl).2⟩
      · exact ⟨finite64_signedZero _, ((eq_signedZero_iff _ _).1 rfl).2⟩
    rw [floatVal_of_finite hzFinite, hzMant]
  have hmant : value64 a ≠ 0 → mant64 a ≠ 0 := mt (value64_eq_zero_iff a).2
  refine ⟨⟨?_, ?_, ?_, ?_⟩, ⟨?_, ?_, ?_, ?_⟩, ⟨?_, fun h0 => ⟨?_, ?_⟩, ?_, ?_⟩,
    ⟨?_, ?_, fun h0 => ?_, fun h0 => ?_, ?_⟩, ?_, ?_, ?_⟩
  · exact fadd_eq_signedInf (by rw [hinf, hfin]; rfl)
  · exact fadd_eq_signedInf (by rw [hinf, hfin]; rfl)
  · exact fadd_eq_signedInf (by rw [hinf, addVal, if_pos rfl])
  · exact isNan_fadd_of_none (by rw [hinf, hinf, addVal, if_neg (by simp)])
  · exact fsub_eq_signedInf (by rw [hinf, hfin]; rfl)
  · exact fsub_eq_signedInf (by rw [hinf, hfin]; rfl)
  · exact fsub_eq_signedInf (by rw [hinf, hinf, FloatVal.neg, Bool.not_not, addVal, if_pos rfl])
  · exact isNan_fsub_of_none (by rw [hinf, FloatVal.neg, addVal, if_neg (by simp)])
  · exact fmul_eq_signedInf (by rw [hinf, hinf]; rfl)
  · exact fmul_eq_signedInf (by rw [hinf, hfin, mulVal, if_neg (hmant h0)])
  · exact fmul_eq_signedInf (by rw [hinf, hfin, mulVal, if_neg (hmant h0), bne_comm])
  · exact isNan_fmul_of_none (by rw [hinf, hzero]; rfl)
  · exact isNan_fmul_of_none (by rw [hinf, hzero]; rfl)
  · exact fdiv_eq_signedInf (by rw [hinf, hfin]; rfl)
  · exact (fdiv_of_some (by rw [hinf, hfin, divVal, bne_comm])).trans (pattern64_zero _)
  · exact fdiv_eq_signedInf (by rw [hzero, hfin, divVal, if_pos rfl, if_neg (hmant h0)])
  · exact isNan_fdiv_of_none (by rw [hzero, hfin, divVal, if_pos rfl, if_pos ((value64_eq_zero_iff a).1 h0)])
  · exact isNan_fdiv_of_none (by rw [hinf, hinf]; rfl)
  · rw [fle, hinf, hinf]; rfl
  · rw [fle, hinf, hfin]; rfl
  · rw [fle, hinf, hfin]; rfl

end Sys2Proof.Machine
end

section
/-! The conversion to floats: the two words and their sum each rounded (R166), and the round trip (R171). -/

namespace Sys2Proof.Machine
open Sys2Proof.Claims

/-! ### Rounding to a number of bits -/

theorem roundShift_mul_pow (a k i : Nat) : roundShift (a * 2 ^ (k + i)) k = a * 2 ^ i := by
  have hpos : 0 < 2 ^ k := by positivity
  rw [show a * 2 ^ (k + i) = 2 ^ k * (a * 2 ^ i) by ring, roundShift, Nat.mul_div_cancel_left _ hpos, Nat.mul_mod_right]
  simp only [Nat.mul_zero]
  rw [if_neg (by omega)]

theorem roundShift_zero (m : Nat) : roundShift m 0 = m := by
  simpa using roundShift_mul_pow m 0 0

theorem div_le_roundShift (m k : Nat) : m / 2 ^ k ≤ roundShift m k := by
  rw [roundShift]
  split <;> omega

/-- `roundBits` rounds as `roundShift` does, keeping the scale. -/
theorem roundBits_eq (prec n : Nat) :
    roundBits prec n = roundShift n (Nat.log2 n + 1 - prec) * 2 ^ (Nat.log2 n + 1 - prec) := by
  rw [roundBits, roundShift]
  congr 1
  generalize 2 ^ (Nat.log2 n + 1 - prec) = d
  split <;> split <;> omega

@[simp] theorem roundBits_zero (prec : Nat) : roundBits prec 0 = 0 := by
  rw [roundBits_eq, roundShift]
  simp

/-- A number of at most `prec` bits, at any scale, is kept. -/
theorem roundBits_of_lt {prec a : Nat} (ha : a < 2 ^ prec) (j : Nat) : roundBits prec (a * 2 ^ j) = a * 2 ^ j := by
  rcases Nat.eq_zero_or_pos a with rfl | hpos
  · rw [Nat.zero_mul, roundBits_zero]
  have hlog : Nat.log2 (a * 2 ^ j) < prec + j := by
    rw [Nat.log2_lt (by positivity), pow_add]
    exact Nat.mul_lt_mul_of_pos_right ha (by positivity)
  obtain ⟨i, hi⟩ := Nat.exists_eq_add_of_le (show Nat.log2 (a * 2 ^ j) + 1 - prec ≤ j by omega)
  rw [roundBits_eq]
  generalize Nat.log2 (a * 2 ^ j) + 1 - prec = k at *
  rw [hi, roundShift_mul_pow]
  ring

/-- What is rounded to `prec` bits has at most `prec` bits, at some scale. -/
theorem exists_roundBits_eq {prec : Nat} (hprec : 0 < prec) (n : Nat) :
    ∃ a j, roundBits prec n = a * 2 ^ j ∧ a < 2 ^ prec := by
  have hle : roundShift n (Nat.log2 n + 1 - prec) ≤ 2 ^ prec :=
    roundShift_le (Nat.lt_log2_self.trans_le (Nat.pow_le_pow_right (by omega) (by omega)))
  rw [roundBits_eq]
  rcases hle.lt_or_eq with h | h
  · exact ⟨_, _, rfl, h⟩
  · exact ⟨1, prec + (Nat.log2 n + 1 - prec), by rw [h, pow_add, Nat.one_mul], Nat.one_lt_two_pow hprec.ne'⟩

theorem roundBits_roundBits {prec : Nat} (hprec : 0 < prec) (n : Nat) :
    roundBits prec (roundBits prec n) = roundBits prec n := by
  obtain ⟨a, j, h, ha⟩ := exists_roundBits_eq hprec n
  rw [h, roundBits_of_lt ha]

theorem roundBits_le {prec n b : Nat} (hprec : 0 < prec) (h : n < 2 ^ b) : roundBits prec n ≤ 2 ^ b := by
  rcases Nat.eq_zero_or_pos n with rfl | hpos
  · rw [roundBits_zero]; positivity
  have hlog : Nat.log2 n < b := (Nat.log2_lt hpos.ne').2 h
  obtain ⟨i, hi⟩ := Nat.exists_eq_add_of_le' (show Nat.log2 n + 1 - prec ≤ b by omega)
  rw [roundBits_eq]
  generalize Nat.log2 n + 1 - prec = k at *
  subst hi
  rw [pow_add]
  exact Nat.mul_le_mul_right _ (roundShift_le h)

theorem roundBits_pos {prec n : Nat} (hprec : 0 < prec) (h : 0 < n) : 0 < roundBits prec n := by
  have hle : 2 ^ (Nat.log2 n + 1 - prec) ≤ n :=
    (Nat.pow_le_pow_right (by omega) (by omega)).trans (Nat.log2_self_le h.ne')
  rw [roundBits_eq]
  exact Nat.mul_pos ((Nat.div_pos hle (by positivity)).trans_le (div_le_roundShift _ _)) (by positivity)

/-! ### Patterns that represent a value -/

/-- The finite non-negative pattern `b` has the value `x`. -/
def Represents (f : FloatFmt) (b : Nat) (x : ℚ) : Prop := b < f.infPattern ∧ patternValue f b = x

theorem Represents.unique {f : FloatFmt} (hf : f.Proper) {b c : Nat} {x : ℚ} (hb : Represents f b x)
    (hc : Represents f c x) : b = c := by
  obtain ⟨hblt, hbx⟩ := hb
  obtain ⟨hclt, hcx⟩ := hc
  refine le_antisymm (not_lt.1 fun h => ?_) (not_lt.1 fun h => ?_)
  · exact absurd ((patternValue_lt_iff hf hclt hblt).2 h) (by rw [hbx, hcx]; exact lt_irrefl x)
  · exact absurd ((patternValue_lt_iff hf hblt hclt).2 h) (by rw [hbx, hcx]; exact lt_irrefl x)

/-- A normal number rounds to `p + 1` bits. -/
theorem represents_roundPattern {f : FloatFmt} (hf : f.Proper) (n : Nat) {e : Int} (he : f.eMin + f.p ≤ e)
    (hfinite : (roundBits (f.p + 1) n : ℚ) * 2 ^ e < 2 ^ ((f.bias : Int) + 1)) :
    Represents f (roundPattern f n e) (roundBits (f.p + 1) n * 2 ^ e) := by
  have hinf := FloatFmt.infPattern_even hf
  have hunit : (0 : ℚ) < 2 ^ f.eMin := by positivity
  rcases Nat.eq_zero_or_pos n with rfl | hpos
  · rw [show roundPattern f 0 e = 0 from if_pos rfl, roundBits_zero, Nat.cast_zero, zero_mul]
    refine ⟨hinf.2, ?_⟩
    rw [patternValue_eq_places hf hinf.2]
    simp [FloatFmt.places]
  obtain ⟨k, hk, -, -⟩ := exists_lastPlace f n e
  have hlog : e + (Nat.log2 n : Int) = f.eMin + k + f.p := by omega
  obtain ⟨r, hr, hplaces⟩ : ∃ r, roundPattern f n e = min r f.infPattern ∧
      (f.places r : ℚ) * 2 ^ f.eMin = roundBits (f.p + 1) n * 2 ^ e := by
    have hn : 2 ^ Nat.log2 n ≤ n := Nat.log2_self_le hpos.ne'
    have hn' : n < 2 ^ (Nat.log2 n + 1) := Nat.lt_log2_self
    rcases le_or_gt (Nat.log2 n) f.p with hle | hgt
    · obtain ⟨d, hd⟩ := Nat.exists_eq_add_of_le hle
      refine ⟨_, roundPattern_exact hpos.ne' hk (d := d) (by omega), ?_⟩
      have hsig : 2 ^ f.p ≤ n * 2 ^ d := by
        rw [hd, pow_add]
        exact Nat.mul_le_mul_right _ hn
      have hsig' : n * 2 ^ d < 2 ^ (f.p + 1) := by
        rw [hd, show Nat.log2 n + d + 1 = Nat.log2 n + 1 + d by omega, pow_add]
        exact Nat.mul_lt_mul_of_pos_right hn' (by positivity)
      rw [f.places_place hsig'.le (.inr hsig), roundBits_eq, show Nat.log2 n + 1 - (f.p + 1) = 0 by omega,
        roundShift_zero, show e = (d : Int) + k + f.eMin by omega, zpow_add₀ two_ne_zero, zpow_add₀ two_ne_zero,
        zpow_natCast, zpow_natCast]
      push_cast
      ring
    · obtain ⟨j, hj⟩ := Nat.exists_eq_add_of_le hgt.le
      refine ⟨_, roundPattern_shift hpos.ne' hk (j := j) (by omega) (by omega), ?_⟩
      have hsig : 2 ^ f.p ≤ roundShift n j := by
        refine le_trans ((Nat.le_div_iff_mul_le (by positivity)).2 ?_) (div_le_roundShift n j)
        rwa [← pow_add, ← hj]
      have hsig' : roundShift n j ≤ 2 ^ (f.p + 1) :=
        roundShift_le (by rwa [show f.p + 1 + j = Nat.log2 n + 1 by omega])
      rw [f.places_place hsig' (.inr hsig), roundBits_eq, show Nat.log2 n + 1 - (f.p + 1) = j by omega]
      have hscale : (2 : ℚ) ^ k * 2 ^ f.eMin = 2 ^ j * 2 ^ e := by
        rw [← zpow_natCast, ← zpow_natCast, ← zpow_add₀ two_ne_zero, ← zpow_add₀ two_ne_zero]
        congr 1
        omega
      push_cast
      rw [mul_assoc, hscale, mul_assoc]
  have hlt : r < f.infPattern := by
    rw [← hplaces, ← FloatFmt.places_infPattern hf, mul_lt_mul_iff_left₀ hunit, Nat.cast_lt] at hfinite
    exact f.places_strictMono.lt_iff_lt.1 hfinite
  rw [hr, min_eq_left hlt.le]
  exact ⟨hlt, (patternValue_eq_places hf hlt).trans hplaces⟩

@[simp] theorem withSign_false (f : FloatFmt) (b : Nat) : withSign f false b = b := rfl

theorem FloatFmt.infPattern_le (f : FloatFmt) : f.infPattern ≤ f.signWeight := by
  rw [FloatFmt.infPattern, FloatFmt.signWeight, pow_add]
  exact Nat.mul_le_mul_right _ (Nat.sub_le _ 1)

theorem expField_lt_top {f : FloatFmt} {b : Nat} (hb : b < f.infPattern) : b / 2 ^ f.p < 2 ^ f.w - 1 :=
  Nat.div_lt_of_lt_mul (by rwa [Nat.mul_comm, ← FloatFmt.infPattern])

/-- The fields of a pattern under a sign bit. -/
theorem withSign_fields {f : FloatFmt} (s : Bool) {b : Nat} (hb : b < f.signWeight) :
    withSign f s b % 2 ^ f.p = b % 2 ^ f.p ∧ withSign f s b / 2 ^ f.p % 2 ^ f.w = b / 2 ^ f.p ∧
    withSign f s b / 2 ^ (f.p + f.w) = if s then 1 else 0 := by
  rw [FloatFmt.signWeight, Nat.add_comm, pow_add] at hb
  have hlt : b / 2 ^ f.p < 2 ^ f.w := Nat.div_lt_of_lt_mul hb
  have hmod : b % 2 ^ f.p < 2 ^ f.p := Nat.mod_lt _ (by positivity)
  have hbits : withSign f s b =
      (if s then 1 else 0) * 2 ^ (f.w + f.p) + b / 2 ^ f.p * 2 ^ f.p + b % 2 ^ f.p := by
    rw [Nat.add_assoc, Nat.div_add_mod', withSign, FloatFmt.signWeight]
    cases s <;> simp
  refine ⟨?_, ?_, ?_⟩
  · rw [hbits]
    exact fracField_parts f _ _ _ hmod
  · rw [hbits]
    exact expField_parts f _ _ _ hlt hmod
  · rw [← pow_add] at hb
    rw [withSign, FloatFmt.signWeight, Nat.add_comm f.w]
    cases s
    · simp [Nat.div_eq_of_lt hb]
    · simp [Nat.add_div_left, Nat.div_eq_of_lt hb]

theorem significand_withSign {f : FloatFmt} (s : Bool) {b : Nat} (hb : b < f.signWeight) :
    significand f.p f.w (withSign f s b) = significand f.p f.w b := by
  obtain ⟨hfrac, hexp, -⟩ := withSign_fields s hb
  have hlt : b / 2 ^ f.p < 2 ^ f.w := Nat.div_lt_of_lt_mul (by rwa [← pow_add, Nat.add_comm, ← FloatFmt.signWeight])
  rw [significand, significand, hfrac, hexp, Nat.mod_eq_of_lt hlt]

/-- The value of a finite pattern under a sign bit. -/
theorem floatVal_withSign {f : FloatFmt} (s : Bool) {b : Nat} (hb : b < f.infPattern) :
    floatVal f (withSign f s b) = .finite s (significand f.p f.w b).1 (significand f.p f.w b).2 := by
  have hb' := hb.trans_le f.infPattern_le
  obtain ⟨-, hexp, hsign⟩ := withSign_fields s hb'
  have hsign' : f.signBit (withSign f s b) = s := by
    rw [FloatFmt.signBit, hsign]
    cases s <;> rfl
  have htop := expField_lt_top hb
  rw [floatVal, if_neg (by rw [FloatFmt.expField, hexp]; omega), decomp_eq, significand_withSign s hb', hsign']

section Represents
variable {f : FloatFmt} (hp : 0 < f.p) {b c : Nat} {x y : ℚ} (hb : Represents f b x) (hc : Represents f c y)
include hp hb hc

/-- A product of represented values, under a sign, is the exact product rounded. -/
theorem fmulIn_of_represents (s : Bool) {n : Nat} {e : Int} (h : x * y = n * 2 ^ e) :
    fmulIn f (withSign f s b) c = withSign f s (roundPattern f n e) := by
  have hval : fmulIn f (withSign f s b) (withSign f false c) = withSign f (s != false) (roundPattern f
      ((significand f.p f.w b).1 * (significand f.p f.w c).1)
      ((significand f.p f.w b).2 + (significand f.p f.w c).2)) := by
    rw [fmulIn, floatVal_withSign s hb.1, floatVal_withSign false hc.1, mulVal_finite]
    rfl
  rw [withSign_false, Bool.bne_false] at hval
  rw [hval]
  congr 1
  refine roundPattern_congr hp ?_
  rw [← h, ← hb.2, ← hc.2, patternValue, patternValue, zpow_add₀ two_ne_zero]
  push_cast
  ring

/-- A sum of represented values is the exact sum rounded. -/
theorem faddIn_of_represents {n : Nat} {e : Int} (h : x + y = n * 2 ^ e) : faddIn f b c = roundPattern f n e := by
  have hb' := floatVal_withSign false hb.1
  have hc' := floatVal_withSign false hc.1
  rw [withSign_false] at hb' hc'
  have hsum := exactSum_value false false (significand f.p f.w b).1 (significand f.p f.w c).1
    (significand f.p f.w b).2 (significand f.p f.w c).2
  rw [show signFactor false = 1 from rfl, one_mul, one_mul, ← patternValue, ← patternValue, hb.2, hc.2, h] at hsum
  rw [faddIn, hb', hc', addVal_finite]
  generalize exactSum false (significand f.p f.w b).1 (significand f.p f.w b).2 false (significand f.p f.w c).1
    (significand f.p f.w c).2 = sum at *
  obtain ⟨z, e'⟩ := sum
  have hpow : (0 : ℚ) < 2 ^ e := by positivity
  have hpow' : (0 : ℚ) < 2 ^ e' := by positivity
  have hz : 0 ≤ z := by
    have hnonneg : (0 : ℚ) ≤ z * 2 ^ e' := hsum ▸ by positivity
    exact_mod_cast nonneg_of_mul_nonneg_left hnonneg hpow'
  obtain ⟨m, rfl⟩ := Int.eq_ofNat_of_zero_le hz
  simp only [Int.cast_natCast] at hsum
  rcases Nat.eq_zero_or_pos m with rfl | hm
  · obtain rfl : n = 0 := by
      rw [Nat.cast_zero, zero_mul, eq_comm, mul_eq_zero, or_iff_left hpow.ne'] at hsum
      exact_mod_cast hsum
    simp [withSign, roundPattern]
  · rw [if_neg (Int.natCast_ne_zero.2 hm.ne'), Option.getD_some, decide_eq_false (not_lt.2 hz)]
    exact roundPattern_congr hp hsum

end Represents

/-! ### The two formats of the conversions -/

/-- A format wide enough for every step of the conversions: binary64 and binary32 are. -/
def FloatFmt.Wide (f : FloatFmt) : Prop := f.Proper ∧ 127 ≤ f.bias

theorem binary64_wide : binary64.Wide := ⟨binary64_proper, by decide⟩

theorem binary32_wide : binary32.Wide := ⟨binary32_proper, by decide⟩

section Wide
variable {f : FloatFmt} (hf : f.Wide)
include hf

/-- In the range of the conversions a rounded number is normal and finite. -/
theorem represents_of_wide (n : Nat) {e : Int} (he : -120 ≤ e) {b : Nat} (hn : roundBits (f.p + 1) n ≤ 2 ^ b)
    (hb : (b : Int) + e ≤ 64) :
    Represents f (roundPattern f n e) (roundBits (f.p + 1) n * 2 ^ e) := by
  obtain ⟨hproper, hbias⟩ := hf
  refine represents_roundPattern hproper n (by rw [FloatFmt.eMin]; omega) ?_
  have hnQ : (roundBits (f.p + 1) n : ℚ) ≤ 2 ^ b := by exact_mod_cast hn
  calc (roundBits (f.p + 1) n : ℚ) * 2 ^ e ≤ 2 ^ b * 2 ^ e := mul_le_mul_of_nonneg_right hnQ (by positivity)
    _ = 2 ^ ((b : Int) + e) := by rw [← zpow_natCast, ← zpow_add₀ two_ne_zero]
    _ < 2 ^ ((f.bias : Int) + 1) := zpow_lt_zpow_right₀ one_lt_two (by omega)

theorem represents_pow2Pattern {k : Int} (hk : -120 ≤ k) (hk' : k ≤ 0) : Represents f (pow2Pattern f k) (2 ^ k) := by
  obtain ⟨hproper, hbias⟩ := hf
  obtain ⟨n, hn, htop⟩ := FloatFmt.two_le_top hproper
  obtain ⟨j, hj⟩ : ∃ j : Nat, (f.bias : Int) + k = j + 1 := ⟨((f.bias : Int) + k - 1).toNat, by omega⟩
  have hpattern : pow2Pattern f k = j * 2 ^ f.p + 2 ^ f.p := by
    rw [pow2Pattern, hj, show ((j : Int) + 1).toNat = j + 1 by omega]
    ring
  have hlt : pow2Pattern f k < f.infPattern := by
    rw [pow2Pattern, FloatFmt.infPattern, hj, show ((j : Int) + 1).toNat = j + 1 by omega]
    exact Nat.mul_lt_mul_of_pos_right (by omega) (by positivity)
  refine ⟨hlt, ?_⟩
  rw [patternValue_eq_places hproper hlt, hpattern,
    f.places_place (Nat.pow_le_pow_right (by omega) (by omega)) (.inr le_rfl), ← pow_add, Nat.cast_pow, Nat.cast_ofNat,
    ← zpow_natCast, ← zpow_add₀ two_ne_zero, FloatFmt.eMin]
  congr 1
  push_cast
  omega

/-- One word converted and scaled is the word rounded, at its place in the fixed-point value. -/
theorem represents_word {n : Nat} (hn : n < 2 ^ 64) {k : Int} (hk : -120 ≤ k) (hk' : k ≤ 0) :
    Represents f (fmulIn f (u2fIn f n) (pow2Pattern f k)) (roundBits (f.p + 1) n * 2 ^ k) := by
  have hle : roundBits (f.p + 1) n ≤ 2 ^ 64 := roundBits_le (Nat.succ_pos _) hn
  have hword := represents_of_wide hf n (e := 0) (by omega) hle (by omega)
  rw [zpow_zero, mul_one] at hword
  have hidem := roundBits_roundBits (Nat.succ_pos f.p) n
  have hscaled := represents_of_wide hf (roundBits (f.p + 1) n) hk (hidem.le.trans hle) (by omega)
  rw [hidem] at hscaled
  have heq := fmulIn_of_represents hf.1.1 hword (represents_pow2Pattern hf hk hk') false (n := roundBits (f.p + 1) n)
    (e := k) rfl
  rw [withSign_false, withSign_false] at heq
  rwa [u2fIn, heq]

omit hf in
theorem threeRoundings_le {prec : Nat} (hprec : 0 < prec) (a : Q) : threeRoundings prec a ≤ 2 ^ 129 := by
  have hhigh : roundBits prec a.high.toNat ≤ 2 ^ 64 := roundBits_le hprec a.high.isLt
  have hlow : roundBits prec a.low.toNat ≤ 2 ^ 64 := roundBits_le hprec a.low.isLt
  exact roundBits_le hprec (by omega)

/-- The two words added: the three roundings of R166, before the sign. -/
theorem represents_words (a : Q) :
    Represents f (faddIn f (fmulIn f (u2fIn f a.high.toNat) (pow2Pattern f (-56)))
      (fmulIn f (u2fIn f a.low.toNat) (pow2Pattern f (-120)))) (threeRoundings (f.p + 1) a * 2 ^ (-120 : Int)) := by
  have hhigh := represents_word hf a.high.isLt (k := -56) (by omega) (by omega)
  have hlow := represents_word hf a.low.isLt (k := -120) (by omega) (by omega)
  rw [faddIn_of_represents hf.1.1 hhigh hlow
    (n := roundBits (f.p + 1) a.high.toNat * 2 ^ 64 + roundBits (f.p + 1) a.low.toNat) (e := -120) ?_]
  · exact represents_of_wide hf _ (by omega) (threeRoundings_le (Nat.succ_pos _) a) (by omega)
  · push_cast
    rw [show (2 : ℚ) ^ (-56 : Int) = 2 ^ 64 * 2 ^ (-120 : Int) by norm_num]
    ring

theorem represents_zero : Represents f 0 0 := by
  have hinf := (FloatFmt.infPattern_even hf.1).2
  refine ⟨hinf, ?_⟩
  rw [patternValue_eq_places hf.1 hinf]
  simp [FloatFmt.places]

omit hf in
theorem threeRoundings_eq_zero_iff {prec : Nat} (hprec : 0 < prec) (a : Q) : threeRoundings prec a = 0 ↔ a.mag = 0 := by
  rw [Q.mag, threeRoundings]
  constructor
  · intro h
    by_contra hne
    rcases Nat.eq_zero_or_pos a.high.toNat with h0 | hpos
    · have := roundBits_pos hprec (roundBits_pos hprec (show 0 < a.low.toNat by omega))
      rw [h0, roundBits_zero, Nat.zero_mul, Nat.zero_add] at h
      omega
    · have := roundBits_pos hprec hpos
      have := roundBits_pos hprec
        (show 0 < roundBits prec a.high.toNat * 2 ^ 64 + roundBits prec a.low.toNat by omega)
      omega
  · intro h
    rw [show a.high.toNat = 0 by omega, show a.low.toNat = 0 by omega]
    simp

/-- The pattern of a canonical value: its three times rounded magnitude, under its sign. -/
theorem qtof_eq {a : Q} (ha : a.canonical = true) :
    qtof f a = withSign f (decide (a.sign = .negative)) (roundPattern f (threeRoundings (f.p + 1) a) (-120)) := by
  have hwords := represents_words hf a
  have hone := represents_pow2Pattern hf (k := 0) (by omega) le_rfl
  rw [qtof]
  cases hsign : a.sign with
  | negative => exact fmulIn_of_represents hf.1.1 hone hwords true (by rw [zpow_zero, one_mul])
  | positive => exact fmulIn_of_represents hf.1.1 hone hwords false (by rw [zpow_zero, one_mul])
  | neutral =>
    have hzero : threeRoundings (f.p + 1) a = 0 :=
      (threeRoundings_eq_zero_iff (Nat.succ_pos _) a).2 (((Q.canonical_iff a).1 ha).2 hsign)
    rw [hzero] at hwords ⊢
    exact fmulIn_of_represents hf.1.1 (represents_zero hf) hwords false (by simp)

theorem represents_qtof (a : Q) : Represents f (roundPattern f (threeRoundings (f.p + 1) a) (-120))
    (threeRoundings (f.p + 1) a * 2 ^ (-120 : Int)) := by
  have hidem : roundBits (f.p + 1) (threeRoundings (f.p + 1) a) = threeRoundings (f.p + 1) a :=
    roundBits_roundBits (Nat.succ_pos _) _
  have h := represents_of_wide hf (threeRoundings (f.p + 1) a) (e := -120) (by omega)
    (hidem.le.trans (threeRoundings_le (Nat.succ_pos _) a)) (by omega)
  rwa [hidem] at h

/-- A number of units other than 0 is a normal number: subnormals lie below the grid. -/
theorem expField_pos_of_represents {b units : Nat} (h : Represents f b (units * 2 ^ (-120 : Int))) (h0 : units ≠ 0) :
    0 < b / 2 ^ f.p := by
  obtain ⟨hlt, hvalue⟩ := h
  obtain ⟨hproper, hbias⟩ := hf
  refine Nat.pos_of_ne_zero fun hsub => ?_
  have hunits : (1 : ℚ) ≤ units := by exact_mod_cast Nat.one_le_iff_ne_zero.2 h0
  have hsmall : (f.places b : ℚ) < 2 ^ f.p := by
    rw [FloatFmt.places, if_pos hsub]
    exact_mod_cast (Nat.div_eq_zero_iff_lt (by positivity)).1 hsub
  have hlow : (units : ℚ) * 2 ^ (-120 : Int) < 2 ^ (-120 : Int) := by
    calc (units : ℚ) * 2 ^ (-120 : Int) = f.places b * 2 ^ f.eMin := by
          rw [← hvalue, patternValue_eq_places hproper hlt]
      _ < 2 ^ f.p * 2 ^ f.eMin := mul_lt_mul_of_pos_right hsmall (by positivity)
      _ = 2 ^ ((f.p : Int) + f.eMin) := by rw [← zpow_natCast, ← zpow_add₀ two_ne_zero]
      _ ≤ 2 ^ (-120 : Int) := zpow_le_zpow_right₀ one_le_two (by rw [FloatFmt.eMin]; omega)
  exact absurd ((mul_lt_iff_lt_one_left (by positivity)).1 hlow) (not_lt.2 hunits)

/-- The significand of a represented number of units, in the units of `PatternIsUnits`. -/
theorem mantissa_of_represents {b units : Nat} (h : Represents f b (units * 2 ^ (-120 : Int))) (h0 : units ≠ 0) :
    (b % 2 ^ f.p + 2 ^ f.p) * 2 ^ (b / 2 ^ f.p) = units * 2 ^ (f.bias + f.p - 120) := by
  have hpos := expField_pos_of_represents hf h h0
  obtain ⟨hlt, hvalue⟩ := h
  obtain ⟨-, hbias⟩ := hf
  rw [patternValue, significand, Nat.mod_eq_of_lt ((expField_lt_top hlt).trans_le (Nat.sub_le _ 1)), if_neg hpos.ne',
    ← FloatFmt.bias_cast] at hvalue
  have hexp : (2 : ℚ) ^ (b / 2 ^ f.p) =
      2 ^ (((b / 2 ^ f.p : Nat) : Int) - f.bias - f.p) * 2 ^ (f.bias + f.p) := by
    rw [← zpow_natCast, ← zpow_natCast, ← zpow_add₀ two_ne_zero]
    congr 1
    push_cast
    ring
  have hgrid : (2 : ℚ) ^ (f.bias + f.p - 120) = 2 ^ (-120 : Int) * 2 ^ (f.bias + f.p) := by
    rw [← zpow_natCast, ← zpow_natCast, ← zpow_add₀ two_ne_zero]
    congr 1
    omega
  have hscale : ((b % 2 ^ f.p + 2 ^ f.p : Nat) : ℚ) * 2 ^ (b / 2 ^ f.p) = units * 2 ^ (f.bias + f.p - 120) := by
    rw [hexp, hgrid, ← mul_assoc, ← mul_assoc, ← hvalue]
  exact_mod_cast hscale

/-- A represented number of units is `+0` or a normal number, spelled out by its fields. -/
theorem patternIsUnits_withSign {neg : Bool} {b units : Nat} (h : Represents f b (units * 2 ^ (-120 : Int)))
    (hneg : neg = true → units ≠ 0) : PatternIsUnits f.p f.w (withSign f neg b) neg units := by
  obtain ⟨hfrac, hexp, hsign⟩ := withSign_fields neg (h.1.trans_le f.infPattern_le)
  rw [PatternIsUnits, hfrac, hexp, hsign]
  split
  case isTrue h0 =>
    obtain rfl : neg = false := Bool.eq_false_iff.2 fun hn => hneg hn h0
    rw [h0, Nat.cast_zero, zero_mul] at h
    exact h.unique hf.1 (represents_zero hf)
  case isFalse h0 =>
    exact ⟨rfl, expField_pos_of_represents hf h h0, expField_lt_top h.1, mantissa_of_represents hf h h0⟩

end Wide

/-- A pattern under a sign bit fits in the format's word. -/
theorem withSign_lt {f : FloatFmt} (s : Bool) {b : Nat} (hb : b < f.infPattern) :
    withSign f s b < 2 ^ (f.p + f.w + 1) := by
  obtain ⟨-, -, hsign⟩ := withSign_fields s (hb.trans_le f.infPattern_le)
  have hpos : 0 < 2 ^ (f.p + f.w) := by positivity
  have hdiv := Nat.div_add_mod (withSign f s b) (2 ^ (f.p + f.w))
  have hmod := Nat.mod_lt (withSign f s b) hpos
  rw [hsign] at hdiv
  rw [pow_succ]
  cases s <;> simp only [Bool.false_eq_true, if_false, if_true] at hdiv <;> omega

/-- What the conversion of a canonical value answers, by its fields. -/
theorem patternIsUnits_qtof {f : FloatFmt} (hf : f.Wide) {a : Q} (ha : a.canonical = true) :
    PatternIsUnits f.p f.w (qtof f a) (decide (a.sign = .negative)) (threeRoundings (f.p + 1) a) := by
  rw [qtof_eq hf ha]
  refine patternIsUnits_withSign hf (represents_qtof hf a) fun hneg => ?_
  rw [ne_eq, threeRoundings_eq_zero_iff (Nat.succ_pos _), (Q.canonical_iff a).1 ha, of_decide_eq_true hneg]
  decide

theorem qtof64_toNat {a : Q} (ha : a.canonical = true) : (qtof64 a).toNat = qtof binary64 a := by
  rw [qtof64, BitVec.toNat_ofNat, Nat.mod_eq_of_lt]
  rw [qtof_eq binary64_wide ha]
  exact withSign_lt _ (represents_qtof binary64_wide a).1

theorem qtof32_toNat {a : Q} (ha : a.canonical = true) : (qtof32 a).toNat = qtof binary32 a := by
  rw [qtof32, BitVec.toNat_ofNat, Nat.mod_eq_of_lt]
  rw [qtof_eq binary32_wide ha]
  exact withSign_lt _ (represents_qtof binary32_wide a).1

/-- Settles O36: both commands answer `qtof` of the source, whose fields are those of the three times rounded value
(`patternIsUnits_qtof`). -/
theorem fixedToFloatRoundsThreeTimes : Obligations.FixedToFloatRoundsThreeTimes := by
  intro s ra hs
  have ha := hs.readQ ra
  obtain ⟨t, hcompletes, hframe⟩ := completes_of_answer (i := .qtof64 ra) (s := s) rfl
  obtain ⟨t', hcompletes', hframe'⟩ := completes_of_answer (i := .qtof32 ra) (s := s) rfl
  refine ⟨⟨t, _, hcompletes, hframe, ?_⟩, ⟨t', _, hcompletes', hframe', ?_⟩⟩
  · rw [qtof64_toNat ha]
    exact patternIsUnits_qtof binary64_wide ha
  · rw [qtof32_toNat ha]
    exact patternIsUnits_qtof binary32_wide ha

end Sys2Proof.Machine
end

section
/-! The round trip of a float that lies on the fixed-point grid (R171). -/

namespace Sys2Proof.Machine
open Sys2Proof.Claims

/-- An exact scaling loses nothing to the floor. -/
theorem floorScale_of_exact {m u : Nat} {k : Int} (h : (m : ℚ) * 2 ^ k = u) : floorScale m k = u := by
  rcases le_or_gt 0 k with hk | hk
  · obtain ⟨n, rfl⟩ := Int.eq_ofNat_of_zero_le hk
    rw [zpow_natCast] at h
    rw [floorScale_natCast]
    exact_mod_cast h
  · obtain ⟨n, rfl⟩ : ∃ n : Nat, k = -n := ⟨k.natAbs, by omega⟩
    have hm : m = u * 2 ^ n := by
      rw [zpow_neg, zpow_natCast, ← div_eq_mul_inv, div_eq_iff (by positivity)] at h
      exact_mod_cast h
    rw [floorScale_neg_natCast, hm, Nat.mul_div_cancel _ (by positivity)]

/-- An integer that is a scaled significand of `prec` bits is one at a non-negative scale. -/
theorem exists_scale_of_exact {m u prec : Nat} {k : Int} (hm : m < 2 ^ prec) (h : (m : ℚ) * 2 ^ k = u) :
    ∃ n j, u = n * 2 ^ j ∧ n < 2 ^ prec := by
  have hfloor := floorScale_of_exact h
  rw [floorScale] at hfloor
  split at hfloor
  · exact ⟨m, _, hfloor.symm, hm⟩
  · exact ⟨u, 0, by rw [pow_zero, Nat.mul_one], hfloor ▸ (Nat.div_le_self _ _).trans_lt hm⟩

/-- Both words of a magnitude of at most `prec` bits have at most `prec` bits, so no rounding changes them. -/
theorem threeRoundings_of_exact {prec : Nat} {a : Q} {n j : Nat} (hn : n < 2 ^ prec) (hmag : a.mag = n * 2 ^ j) :
    threeRoundings prec a = a.mag := by
  have hhigh : a.high.toNat = a.mag / 2 ^ 64 := by
    have := a.low.isLt
    rw [Q.mag]; omega
  have hlow : a.low.toNat = a.mag % 2 ^ 64 := by
    have := a.low.isLt
    rw [Q.mag]; omega
  have hwords : roundBits prec a.high.toNat = a.high.toNat ∧ roundBits prec a.low.toNat = a.low.toNat := by
    rw [hhigh, hlow, hmag]
    rcases lt_or_ge j 64 with hj | hj
    · obtain ⟨i, hi⟩ := Nat.exists_eq_add_of_lt hj
      have hpow : 2 ^ 64 = 2 ^ j * 2 ^ (i + 1) := by rw [← pow_add]; congr 1
      rw [hpow, Nat.mul_comm n, Nat.mul_div_mul_left _ _ (by positivity), Nat.mul_mod_mul_left]
      constructor
      · simpa using roundBits_of_lt ((Nat.div_le_self n (2 ^ (i + 1))).trans_lt hn) 0
      · rw [Nat.mul_comm]
        exact roundBits_of_lt ((Nat.mod_le n _).trans_lt hn) j
    · obtain ⟨i, rfl⟩ := Nat.exists_eq_add_of_le hj
      rw [show n * 2 ^ (64 + i) = 2 ^ 64 * (n * 2 ^ i) by ring, Nat.mul_div_cancel_left _ (by positivity),
        Nat.mul_mod_right]
      exact ⟨roundBits_of_lt hn i, roundBits_zero prec⟩
  rw [threeRoundings, hwords.1, hwords.2, ← Q.mag, hmag, roundBits_of_lt hn]

/-- Every pattern is its other bits under its sign bit. -/
theorem exists_withSign {f : FloatFmt} {bits : Nat} (h : bits < 2 ^ (f.p + f.w + 1)) :
    ∃ b < f.signWeight, bits = withSign f (f.signBit bits) b := by
  have hpos : 0 < 2 ^ (f.p + f.w) := by positivity
  have hdiv := Nat.div_add_mod bits (2 ^ (f.p + f.w))
  have hmod := Nat.mod_lt bits hpos
  have hlt : bits / 2 ^ (f.p + f.w) < 2 := Nat.div_lt_of_lt_mul (by rwa [← pow_succ])
  refine ⟨bits % 2 ^ (f.p + f.w), by rwa [FloatFmt.signWeight, Nat.add_comm f.w], ?_⟩
  rw [FloatFmt.signBit, withSign, FloatFmt.signWeight, Nat.add_comm f.w]
  interval_cases bits / 2 ^ (f.p + f.w) <;> simp <;> omega

section RoundTrip
variable {f : FloatFmt} (hf : f.Wide) (hp : f.p ≤ 62)
include hf

/-- A pattern below 256 is finite. -/
theorem lt_infPattern_of_value_lt {b : Nat} (hb : b < f.signWeight)
    (h : ((significand f.p f.w b).1 : ℚ) * 2 ^ ((significand f.p f.w b).2 + 120) < 2 ^ 128) : b < f.infPattern := by
  obtain ⟨hproper, hbias⟩ := hf
  obtain ⟨n, hn, htop⟩ := FloatFmt.two_le_top hproper
  refine not_le.1 fun hge => not_le.2 h ?_
  have hexp : b / 2 ^ f.p = 2 ^ f.w - 1 := by
    refine le_antisymm (Nat.le_sub_one_of_lt (Nat.div_lt_of_lt_mul ?_)) ((Nat.le_div_iff_mul_le (by positivity)).2 hge)
    rwa [← pow_add, Nat.add_comm]
  have hmant : (2 : ℚ) ^ f.p ≤ ((b % 2 ^ f.p + 2 ^ f.p : Nat) : ℚ) := by
    exact_mod_cast Nat.le_add_left _ _
  rw [significand, Nat.mod_eq_of_lt (by omega), if_neg (by omega), hexp, ← FloatFmt.bias_cast]
  calc (2 : ℚ) ^ 128 ≤ 2 ^ ((f.bias : Int) + 121) := by
        rw [← zpow_natCast]
        exact zpow_le_zpow_right₀ one_le_two (by omega)
    _ = 2 ^ f.p * 2 ^ (((2 ^ f.w - 1 : Nat) : Int) - f.bias - f.p + 120) := by
        rw [← zpow_natCast, ← zpow_add₀ two_ne_zero]
        congr 1
        omega
    _ ≤ _ := mul_le_mul_of_nonneg_right hmant (by positivity)

include hp

/-- The round trip of a pattern on the grid and below 256; its sign is lost exactly where the value is 0 (R171). -/
theorem qtof_ftoq {bits units : Nat} (hbits : bits < 2 ^ (f.p + f.w + 1)) (hunits : units < 2 ^ 128)
    (h : ((significand f.p f.w bits).1 : ℚ) * 2 ^ ((significand f.p f.w bits).2 + 120) = units) :
    qtof f (ftoq f bits) = if bits = f.signWeight then 0 else bits := by
  have hcanonical := ftoq_canonical hp bits
  obtain ⟨b, hb, hbits'⟩ := exists_withSign hbits
  have hsig : significand f.p f.w bits = significand f.p f.w b := by
    rw [hbits', significand_withSign _ hb]
  have hlt : b < f.infPattern := by
    refine lt_infPattern_of_value_lt hf hb ?_
    rw [← hsig, h]
    exact_mod_cast hunits
  have hvalue : patternValue f b = units * 2 ^ (-120 : Int) := by
    rw [patternValue, ← hsig, ← h, mul_assoc, ← zpow_add₀ two_ne_zero, add_neg_cancel_right]
  have hq : ftoq f bits = canon (if f.signBit bits then .negative else .positive) units := by
    rw [ftoq_eq_fixedOfFloat hp, fixedOfFloat_eq_canon, floorScale_of_exact h]
  have hmag : (ftoq f bits).mag = units := by rw [hq, canon_mag, Nat.mod_eq_of_lt hunits]
  obtain ⟨n, j, hscale, hn⟩ := exists_scale_of_exact (significand_lt ..) h
  have hround : roundPattern f (threeRoundings (f.p + 1) (ftoq f bits)) (-120) = b := by
    rw [threeRoundings_of_exact hn (hmag.trans hscale), hmag]
    refine eq_of_roundedTo_patternValue hf.1 ?_ hlt
    rw [hvalue]
    exact roundedTo_roundPattern hf.1 units (-120)
  have hzero : units = 0 ↔ b = 0 := by
    have hzero' := represents_zero hf
    constructor
    · rintro rfl
      have h0 : Represents f b 0 := ⟨hlt, hvalue.trans (by simp)⟩
      exact h0.unique hf.1 hzero'
    · rintro rfl
      rw [hzero'.2, eq_comm, mul_eq_zero, or_iff_left (by positivity : (2 : ℚ) ^ (-120 : Int) ≠ 0)] at hvalue
      exact_mod_cast hvalue
  rw [qtof_eq hf hcanonical, hround, hq, canon_sign, Nat.mod_eq_of_lt hunits]
  rcases Nat.eq_zero_or_pos units with h0 | hpos
  · rw [if_pos h0, hbits', hzero.1 h0]
    cases f.signBit bits <;> simp [withSign]
  · have hb0 : b ≠ 0 := fun hb0 => hpos.ne' (hzero.2 hb0)
    have hne : bits ≠ f.signWeight := by
      rw [hbits', withSign]
      split <;> omega
    rw [if_neg hpos.ne', if_neg hne]
    conv_rhs => rw [hbits']
    cases f.signBit bits <;> rfl

end RoundTrip

/-- Settles O37: on the grid the conversion loses nothing, no rounding back changes what fits in the format, and the
sign is lost only with the value 0 (`qtof_ftoq`). -/
theorem floatRoundTrip : Obligations.FloatRoundTrip := by
  refine ⟨fun v ⟨units, hunits, h⟩ => ?_, fun v ⟨units, hunits, h⟩ => ?_⟩
  · have hround := qtof_ftoq binary64_wide (by decide) v.isLt hunits h
    rw [qtof64, hround, show binary64.signWeight = (0x8000000000000000#64).toNat from rfl]
    simp only [← BitVec.toNat_inj]
    split
    · rfl
    · rw [BitVec.toNat_ofNat, Nat.mod_eq_of_lt v.isLt]
  · have hround := qtof_ftoq binary32_wide (by decide) v.isLt hunits h
    rw [qtof32, hround, show binary32.signWeight = (0x80000000#32).toNat from rfl]
    simp only [← BitVec.toNat_inj]
    split
    · rfl
    · rw [BitVec.toNat_ofNat, Nat.mod_eq_of_lt v.isLt]

end Sys2Proof.Machine
end

section
/-! The float orbit stays finite and within its bounds (R205). -/

namespace Sys2Proof.Machine
open Sys2Proof.Claims

/-! ### Bounds through one rounding -/

/-- A finite binary64 pattern of magnitude at most `bound`. -/
def Within (bound : ℚ) (a : BitVec 64) : Prop := Finite64 a ∧ |value64 a| ≤ bound

theorem Within.mono {x y : ℚ} {a : BitVec 64} (h : Within x a) (hxy : x ≤ y) : Within y a := ⟨h.1, h.2.trans hxy⟩

theorem finite64_iff (a : BitVec 64) : Finite64 a ↔ a.toNat % 2 ^ 63 < binary64.infPattern := by
  have hinf : binary64.infPattern = 0x7FF0000000000000 := rfl
  rw [Finite64, hinf]
  omega

/-- The multiples of `2^-8` up to `2^45` are binary64 values; every bound of the orbit is one. -/
theorem exists_represents {n : Nat} (hn : n < 2 ^ 53) : ∃ b, Represents binary64 b (n / 2 ^ 8) := by
  have hround : roundBits (binary64.p + 1) n = n := by
    have hlt : n < 2 ^ (binary64.p + 1) := hn
    simpa using roundBits_of_lt hlt 0
  have h := represents_of_wide binary64_wide n (e := -8) (by omega) (hround.le.trans hn.le) (by omega)
  rw [hround, zpow_neg, ← div_eq_mul_inv] at h
  exact ⟨_, h⟩

section Correct
variable {x : ℚ} {r : BitVec 64} (h : Correct64 x r) {n : Nat} (hn : n < 2 ^ 53)
include h hn

/-- A result does not round above a bound that the exact result meets. -/
theorem Correct64.within (hx : |x| ≤ n / 2 ^ 8) : Within (n / 2 ^ 8) r := by
  obtain ⟨b, hb, hvalue⟩ := exists_represents hn
  rw [← hvalue] at hx ⊢
  rw [Within, finite64_iff, abs_value64]
  exact roundedTo_le_of_le binary64_proper h.1 hb hx

/-- What rounds below a bound lies below it. -/
theorem Correct64.abs_lt (hr : Finite64 r) (hlt : |value64 r| < n / 2 ^ 8) : |x| < n / 2 ^ 8 := by
  obtain ⟨b, hb, hvalue⟩ := exists_represents hn
  rw [← hvalue] at hlt ⊢
  rw [abs_value64] at hlt
  exact not_le.1 fun hle => not_le.2 hlt (roundedTo_ge_of_ge h.1 hb hle ((finite64_iff r).1 hr))

end Correct

/-- Rounding keeps a non-negative result non-negative. -/
theorem Correct64.nonneg {x : ℚ} {r : BitVec 64} (h : Correct64 x r) (hx : 0 ≤ x) : 0 ≤ value64 r := by
  rcases hx.eq_or_lt with rfl | hpos
  · have hzero := (h.within (n := 0) (by norm_num) (by simp)).2
    rw [Nat.cast_zero, zero_div] at hzero
    rw [abs_nonpos_iff.1 hzero]
  · have hsign := h.2 hpos.ne'
    rw [if_neg hpos.not_gt] at hsign
    rw [value64, if_neg (by omega), one_mul, ← abs_value64]
    exact abs_nonneg _

/-! ### The conversions at the switch -/

/-- The two rounded words exceed `2^128` by too little for their sum to round above it. -/
theorem roundBits_le_of_excess {prec n t : Nat} (hprec : 0 < prec) (hprec' : prec ≤ 63) (ht : t ≤ 2 ^ 64)
    (hn : n = 2 ^ 128 + t) : roundBits prec n = 2 ^ 128 := by
  obtain ⟨k, hk⟩ := Nat.exists_eq_add_of_le (show prec ≤ 129 by omega)
  obtain ⟨q, hq⟩ := Nat.exists_eq_add_of_le' hprec
  have hlog : Nat.log2 n = 128 := by
    rw [Nat.log2_eq_iff (by omega)]
    omega
  have hlarge : 2 ^ 66 ≤ 2 ^ k := Nat.pow_le_pow_right (by omega) (by omega)
  have hpow : 2 ^ 128 = 2 ^ k * 2 ^ q := by rw [← pow_add]; congr 1; omega
  have hdiv : n / 2 ^ k = 2 ^ q := by
    rw [hn, hpow, Nat.mul_add_div (by positivity), Nat.div_eq_of_lt (by omega), Nat.add_zero]
  have hmod : n % 2 ^ k = t := by
    rw [hn, hpow, Nat.mul_add_mod, Nat.mod_eq_of_lt (by omega)]
  rw [roundBits_eq, hlog, show 128 + 1 - prec = k by omega, roundShift, hdiv, hmod, hpow, if_neg (by omega),
    Nat.mul_comm]

theorem threeRoundings_le_top {prec : Nat} (hprec : 0 < prec) (hprec' : prec ≤ 63) (a : Q) :
    threeRoundings prec a ≤ 2 ^ 128 := by
  have hhigh : roundBits prec a.high.toNat ≤ 2 ^ 64 := roundBits_le hprec a.high.isLt
  have hlow : roundBits prec a.low.toNat ≤ 2 ^ 64 := roundBits_le hprec a.low.isLt
  rw [threeRoundings]
  generalize roundBits prec a.high.toNat = high at *
  generalize roundBits prec a.low.toNat = low at *
  rcases Nat.lt_or_ge (high * 2 ^ 64 + low) (2 ^ 128) with h | h
  · exact roundBits_le hprec h
  · obtain ⟨t, ht⟩ := Nat.exists_eq_add_of_le h
    exact (roundBits_le_of_excess hprec hprec' (by omega) ht).le

theorem qtof64_within {a : Q} (ha : a.canonical = true) : Within 256 (qtof64 a) := by
  obtain ⟨hlt, hvalue⟩ := represents_qtof binary64_wide a
  have hmod : (qtof64 a).toNat % 2 ^ 63 = roundPattern binary64 (threeRoundings 53 a) (-120) := by
    have hlt' : roundPattern binary64 (threeRoundings 53 a) (-120) < 2 ^ 63 := hlt.trans_le binary64.infPattern_le
    rw [qtof64, qtof_eq binary64_wide ha]
    exact pattern64_mod _ hlt'
  have htop : (threeRoundings (binary64.p + 1) a : ℚ) ≤ 2 ^ 128 := by
    exact_mod_cast threeRoundings_le_top (by decide) (by decide) a
  rw [Within, finite64_iff, abs_value64, hmod]
  refine ⟨hlt, hvalue.le.trans ?_⟩
  calc (threeRoundings (binary64.p + 1) a : ℚ) * 2 ^ (-120 : Int) ≤ 2 ^ 128 * 2 ^ (-120 : Int) :=
        mul_le_mul_of_nonneg_right htop (by positivity)
    _ = 256 := by norm_num

/-- The float orbit and its constant, as bounds. -/
theorem floatOrbitFinite_of_within {e : Eti} {bound : ℚ} (hbound : bound < 2 ^ 17 + 2 ^ 9) (hcx : Within 256 e.cxf)
    (hcy : Within 256 e.cyf) (hx : Within bound e.xf) (hy : Within bound e.yf) : FloatOrbitFinite e := by
  constructor
  · rintro c (rfl | rfl)
    · exact hcx
    · exact hcy
  · rintro z (rfl | rfl)
    · exact ⟨hx.1, hx.2.trans_lt hbound⟩
    · exact ⟨hy.1, hy.2.trans_lt hbound⟩

theorem floatOrbitFinite_etiSwitch {e : Eti} (h : e.Canonical) : FloatOrbitFinite (etiSwitch e) := by
  obtain ⟨hcx, hcy, hx, hy⟩ := h
  exact floatOrbitFinite_of_within (by norm_num) (qtof64_within hcx) (qtof64_within hcy) (qtof64_within hx)
    (qtof64_within hy)

/-! ### One update of the float phase -/

theorem fTwo_within : Within 2 fTwo ∧ value64 fTwo = 2 := by
  have hvalue : value64 fTwo = 2 := by
    rw [value64_eq, show fTwo.msb = false by decide, show mant64 fTwo = 2 ^ 52 by decide +kernel,
      show expo64 fTwo = -51 by decide +kernel]
    norm_num [signFactor]
  exact ⟨⟨(finite64_iff _).2 (by decide +kernel), by rw [hvalue]; norm_num⟩, hvalue⟩

theorem f65536_value : Finite64 f65536 ∧ value64 f65536 = 65536 := by
  refine ⟨(finite64_iff _).2 (by decide +kernel), ?_⟩
  rw [value64_eq, show f65536.msb = false by decide, show mant64 f65536 = 2 ^ 52 by decide +kernel,
    show expo64 f65536 = -36 by decide +kernel]
  norm_num [signFactor]

section Bounds
variable {a b : BitVec 64} {p q : ℚ} (ha : Within p a) (hb : Within q b) {n : Nat}
include ha hb

theorem fadd_within (hn : n < 2 ^ 53) (h : p + q ≤ n / 2 ^ 8) : Within (n / 2 ^ 8) (fadd a b) :=
  (fadd_correct ha.1 hb.1).within hn ((abs_add_le _ _).trans ((add_le_add ha.2 hb.2).trans h))

theorem fmul_within (hn : n < 2 ^ 53) (h : p * q ≤ n / 2 ^ 8) : Within (n / 2 ^ 8) (fmul a b) := by
  refine (fmul_correct ha.1 hb.1).within hn (le_trans ?_ h)
  rw [abs_mul]
  exact mul_le_mul ha.2 hb.2 (abs_nonneg _) ((abs_nonneg _).trans ha.2)

omit ha hb in
/-- The difference of two values on the same side of 0 is no larger than the larger of them. -/
theorem fsub_within (ha : Within (n / 2 ^ 8) a) (hb : Within (n / 2 ^ 8) b) (ha0 : 0 ≤ value64 a)
    (hb0 : 0 ≤ value64 b) (hn : n < 2 ^ 53) : Within (n / 2 ^ 8) (fsub a b) := by
  obtain ⟨haF, haB⟩ := ha
  obtain ⟨hbF, hbB⟩ := hb
  rw [abs_of_nonneg ha0] at haB
  rw [abs_of_nonneg hb0] at hbB
  exact (fsub_correct haF hbF).within hn (abs_le.2 ⟨by linarith, by linarith⟩)

end Bounds

/-- A square is not negative. -/
theorem fmul_self_nonneg {a : BitVec 64} (ha : Finite64 a) : 0 ≤ value64 (fmul a a) :=
  (fmul_correct ha ha).nonneg (mul_self_nonneg _)

/-- What a float transition computes beside the new point is finite. -/
theorem floatIntermediates_within {e : Eti} (hx : Within (2 ^ 18) e.xf) (hy : Within (2 ^ 18) e.yf) :
    Within ((2 ^ 44 : Nat) / 2 ^ 8) (fmul e.xf e.xf) ∧ Within ((2 ^ 44 : Nat) / 2 ^ 8) (fmul e.yf e.yf) ∧
    Within ((2 ^ 45 : Nat) / 2 ^ 8) (floatNorm e) ∧
    Within ((2 ^ 44 : Nat) / 2 ^ 8) (fsub (fmul e.xf e.xf) (fmul e.yf e.yf)) ∧
    Within ((2 ^ 27 : Nat) / 2 ^ 8) (fmul fTwo e.xf) ∧
    Within ((2 ^ 45 : Nat) / 2 ^ 8) (fmul (fmul fTwo e.xf) e.yf) := by
  have hxx := fmul_within hx hx (n := 2 ^ 44) (by norm_num) (by norm_num)
  have hyy := fmul_within hy hy (n := 2 ^ 44) (by norm_num) (by norm_num)
  have htwo := fmul_within fTwo_within.1 hx (n := 2 ^ 27) (by norm_num) (by norm_num)
  exact ⟨hxx, hyy, fadd_within hxx hyy (by norm_num) (by norm_num),
    fsub_within hxx hyy (fmul_self_nonneg hx.1) (fmul_self_nonneg hy.1) (by norm_num), htwo,
    fmul_within htwo hy (by norm_num) (by norm_num)⟩

/-- Where the float phase goes on, both squares round to less than 65537, so the point lies within `65537 / 256`. -/
theorem coordinates_within {x y : BitVec 64} (hx : Finite64 x) (hy : Finite64 y) (hxx : Finite64 (fmul x x))
    (hyy : Finite64 (fmul y y)) (hnorm : Within 65536 (fadd (fmul x x) (fmul y y))) :
    Within ((65537 * 256 : Nat) / 2 ^ 8) (fmul x x) ∧ Within ((65537 * 256 : Nat) / 2 ^ 8) (fmul y y) ∧
    Within ((65537 : Nat) / 2 ^ 8) x ∧ Within ((65537 : Nat) / 2 ^ 8) y := by
  have hxx0 := fmul_self_nonneg hx
  have hyy0 := fmul_self_nonneg hy
  have hsum : |value64 (fmul x x) + value64 (fmul y y)| < ((65537 * 256 : Nat) : ℚ) / 2 ^ 8 :=
    (fadd_correct hxx hyy).abs_lt (by norm_num) hnorm.1 (hnorm.2.trans_lt (by norm_num))
  rw [abs_of_nonneg (add_nonneg hxx0 hyy0)] at hsum
  have hcoordinate {z : BitVec 64} (hz : Finite64 z) (hzz : Finite64 (fmul z z))
      (hlt : value64 (fmul z z) < ((65537 * 256 : Nat) : ℚ) / 2 ^ 8) :
      Within ((65537 * 256 : Nat) / 2 ^ 8) (fmul z z) ∧ Within ((65537 : Nat) / 2 ^ 8) z := by
    have habs := abs_of_nonneg (fmul_self_nonneg hz)
    have hsquare := (fmul_correct hz hz).abs_lt (n := 65537 * 256) (by norm_num) hzz (by rwa [habs])
    refine ⟨⟨hzz, by rw [habs]; exact hlt.le⟩, hz, ?_⟩
    rw [abs_mul_self] at hsquare
    refine abs_le_of_sq_le_sq ?_ (by positivity)
    rw [sq]
    exact hsquare.le.trans (by norm_num)
  obtain ⟨hxx', hx'⟩ := hcoordinate hx hxx (by linarith)
  obtain ⟨hyy', hy'⟩ := hcoordinate hy hyy (by linarith)
  exact ⟨hxx', hyy', hx', hy'⟩

/-- The point of an orbit within its bounds lies within the next power of two. -/
theorem orbitPoint_within {e : Eti} (h : FloatOrbitFinite e) : Within (2 ^ 18) e.xf ∧ Within (2 ^ 18) e.yf := by
  obtain ⟨hx, hxlt⟩ := h.2 _ (.inl rfl)
  obtain ⟨hy, hylt⟩ := h.2 _ (.inr rfl)
  exact ⟨⟨hx, hxlt.le.trans (by norm_num)⟩, ⟨hy, hylt.le.trans (by norm_num)⟩⟩

/-- An update of the float phase keeps the orbit within its bounds where the phase goes on. -/
theorem floatOrbitFinite_floatStep {e : Eti} (h : FloatOrbitFinite e) (hgo : fle (floatNorm e) f65536 = true) :
    FloatOrbitFinite (floatStep e) := by
  have hcx : Within 256 e.cxf := h.1 _ (.inl rfl)
  have hcy : Within 256 e.cyf := h.1 _ (.inr rfl)
  obtain ⟨hx, hy⟩ := orbitPoint_within h
  obtain ⟨hxx, hyy, hnorm, -⟩ := floatIntermediates_within hx hy
  have hxx0 := fmul_self_nonneg hx.1
  have hyy0 := fmul_self_nonneg hy.1
  have hnorm0 : 0 ≤ value64 (floatNorm e) := (fadd_correct hxx.1 hyy.1).nonneg (add_nonneg hxx0 hyy0)
  have hle := (fle_iff hnorm.1 f65536_value.1).1 hgo
  rw [f65536_value.2] at hle
  obtain ⟨hxx', hyy', hx', hy'⟩ :=
    coordinates_within hx.1 hy.1 hxx.1 hyy.1 ⟨hnorm.1, by rwa [← floatNorm, abs_of_nonneg hnorm0]⟩
  have htwo := fmul_within fTwo_within.1 hx' (n := 131074) (by norm_num) (by norm_num)
  have hcross := fmul_within htwo hy' (n := 131077 * 256) (by norm_num) (by norm_num)
  have hdiff := fsub_within hxx' hyy' hxx0 hyy0 (by norm_num)
  exact floatOrbitFinite_of_within (bound := ((131333 * 256 : Nat) : ℚ) / 2 ^ 8) (by norm_num) hcx hcy
    (fadd_within hdiff hcx (by norm_num) (by norm_num)) (fadd_within hcross hcy (by norm_num) (by norm_num))

/-! ### Transitions, runs and steps -/

theorem floatOrbitFinite_etiFinish (cap : BitVec 32) {e : Eti} (h : FloatOrbitFinite e) :
    FloatOrbitFinite (etiFinish cap e) := by
  rwa [FloatOrbitFinite, etiFinish_cxf, etiFinish_cyf, etiFinish_xf, etiFinish_yf]

/-- Settles O56: the fixed phase is left by the switch, whose conversions stay within 256; in the float phase every
value is bounded from the old point (`floatIntermediates_within`), the new point where the phase goes on. -/
theorem floatTransitionsStayFinite : Obligations.FloatTransitionsStayFinite := by
  refine fun cap e => ⟨fun hphase hfloat hx hy hcx hcy => ?switch, fun hphase h => ?float⟩
  case switch =>
    have hleave : ¬ fixedContinues cap e = true := fun hgo => by
      rw [etiTransition_fixed hphase, if_pos hgo, show (fixedStep e).phase = e.phase from rfl, hphase] at hfloat
      cases hfloat
    rw [etiTransition_fixed hphase, if_neg hleave]
    exact ⟨floatOrbitFinite_etiSwitch ⟨hcx, hcy, hx, hy⟩, (qtof64_within hx).2, (qtof64_within hy).2⟩
  case float =>
    obtain ⟨hx, hy⟩ := orbitPoint_within h
    obtain ⟨hxx, hyy, hnorm, hdiff, htwo, hcross⟩ := floatIntermediates_within hx hy
    refine ⟨?_, hxx.1, hyy.1, hnorm.1, hdiff.1, htwo.1, hcross.1⟩
    rw [etiTransition_float hphase]
    split
    case isTrue hgo => exact floatOrbitFinite_floatStep h (floatContinues_iff.1 hgo).2
    case isFalse => exact floatOrbitFinite_etiFinish cap h

theorem floatOrbitFinite_floatStep_iterate {cap : BitVec 32} {e : Eti} (h : FloatOrbitFinite e) {l : Nat}
    (hgo : ∀ j < l, floatContinues cap (floatStep^[j] e) = true) : FloatOrbitFinite (floatStep^[l] e) := by
  induction l with
  | zero => exact h
  | succ l ih =>
    rw [Function.iterate_succ_apply']
    exact floatOrbitFinite_floatStep (ih fun j hj => hgo j (by omega)) (floatContinues_iff.1 (hgo l (by omega))).2

/-- A run on canonical operands leaves the float registers within their bounds. -/
theorem floatOrbitFinite_iterate (cap : BitVec 32) (e : Eti) {cx cy : Q} (hx : cx.canonical = true)
    (hy : cy.canonical = true) : FloatOrbitFinite (iterate cap e cx cy) := by
  obtain ⟨k, l, hrun, -, -, -, hgo, -⟩ := iterate_spec cap e cx cy
  rw [hrun]
  exact floatOrbitFinite_etiFinish cap (floatOrbitFinite_floatStep_iterate
    (floatOrbitFinite_etiSwitch (fixedStep_iterate_canonical (etiStart_canonical e hx hy) k)) hgo)

/-- Settles O44: the registers that `ITER` leaves are those of its run (`floatOrbitFinite_iterate`). -/
theorem iterOrbitStaysFinite : Obligations.IterOrbitStaysFinite := fun s ra rb hs =>
  ⟨_, exec_iter ra rb s, floatOrbitFinite_iterate s.maxIter s.eti (hs.readQ ra) (hs.readQ rb)⟩

theorem floatOrbitFinite_reset : FloatOrbitFinite Eti.reset := by
  have hzero : Within 0 (0#64) := by
    have hmant : mant64 0#64 = 0 := by decide +kernel
    exact ⟨(finite64_iff _).2 (by decide +kernel), by rw [(value64_eq_zero_iff _).2 hmant, abs_zero]⟩
  have hsmall : Within 256 (0#64) := hzero.mono (by norm_num)
  exact floatOrbitFinite_of_within (by norm_num) hsmall hsmall hsmall hsmall

/-- Settles O11: the registers are canonical zero, there is no fault, the iterator is IDLE, and its float registers are
+0.0. -/
theorem resetMeetsInvariant : Obligations.ResetMeetsInvariant :=
  ⟨⟨canonicalRegs_assertReset State.reset [], ⟨fun _ => ⟨rfl, rfl⟩, fun h => by cases h⟩,
    ⟨.inl rfl, BitVec.le_refl _⟩⟩, floatOrbitFinite_reset⟩

/-- What every step keeps of the iterator: canonical operands, and a float orbit within its bounds. -/
def State.OrbitInv (s : State) : Prop := s.CanonicalRegs ∧ FloatOrbitFinite s.eti

/-- Settles O57: only `ITER` moves the iterator, and its run keeps the bounds from canonical operands
(`floatOrbitFinite_iterate`), which are kept beside them. -/
theorem stepKeepsFloatRegistersFinite : Obligations.StepKeepsFloatRegistersFinite := by
  intro s t hs heti hstep
  suffices h : t.OrbitInv from h.2
  refine step_keeps (P := State.OrbitInv) hstep ⟨hs, heti⟩
    (fun rest _ => ⟨canonicalRegs_assertReset s rest, floatOrbitFinite_reset⟩) (fun _ h => h) (fun _ _ _ h => h)
    (fun _ h => h) ?_
  intro i u v hi ⟨hq, horbit⟩
  refine ⟨hi.canonicalRegs hq, ?_⟩
  cases hi with
  | iterate ra rb _ => exact floatOrbitFinite_iterate u.maxIter u.eti (hq.readQ ra) (hq.readQ rb)
  | write rd w _ _ => exact horbit
  | answer d => exact horbit
  | setMaxIter n w _ => exact horbit
  | fault c _ => exact horbit

end Sys2Proof.Machine
end
